-- ==== Sys2Proof/Word.lean ====
section
/-! DEFINITION. The words of the block: a byte of memory, a 16-bit element or counter, a 32-bit address
or response, the 64-bit command word (spec/10_state.md R22 to R27, R38; spec/30_encoding.md R90). -/

namespace Sys2Proof

/-- A byte of the block's memory, a bus word, a colour intensity. -/
abbrev Byte := BitVec 8

/-- A 16-bit value: PERIOD, DUTY, a TimerTable element, a descriptor's counter fields. -/
abbrev Half := BitVec 16

/-- A 32-bit value: RESP, ENC_POS, a descriptor's SRC. -/
abbrev Word := BitVec 32

/-- A command word of the command port (spec/30_encoding.md R90). -/
abbrev CommandWord := BitVec 64

end Sys2Proof
end

