-- ==== Sys2Proof/Syntax.lean ====
section
/-! DEFINITION. The nine host commands, one constructor per row of spec/opcode_table.json
(spec/30_encoding.md R96, R100). Operand fields have the widths of R92 to R94. -/

namespace Sys2Proof

/-- A host command with its operand fields as the command word carries them. -/
inductive Instr where
  /-- BEGIN, format N (spec/43_scan_controller.md R191) -/
  | begin
  /-- SETBRIGHT RAW, format B (spec/41_timer_table.md R146) -/
  | setbright (raw : BitVec 32)
  /-- GETBRIGHT, format N (spec/41_timer_table.md R147) -/
  | getbright
  /-- SETPIX COL, ROW, R, G, B, format P (spec/42_pixel_encoder.md R163) -/
  | setpix (col row r g b : BitVec 8)
  /-- GETPIXELS, format N (spec/42_pixel_encoder.md R164) -/
  | getpixels
  /-- SHOW, format N (spec/42_pixel_encoder.md R168); `show` is a word of Lean, so the name is the rules' "SHOW start" -/
  | showStart
  /-- REFRESH, format N (spec/43_scan_controller.md R204) -/
  | refresh
  /-- MEMWR OFF, VAL, format M (spec/42_pixel_encoder.md R165) -/
  | memwr (off : BitVec 24) (val : BitVec 8)
  /-- MEMRD OFF, format M with a VAL field that must be 0 (spec/42_pixel_encoder.md R166; log entry 17) -/
  | memrd (off : BitVec 24) (val : BitVec 8)
  deriving DecidableEq, Repr

end Sys2Proof
end

