-- ==== Sys2Proof/WellFormed.lean ====
section
/-! DEFINITION. Which terms of `Instr` are commands of the block. The operand widths are in the types;
the one constraint left is that of MEMRD: "VAL must be 0" (spec/42_pixel_encoder.md R166,
spec/30_encoding.md R96, R98). Operands out of range are well-formed (spec/30_encoding.md R99). -/

namespace Sys2Proof

/-- The command is one that some valid command word stands for. -/
def Instr.wellFormed : Instr → Bool
  | .begin => true
  | .setbright _ => true
  | .getbright => true
  | .setpix _ _ _ _ _ => true
  | .getpixels => true
  | .showStart => true
  | .refresh => true
  | .memwr _ _ => true
  | .memrd _ val => decide (val = 0#8)

end Sys2Proof
end

