-- ==== Sys2Proof/Decode.lean ====
section
/-! DEFINITION. The command word: fields (spec/30_encoding.md R91 to R94), the opcode map (R96), the match
and mask of each row (R97), what is invalid and why (R98), the decoder, and after it the encoder. -/

namespace Sys2Proof

/-- Why a word is invalid (spec/30_encoding.md R98). -/
inductive DecodeError where
  /-- OP = 0x00 or OP in 0x0A to 0xFF -/
  | unassignedOpcode
  /-- the format's zero field is not all 0 -/
  | nonzeroZeroField
  /-- MEMRD with VAL ≠ 0 -/
  | memrdValue
  deriving DecidableEq, Repr

/-! ### Fields (R90 to R94) -/

/-- OP = CW[63:56]. -/
def opField (w : CommandWord) : BitVec 8 := w.extractLsb' 56 8

/-- The zero field of format N, CW[55:0]. -/
def zeroFieldN (w : CommandWord) : BitVec 56 := w.extractLsb' 0 56

/-- The zero field of formats B and M, CW[55:32]. -/
def zeroFieldBM (w : CommandWord) : BitVec 24 := w.extractLsb' 32 24

/-- The zero field of format P, CW[55:40]. -/
def zeroFieldP (w : CommandWord) : BitVec 16 := w.extractLsb' 40 16

/-- RAW = CW[31:0] (format B). -/
def rawField (w : CommandWord) : BitVec 32 := w.extractLsb' 0 32

/-- COL = CW[39:32] (format P). -/
def colField (w : CommandWord) : BitVec 8 := w.extractLsb' 32 8

/-- ROW = CW[31:24] (format P). -/
def rowField (w : CommandWord) : BitVec 8 := w.extractLsb' 24 8

/-- R = CW[23:16] (format P). -/
def redField (w : CommandWord) : BitVec 8 := w.extractLsb' 16 8

/-- G = CW[15:8] (format P). -/
def greenField (w : CommandWord) : BitVec 8 := w.extractLsb' 8 8

/-- B = CW[7:0] (format P). -/
def blueField (w : CommandWord) : BitVec 8 := w.extractLsb' 0 8

/-- OFF = CW[31:8] (format M). -/
def offField (w : CommandWord) : BitVec 24 := w.extractLsb' 8 24

/-- VAL = CW[7:0] (format M). -/
def valField (w : CommandWord) : BitVec 8 := w.extractLsb' 0 8

/-! ### Decoding -/

/-- A word of format N: every bit below OP must be 0 (R91). -/
def decodeN (w : CommandWord) (i : Instr) : Except DecodeError Instr :=
  if zeroFieldN w = 0#56 then .ok i else .error .nonzeroZeroField

/-- A word of format B (R92). -/
def decodeB (w : CommandWord) : Except DecodeError Instr :=
  if zeroFieldBM w = 0#24 then .ok (.setbright (rawField w)) else .error .nonzeroZeroField

/-- A word of format P (R93). -/
def decodeP (w : CommandWord) : Except DecodeError Instr :=
  if zeroFieldP w = 0#16 then
    .ok (.setpix (colField w) (rowField w) (redField w) (greenField w) (blueField w))
  else .error .nonzeroZeroField

/-- A MEMWR word, format M (R94). -/
def decodeMemwr (w : CommandWord) : Except DecodeError Instr :=
  if zeroFieldBM w = 0#24 then .ok (.memwr (offField w) (valField w)) else .error .nonzeroZeroField

/-- A MEMRD word, format M with VAL = 0 (R94, R96, R98). -/
def decodeMemrd (w : CommandWord) : Except DecodeError Instr :=
  if zeroFieldBM w = 0#24 then
    if valField w = 0#8 then .ok (.memrd (offField w) (valField w)) else .error .memrdValue
  else .error .nonzeroZeroField

/-- The command of a word, or why it is invalid: total on all 2^64 words (R96, R98). -/
def decode (w : CommandWord) : Except DecodeError Instr :=
  if opField w = 0x01#8 then decodeN w .begin
  else if opField w = 0x02#8 then decodeB w
  else if opField w = 0x03#8 then decodeN w .getbright
  else if opField w = 0x04#8 then decodeP w
  else if opField w = 0x05#8 then decodeN w .getpixels
  else if opField w = 0x06#8 then decodeN w .showStart
  else if opField w = 0x07#8 then decodeN w .refresh
  else if opField w = 0x08#8 then decodeMemwr w
  else if opField w = 0x09#8 then decodeMemrd w
  else .error .unassignedOpcode

/-- The instruction the decoder reads from a word whose low `nbits` bits are those of `w`, numbered as
spec/opcode_table.json numbers them (bit 0 is CW[0]), every bit above `nbits` being 0. The command port
takes one whole word, so there is no byte order to lay out (R90). -/
def decodeTableWord (nbits w : Nat) : Option Instr :=
  if nbits ≤ 64 then (decode (BitVec.ofNat 64 (w % 2 ^ nbits))).toOption else none

/-! ### Encoding -/

/-- The OP of each command (R96). -/
def Instr.opcode : Instr → BitVec 8
  | .begin => 0x01#8
  | .setbright _ => 0x02#8
  | .getbright => 0x03#8
  | .setpix _ _ _ _ _ => 0x04#8
  | .getpixels => 0x05#8
  | .showStart => 0x06#8
  | .refresh => 0x07#8
  | .memwr _ _ => 0x08#8
  | .memrd _ _ => 0x09#8

/-- The 56 bits below OP, by format (R91 to R94). -/
def Instr.operandBits : Instr → BitVec 56
  | .begin => 0#56
  | .setbright raw => 0#24 ++ raw
  | .getbright => 0#56
  | .setpix col row r g b => 0#16 ++ col ++ row ++ r ++ g ++ b
  | .getpixels => 0#56
  | .showStart => 0#56
  | .refresh => 0#56
  | .memwr off val => 0#24 ++ off ++ val
  | .memrd off val => 0#24 ++ off ++ val

/-- The command word of a command (R91 to R96). -/
def encode (i : Instr) : CommandWord := i.opcode ++ i.operandBits

/-! ### The table of match and mask (R97) -/

/-- One row of the table of R97. -/
structure OpcodeRow where
  mnemonic : String
  fixed : CommandWord
  mask : CommandWord
  deriving DecidableEq, Repr

/-- `CW AND mask = match`: the word is the command of the row (R97). -/
def OpcodeRow.matches (row : OpcodeRow) (w : CommandWord) : Bool := decide (w &&& row.mask = row.fixed)

/-- The row of each command (R97). -/
def Instr.opcodeRow : Instr → OpcodeRow
  | .begin => ⟨"BEGIN", 0x0100000000000000#64, 0xFFFFFFFFFFFFFFFF#64⟩
  | .setbright _ => ⟨"SETBRIGHT", 0x0200000000000000#64, 0xFFFFFFFF00000000#64⟩
  | .getbright => ⟨"GETBRIGHT", 0x0300000000000000#64, 0xFFFFFFFFFFFFFFFF#64⟩
  | .setpix _ _ _ _ _ => ⟨"SETPIX", 0x0400000000000000#64, 0xFFFFFF0000000000#64⟩
  | .getpixels => ⟨"GETPIXELS", 0x0500000000000000#64, 0xFFFFFFFFFFFFFFFF#64⟩
  | .showStart => ⟨"SHOW", 0x0600000000000000#64, 0xFFFFFFFFFFFFFFFF#64⟩
  | .refresh => ⟨"REFRESH", 0x0700000000000000#64, 0xFFFFFFFFFFFFFFFF#64⟩
  | .memwr _ _ => ⟨"MEMWR", 0x0800000000000000#64, 0xFFFFFFFF00000000#64⟩
  | .memrd _ _ => ⟨"MEMRD", 0x0900000000000000#64, 0xFFFFFFFF000000FF#64⟩

/-- The nine rows of R97, in the order of the table. -/
def opcodeTable : List OpcodeRow :=
  [Instr.opcodeRow .begin, Instr.opcodeRow (.setbright 0#32), Instr.opcodeRow .getbright,
    Instr.opcodeRow (.setpix 0#8 0#8 0#8 0#8 0#8), Instr.opcodeRow .getpixels, Instr.opcodeRow .showStart,
    Instr.opcodeRow .refresh, Instr.opcodeRow (.memwr 0#24 0#8), Instr.opcodeRow (.memrd 0#24 0#8)]

end Sys2Proof
end

