-- ==== Sys2Proof/Config.lean ====
section
/-! DEFINITION. The configuration record of spec/00_scope.md R7 and R10, the constants it determines
(R8, R9), when it is valid (R7, R9, R10, R11), and the two configurations REF8 and TINY (R12).

The four configuration functions ROW_CODE, LANE_MAP, PAGE_RANK and DRIVE_MAP have finite domains and are
held as tables, so that a configuration is plain data (log entry 3).
A `Config` carries the proof that it is valid: the block is defined only for valid configurations and a
model refuses to instantiate it on another (R11; log entry 4). -/

namespace Sys2Proof

/-- The three colour channels, `ch` in {0 = R, 1 = G, 2 = B} (spec/00_scope.md R16). -/
inductive Colour where
  | red
  | green
  | blue
  deriving DecidableEq, Repr

/-- The number of a colour channel (spec/00_scope.md R16). -/
def Colour.index : Colour → Nat
  | .red => 0
  | .green => 1
  | .blue => 2

/-- The three colour channels in the order of their numbers. -/
def Colour.all : List Colour := [.red, .green, .blue]

/-- What one data lane of one shift step carries (spec/30_encoding.md R112). -/
inductive Lane where
  /-- padding, always 0 -/
  | pad
  /-- the bit of one colour of one panel column -/
  | led (col : Nat) (ch : Colour)
  deriving DecidableEq, Repr

/-- The (column, channel) pair a lane carries, if any. -/
def Lane.led? : Lane → Option (Nat × Colour)
  | .pad => none
  | .led col ch => some (col, ch)

/-- The raw configuration record, under the names of spec/00_scope.md R7 and R10.
TIMER_WIDTH is fixed at 16 (R10) and has no field. -/
structure Params where
  /-- ROWS, the number of panel rows -/
  rows : Nat
  /-- COLUMNS, the number of panel columns -/
  columns : Nat
  /-- PWM_BITS, "true hardware PWM bits" -/
  pwmBits : Nat
  /-- PAGED_BITS, "temporally-dithered bits" -/
  pagedBits : Nat
  /-- BITS_PER_COLUMN, bits of one column-driver load -/
  bitsPerColumn : Nat
  /-- BITS_PER_WRITE, data bits carried by one bus write -/
  bitsPerWrite : Nat
  /-- CLK_PHASES, bus words per shift step -/
  clkPhases : Nat
  /-- UNIT_TIME, timer counts of the bit-plane-0 slot at full brightness -/
  unitTime : Nat
  /-- SENTINEL_PERIOD, timer counts of the sentinel slot -/
  sentinelPeriod : Nat
  /-- BRIGHT_FRAC_BITS, fraction bits of the brightness fixed point -/
  brightFracBits : Nat
  /-- ROW_CODE, one code for each row -/
  rowCodes : List Nat
  /-- IDLE_CODE, the sentinel row-select code -/
  idleCode : Nat
  /-- ADDR_WIDTH, bits of a row-select code -/
  addrWidth : Nat
  /-- LANE_MAP, lane `l` of shift step `g` at index `g * BITS_PER_WRITE + l` -/
  laneMap : List Lane
  /-- PAGE_RANK, one rank for each page -/
  pageRanks : List Nat
  /-- DRIVE_MAP, one drive code for each 8-bit intensity -/
  driveCodes : List Nat
  pixbufBase : Nat
  addrtabBase : Nat
  tmrtabBase : Nat
  outbuf0Base : Nat
  outbuf1Base : Nat
  descBase : Nat
  /-- RES_OK, sampled by BEGIN: peripheral resources available -/
  resOk : Bool
  deriving DecidableEq, Repr

/-! ### Derived constants (spec/00_scope.md R8, R9, R10, R16) -/

/-- BIT_DEPTH = PWM_BITS + PAGED_BITS (R8). -/
def Params.bitDepth (p : Params) : Nat := p.pwmBits + p.pagedBits

/-- PAGES = 2^PAGED_BITS (R8). -/
def Params.pages (p : Params) : Nat := 2 ^ p.pagedBits

/-- N_SLOTS = ROWS × PWM_BITS, the sentinel slot's index (R16). -/
def Params.nSlots (p : Params) : Nat := p.rows * p.pwmBits

/-- TABLE_LEN = PWM_BITS × ROWS + 1 (R8). -/
def Params.tableLen (p : Params) : Nat := p.nSlots + 1

/-- GROUPS = BITS_PER_COLUMN / BITS_PER_WRITE, the shift steps of one load (R9). -/
def Params.groups (p : Params) : Nat := p.bitsPerColumn / p.bitsPerWrite

/-- WRITES_PER_COLUMN = GROUPS × CLK_PHASES, the bus words of one slot chunk (R9). -/
def Params.writesPerColumn (p : Params) : Nat := p.groups * p.clkPhases

/-- HALF = WRITES_PER_COLUMN / 2 (R9). -/
def Params.half (p : Params) : Nat := p.writesPerColumn / 2

/-- PANEL_DEPTH_SIZE = ROWS × WRITES_PER_COLUMN × PWM_BITS, the bus words of one page (R8). -/
def Params.panelDepthSize (p : Params) : Nat := p.rows * p.writesPerColumn * p.pwmBits

/-- BUF_SIZE = PAGES × PANEL_DEPTH_SIZE (R8). -/
def Params.bufSize (p : Params) : Nat := p.pages * p.panelDepthSize

/-- BRIGHT_ONE = 2^BRIGHT_FRAC_BITS (R10). -/
def Params.brightOne (p : Params) : Nat := 2 ^ p.brightFracBits

/-- The size of PIXBUF in bytes, 3 × ROWS × COLUMNS (spec/20_memory.md R61). -/
def Params.pixbufSize (p : Params) : Nat := 3 * p.rows * p.columns

/-! ### Validity (spec/00_scope.md R7, R9, R10, R11) -/

/-- The geometry constraints of R7 and R9, and the table lengths of R11. -/
def Params.validGeometry (p : Params) : Bool :=
  decide (1 ≤ p.rows) && decide (p.rows ≤ 255) && decide (1 ≤ p.columns) && decide (p.columns ≤ 255)
    && decide (1 ≤ p.pwmBits) && decide (1 ≤ p.bitsPerWrite) && decide (p.bitsPerWrite ≤ 7)
    && decide (3 * p.columns ≤ p.bitsPerColumn) && decide (p.bitsPerColumn % p.bitsPerWrite = 0)
    && (decide (p.clkPhases = 1) || decide (p.clkPhases = 2)) && decide (p.writesPerColumn % 2 = 0)
    && decide (p.tableLen ≤ 65535) && decide (p.half ≤ 65535)

/-- The timer and brightness constraints of R10 (TIMER_WIDTH is 16). -/
def Params.validTimer (p : Params) : Bool :=
  decide (1 ≤ p.unitTime) && decide (p.unitTime * 2 ^ (p.pwmBits - 1) ≤ 65535)
    && decide (1 ≤ p.sentinelPeriod) && decide (p.sentinelPeriod ≤ 65535)
    && decide (1 ≤ p.brightFracBits) && decide (p.brightFracBits ≤ 16)

/-- ROW_CODE is injective, IDLE_CODE is no row code, and every code is below 2^ADDR_WIDTH (R10). -/
def Params.validCodes (p : Params) : Bool :=
  decide (p.rowCodes.length = p.rows) && decide p.rowCodes.Nodup && !p.rowCodes.contains p.idleCode
    && p.rowCodes.all (fun code => decide (code < 2 ^ p.addrWidth)) && decide (p.idleCode < 2 ^ p.addrWidth)
    && decide (1 ≤ p.addrWidth) && decide (p.addrWidth ≤ 8)

/-- Every (column, channel) pair of the panel. -/
def Params.leds (p : Params) : List (Nat × Colour) :=
  (List.range p.columns).flatMap fun col => Colour.all.map fun ch => (col, ch)

/-- LANE_MAP names every lane of every shift step, and every (column, channel) exactly once (R10). -/
def Params.validLanes (p : Params) : Bool :=
  decide (p.laneMap.length = p.groups * p.bitsPerWrite)
    && p.leds.all (fun led => decide ((p.laneMap.filterMap Lane.led?).count led = 1))
    && (p.laneMap.filterMap Lane.led?).all (fun led => decide (led.1 < p.columns))

/-- No entry of a list is smaller than the one before it. -/
def nonDecreasing : List Nat → Bool
  | a :: b :: rest => decide (a ≤ b) && nonDecreasing (b :: rest)
  | _ => true

/-- PAGE_RANK is a bijection on [0, PAGES); DRIVE_MAP sends 0 to 0 and 255 to 2^BIT_DEPTH − 1 and is
monotone non-decreasing (R10). -/
def Params.validDither (p : Params) : Bool :=
  decide (p.pageRanks.length = p.pages) && decide p.pageRanks.Nodup
    && p.pageRanks.all (fun rank => decide (rank < p.pages))
    && decide (p.driveCodes.length = 256) && decide (p.driveCodes[0]? = some 0)
    && decide (p.driveCodes[255]? = some (2 ^ p.bitDepth - 1)) && nonDecreasing p.driveCodes

/-- The six regions of the memory map, (base, size) (spec/20_memory.md R61). -/
def Params.regions (p : Params) : List (Nat × Nat) :=
  [(p.pixbufBase, p.pixbufSize), (p.addrtabBase, p.tableLen), (p.tmrtabBase, 4 * p.tableLen),
    (p.descBase, 64), (p.outbuf0Base, p.bufSize), (p.outbuf1Base, p.bufSize)]

/-- The regions are pairwise disjoint and lie below 2^32, and TMRTAB_BASE and DESC_BASE are multiples
of 4 (R10, R11). -/
def Params.validMap (p : Params) : Bool :=
  decide (p.regions.Pairwise fun a b => a.1 + a.2 ≤ b.1 ∨ b.1 + b.2 ≤ a.1)
    && p.regions.all (fun region => decide (region.1 + region.2 ≤ 2 ^ 32))
    && decide (p.tmrtabBase % 4 = 0) && decide (p.descBase % 4 = 0)

/-- A configuration is valid when every constraint of R7, R9, R10 and R11 holds. -/
def Params.valid (p : Params) : Bool :=
  p.validGeometry && p.validTimer && p.validCodes && p.validLanes && p.validDither && p.validMap

/-- A valid configuration: the block is defined for no other (spec/00_scope.md R11). -/
structure Config extends Params where
  isValid : toParams.valid = true
  deriving DecidableEq, Repr

/-! ### The reference functions and the two example configurations -/

/-- `bitlen(n)`, the number of bits of n written in binary (spec/00_scope.md R10). -/
def bitlen (n : Nat) : Nat := if n = 0 then 0 else Nat.log2 n + 1

/-- The reference lane map at index `q = g × BITS_PER_WRITE + l` (spec/30_encoding.md R112). -/
def referenceLane (columns q : Nat) : Lane :=
  if q < 3 * columns then
    .led (q / 3) (if q % 3 = 0 then .red else if q % 3 = 1 then .green else .blue)
  else .pad

/-- The reference drive map, floor(v × (2^BIT_DEPTH − 1) / 255) (spec/30_encoding.md R113). -/
def referenceDrive (bitDepth v : Nat) : Nat := v * (2 ^ bitDepth - 1) / 255

/-- A configuration with the reference functions and reference bases of spec/00_scope.md R10 and
spec/20_memory.md R61, CLK_PHASES = 2, BRIGHT_FRAC_BITS = 8, SENTINEL_PERIOD = UNIT_TIME. -/
def Params.reference (rows columns pwmBits pagedBits bitsPerColumn bitsPerWrite unitTime : Nat) : Params where
  rows := rows
  columns := columns
  pwmBits := pwmBits
  pagedBits := pagedBits
  bitsPerColumn := bitsPerColumn
  bitsPerWrite := bitsPerWrite
  clkPhases := 2
  unitTime := unitTime
  sentinelPeriod := unitTime
  brightFracBits := 8
  rowCodes := List.range rows
  idleCode := rows
  addrWidth := bitlen rows
  laneMap := (List.range (bitsPerColumn / bitsPerWrite * bitsPerWrite)).map (referenceLane columns)
  pageRanks := List.range (2 ^ pagedBits)
  driveCodes := (List.range 256).map (referenceDrive (pwmBits + pagedBits))
  pixbufBase := 0x00000000
  addrtabBase := 0x00040000
  tmrtabBase := 0x00050000
  outbuf0Base := 0x10000000
  outbuf1Base := 0x20000000
  descBase := 0x00090000
  resOk := true

/-- REF8, the document's 8 × 8 scenario completed with the reference values (spec/00_scope.md R12). -/
def Config.ref8 : Config where
  toParams := Params.reference 8 8 12 2 24 3 16
  isValid := by decide +kernel

/-- TINY, the small configuration of the spec's vectors (spec/00_scope.md R12). -/
def Config.tiny : Config where
  toParams := Params.reference 2 2 2 1 6 3 4
  isValid := by decide +kernel

end Sys2Proof
end

