-- ==== Sys2Proof/Machine/State.lean ====
section
/-! DEFINITION. The state of the block (spec/10_state.md R20 lists it exactly), the reasons a step can
stop, and the state after RESET (spec/10_state.md R45, spec/70_reset_and_hazards.md R260).

Beside the spec's state, `State` holds two fields of the model's own: `cfg`, the configuration, which is a
parameter of every rule and which no step changes (log entry 1), and `inputs`, the events the environment
offers next (log entry 5). -/

namespace Sys2Proof.Machine

/-! ### Small enumerations -/

/-- A buffer identity, `b` in {0, 1} (spec/00_scope.md R16, spec/10_state.md R31). -/
inductive BufferId where
  | buf0
  | buf1
  deriving DecidableEq, Repr

/-- SCAN_STATE; the value 3 is never taken and cannot be written here (spec/10_state.md R34). -/
inductive ScanState where
  | stopped
  | run
  | waitRefresh
  deriving DecidableEq, Repr

/-- An output port, the values of a descriptor's DST; 3 is reserved and cannot be written here
(spec/30_encoding.md R116, spec/93_implementation_defined.md U10). -/
inductive Port where
  /-- 0 = PORT_ADDR, writes ROWSEL -/
  | addr
  /-- 1 = PORT_PIXBUS, writes PIXBUS -/
  | pixbus
  /-- 2 = PORT_TIMER, element 0 writes PERIOD, element 1 writes DUTY -/
  | timer
  deriving DecidableEq, Repr

/-- An element size: ESIZE 0 is one byte, ESIZE 1 is two bytes (spec/10_state.md R38). -/
inductive ElemSize where
  | one
  | two
  deriving DecidableEq, Repr

/-- A transfer channel (spec/10_state.md R37, spec/30_encoding.md R117). -/
inductive Chan where
  /-- 0 = CH_ADDR -/
  | addr
  /-- 1 = CH_PIX0 -/
  | pix0
  /-- 2 = CH_PIX1 -/
  | pix1
  /-- 3 = CH_TMR -/
  | tmr
  deriving DecidableEq, Repr

/-! ### Structured state -/

/-- A transfer descriptor with the fields of spec/10_state.md R38. -/
structure Desc where
  /-- SRC: byte address of the next element to read -/
  src : BitVec 32
  /-- DST: output port -/
  dst : Port
  /-- ESIZE: element size -/
  esize : ElemSize
  /-- NELEM: elements moved per minor loop -/
  nelem : BitVec 16
  /-- SKIP: bytes added to SRC after a minor loop, beyond the bytes it read -/
  skip : BitVec 16
  /-- COUNT: minor loops remaining in this major loop -/
  count : BitVec 16
  /-- BCOUNT: value COUNT had when armed -/
  bcount : BitVec 16
  /-- LINK: triggered by the minor-loop completion of the previous channel number -/
  link : Bool
  /-- INTMAJ: raise IRQ when COUNT reaches 0 -/
  intmaj : Bool
  /-- EN: the channel responds to its trigger -/
  en : Bool
  /-- DONE: COUNT reached 0 since the channel was armed -/
  done : Bool
  deriving DecidableEq, Repr

/-- Reset value of a descriptor: every field 0 (spec/10_state.md R39). -/
def Desc.zero : Desc where
  src := 0#32
  dst := .addr
  esize := .one
  nelem := 0#16
  skip := 0#16
  count := 0#16
  bcount := 0#16
  link := false
  intmaj := false
  en := false
  done := false

/-- An entry of PORT_LOG: (slot k, port, element e, value) (spec/10_state.md R44). -/
structure PortWrite where
  slot : Nat
  port : Port
  elem : Nat
  value : BitVec 16
  deriving DecidableEq, Repr

/-- The memory: (address, byte) pairs with addresses strictly rising and no byte 0, an unlisted address of
the five regions reading as 0, the reset content (spec/10_state.md R41, R45; log entry 11). -/
abbrev Memory := List Host.Cell

/-- An event the environment offers: a command word at the command port, an overflow of the timer, the
encoder's next word, or RESET (spec/00_scope.md R15, spec/30_encoding.md R100). -/
inductive Event where
  | command (word : CommandWord)
  | tick
  | encstep
  | reset
  deriving DecidableEq, Repr

/-- The state of the block. -/
structure State where
  /-- the configuration, a parameter of every rule (spec/10_state.md R20; log entry 1) -/
  cfg : Config
  /-- BRIGHT (R22) -/
  bright : BitVec 17
  /-- RESP (R23) -/
  resp : BitVec 32
  /-- ROWSEL, the low ADDR_WIDTH bits of it (R24; log entry 14) -/
  rowsel : BitVec 8
  /-- PIXBUS (R25) -/
  pixbus : BitVec 8
  /-- PERIOD (R26) -/
  period : BitVec 16
  /-- DUTY (R27) -/
  duty : BitVec 16
  /-- TIMER_RUN (R28) -/
  timerRun : Bool
  /-- PENDING (R28, R29) -/
  pending : Bool
  /-- ENC_BUSY (R28) -/
  encBusy : Bool
  /-- STARTED (R28) -/
  started : Bool
  /-- HALTED (R28) -/
  halted : Bool
  /-- IRQ (R28) -/
  irq : Bool
  /-- FRONT (R31) -/
  front : BufferId
  /-- PAGE, a number below PAGES (R32; log entry 14) -/
  page : Nat
  /-- SCAN_STATE (R34) -/
  scanState : ScanState
  /-- ENC_POS (R35) -/
  encPos : BitVec 32
  /-- ENC_BACK (R35) -/
  encBack : BufferId
  /-- desc[CH_ADDR] (R37, R38) -/
  descAddr : Desc
  /-- desc[CH_PIX0] (R37, R38) -/
  descPix0 : Desc
  /-- desc[CH_PIX1] (R37, R38) -/
  descPix1 : Desc
  /-- desc[CH_TMR] (R37, R38) -/
  descTmr : Desc
  /-- PIXBUF, ADDRTAB, TMRTAB, OUTBUF0 and OUTBUF1 (R41) -/
  mem : Memory
  /-- PORT_LOG, oldest first (R44; log entry 16) -/
  portLog : List PortWrite
  /-- the events still to come, next first (log entry 5) -/
  inputs : List Event
  deriving DecidableEq, Repr

/-! ### The reasons a step can stop -/

/-- Why a step has no move. Every one is a case to which the spec gives no step and which no run from reset
reaches; stopping is safe. -/
inductive Fault where
  /-- raised by a read or write of an address outside the five memory regions: "a model gives a read or
  write of an unmapped address no step" (spec/20_memory.md R61); safe -/
  | unmapped (addr : Nat)
  /-- raised by a two-byte access at an odd address: no step (spec/20_memory.md R63); safe -/
  | misaligned (addr : Nat)
  /-- raised by a PORT_TIMER write of an element past the second (spec/43_scan_controller.md R199,
  spec/93_implementation_defined.md U10); safe -/
  | reservedElement (elem : Nat)
  /-- raised by a minor loop with two-byte elements to a port other than PORT_TIMER
  (spec/93_implementation_defined.md U10); safe -/
  | reservedSize
  /-- raised by a minor loop of an enabled channel whose COUNT is 0: "COUNT never goes below 0"
  (spec/43_scan_controller.md R198); safe -/
  | countUnderflow
  /-- raised by an ENCSTEP whose ENC_POS is not below BUF_SIZE: no word of the buffer stands there
  (spec/10_state.md R35, spec/42_pixel_encoder.md R170); safe -/
  | encoderPosition
  deriving DecidableEq, Repr

/-- Why the model gives an instruction no meaning. -/
inductive Refusal where
  /-- raised by `exec` for an instruction without a meaning yet; safe. No arm raises it now. -/
  | notModelled (mnemonic : String)
  deriving DecidableEq, Repr

/-! ### Reset -/

/-- The state after RESET under configuration `c`: the table of spec/10_state.md R45. -/
def State.resetOf (c : Config) : State where
  cfg := c
  bright := BitVec.ofNat 17 c.brightOne
  resp := 0#32
  rowsel := BitVec.ofNat 8 c.idleCode
  pixbus := 0#8
  period := BitVec.ofNat 16 c.sentinelPeriod
  duty := 0#16
  timerRun := false
  pending := false
  encBusy := false
  started := false
  halted := false
  irq := false
  front := .buf0
  page := 0
  scanState := .stopped
  encPos := 0#32
  encBack := .buf1
  descAddr := Desc.zero
  descPix0 := Desc.zero
  descPix1 := Desc.zero
  descTmr := Desc.zero
  mem := []
  portLog := []
  inputs := []

/-- The machine right after reset, under the spec's reference configuration REF8 (log entry 2), with no
event offered yet (log entry 7). -/
def State.reset : State := State.resetOf Config.ref8

end Sys2Proof.Machine
end

