-- ==== Sys2Proof/Machine/Ops.lean ====
section
/-! DEFINITION. The operations the meanings share: the memory map and the memory (spec/20_memory.md R61 to
R63), the register window of the descriptors (spec/30_encoding.md R118), the output ports
(spec/43_scan_controller.md R199), the two events the block can raise and the return from the interrupt
(spec/60_exceptions.md R231, R232, R237, R238), and the acceptance of a command. -/

namespace Sys2Proof.Machine

/-- What a step answers. -/
abbrev Result := Host.Outcome State Fault Refusal

/-! ### Buffer identities, channels and descriptors -/

/-- `1 − b` (spec/10_state.md R31). -/
def BufferId.other : BufferId → BufferId
  | .buf0 => .buf1
  | .buf1 => .buf0

/-- OUTBUF(b) (spec/10_state.md R40). -/
def outbufBase (c : Config) : BufferId → Nat
  | .buf0 => c.outbuf0Base
  | .buf1 => c.outbuf1Base

/-- `desc[c]` (spec/10_state.md R37). -/
def State.desc (s : State) : Chan → Desc
  | .addr => s.descAddr
  | .pix0 => s.descPix0
  | .pix1 => s.descPix1
  | .tmr => s.descTmr

/-- `desc[c] <- d`. -/
def State.setDesc (s : State) (ch : Chan) (d : Desc) : State :=
  match ch with
  | .addr => { s with descAddr := d }
  | .pix0 => { s with descPix0 := d }
  | .pix1 => { s with descPix1 := d }
  | .tmr => { s with descTmr := d }

/-- SLOT = TABLE_LEN − desc[CH_ADDR].COUNT, the index of the next AddressTable entry to be moved
(spec/10_state.md R33). -/
def State.slot (s : State) : Nat := s.cfg.tableLen - s.descAddr.count.toNat

/-- Bytes of an element, `size` of spec/43_scan_controller.md R198. -/
def ElemSize.bytes : ElemSize → Nat
  | .one => 1
  | .two => 2

/-! ### The packed descriptor image (spec/30_encoding.md R118), a view no agent reads -/

/-- The number of a port (spec/30_encoding.md R116). -/
def Port.number : Port → BitVec 2
  | .addr => 0#2
  | .pixbus => 1#2
  | .timer => 2#2

/-- ESIZE as a bit (spec/10_state.md R38). -/
def ElemSize.bit : ElemSize → BitVec 1
  | .one => 0#1
  | .two => 1#1

/-- The four 32-bit words of a descriptor's image. -/
def Desc.packed (d : Desc) : List (BitVec 32) :=
  [d.src, d.nelem ++ d.skip, d.count ++ d.bcount,
    0#25 ++ BitVec.ofBool d.done ++ BitVec.ofBool d.en ++ BitVec.ofBool d.intmaj ++ BitVec.ofBool d.link
      ++ d.esize.bit ++ d.dst.number]

/-- The number of a channel (spec/30_encoding.md R117, spec/10_state.md R37). -/
def Chan.number : Chan → Nat
  | .addr => 0
  | .pix0 => 1
  | .pix1 => 2
  | .tmr => 3

/-- The channel of a number; there are four. -/
def Chan.ofNumber : Nat → Option Chan
  | 0 => some .addr
  | 1 => some .pix0
  | 2 => some .pix1
  | 3 => some .tmr
  | _ => none

/-- Byte `j` of a descriptor's image: its four words follow each other, each little-endian. -/
def Desc.imageByte (d : Desc) (j : Nat) : Byte := (d.packed.getD (j / 4) 0#32).extractLsb' (8 * (j % 4)) 8

/-- The byte the register window shows at address `a`: the image of channel `c` stands at DESC_BASE + 16c, and
the window holds nothing else. -/
def State.descWindowByte (s : State) (a : Nat) : Option Byte :=
  if s.cfg.descBase ≤ a then
    (Chan.ofNumber ((a - s.cfg.descBase) / 16)).map fun ch => (s.desc ch).imageByte ((a - s.cfg.descBase) % 16)
  else none

/-- The 32-bit little-endian word the register window shows at address `a`. -/
def State.descWindowWord (s : State) (a : Nat) : Option Word :=
  match s.descWindowByte a, s.descWindowByte (a + 1), s.descWindowByte (a + 2), s.descWindowByte (a + 3) with
  | some b0, some b1, some b2, some b3 => some (b3 ++ b2 ++ b1 ++ b0)
  | _, _, _, _ => none

/-! ### The memory map (spec/20_memory.md R61) -/

/-- Address `a` lies in the region of `size` bytes at `base`. -/
def inRegion (base size a : Nat) : Bool := decide (base ≤ a) && decide (a < base + size)

/-- Address `a` lies in one of the five memory regions. The descriptor window is not memory: it is "not
reachable by MemRead or MemWrite from any agent of the block". -/
def mapped (c : Config) (a : Nat) : Bool :=
  inRegion c.pixbufBase c.pixbufSize a || inRegion c.addrtabBase c.tableLen a
    || inRegion c.tmrtabBase (4 * c.tableLen) a || inRegion c.outbuf0Base c.bufSize a
    || inRegion c.outbuf1Base c.bufSize a

/-! ### The memory -/

/-- What an address nothing has written reads as: 0, the reset content (spec/10_state.md R41, R45). -/
def unwritten : Byte := 0#8

/-- The byte at address `a`. -/
def Memory.readByte : Memory → Nat → Byte
  | [], _ => unwritten
  | (x, y) :: rest, a => if a < x then unwritten else if a = x then y else Memory.readByte rest a

/-- The 16-bit little-endian value at address `a` (spec/20_memory.md R62). -/
def Memory.readHalf (m : Memory) (a : Nat) : Half := m.readByte (a + 1) ++ m.readByte a

/-- Store a byte, keeping the canonical form: an entry that would read as `unwritten` is removed. -/
def Memory.writeByte : Memory → Nat → Byte → Memory
  | [], a, b => if b = unwritten then [] else [(a, b)]
  | (x, y) :: rest, a, b =>
    if a < x then (if b = unwritten then (x, y) :: rest else (a, b) :: (x, y) :: rest)
    else if a = x then (if b = unwritten then rest else (a, b) :: rest)
    else (x, y) :: Memory.writeByte rest a b

/-- The canonical form: addresses strictly rising, no entry equal to what an unlisted address reads as. -/
def Memory.wf (m : Memory) : Bool :=
  decide (m.Pairwise fun a b => a.1 < b.1) && m.all fun cell => decide (cell.2 ≠ unwritten)

/-- `MemRead(addr, n)`, little-endian, n = 1 or 2 (spec/20_memory.md R62); no step at an unmapped (R61) or
misaligned (R63) address. -/
def memRead (c : Config) (m : Memory) (a : Nat) : ElemSize → Except Fault (BitVec 16)
  | .one => if mapped c a then .ok ((m.readByte a).setWidth 16) else .error (.unmapped a)
  | .two =>
    if a % 2 ≠ 0 then .error (.misaligned a)
    else if mapped c a && mapped c (a + 1) then .ok (m.readHalf a)
    else .error (.unmapped a)

/-- `MemWrite(addr, n, v)`: byte j of v, `v[8j+7:8j]`, at addr + j (spec/20_memory.md R62); no step at an
unmapped (R61) or misaligned (R63) address. -/
def memWrite (c : Config) (m : Memory) (a : Nat) (v : BitVec 16) : ElemSize → Except Fault Memory
  | .one => if mapped c a then .ok (m.writeByte a (v.extractLsb' 0 8)) else .error (.unmapped a)
  | .two =>
    if a % 2 ≠ 0 then .error (.misaligned a)
    else if mapped c a && mapped c (a + 1) then
      .ok ((m.writeByte a (v.extractLsb' 0 8)).writeByte (a + 1) (v.extractLsb' 8 8))
    else .error (.unmapped a)

/-- One `MemWrite(addr, n, v)` of a sequence. -/
structure Store where
  addr : Nat
  size : ElemSize
  value : BitVec 16
  deriving DecidableEq, Repr

/-- A sequence of `MemWrite`s, in order; one step makes them all or none (spec/20_memory.md R65). -/
def storeAll (c : Config) (m : Memory) : List Store → Except Fault Memory
  | [] => .ok m
  | st :: rest =>
    match memWrite c m st.addr st.value st.size with
    | .ok m' => storeAll c m' rest
    | .error f => .error f

/-- Go on with the memory a store left, or stop with its fault. -/
def withMemory (r : Except Fault Memory) (update : Memory → State) : Result :=
  match r with
  | .ok m => .next (update m)
  | .error f => .fault f

/-! ### The output ports (spec/43_scan_controller.md R199) -/

/-- The part of `PortWrite(port, e, v)` that changes an output register. -/
def portRegister (port : Port) (e : Nat) (v : BitVec 16) (s : State) : Except Fault State :=
  match port with
  | .addr => .ok { s with rowsel := BitVec.ofNat 8 (v.toNat % 2 ^ s.cfg.addrWidth) }
  | .pixbus => .ok { s with pixbus := v.extractLsb' 0 8 }
  | .timer =>
    if e = 0 then .ok { s with period := v }
    else if e = 1 then .ok { s with duty := v }
    else .error (.reservedElement e)

/-- `PortWrite(port, e, v)` in the TICK that found SLOT = k: the register, and the entry of PORT_LOG
(spec/10_state.md R44). -/
def portWrite (k : Nat) (port : Port) (e : Nat) (v : BitVec 16) (s : State) : Except Fault State :=
  match portRegister port e v s with
  | .ok s' => .ok { s' with portLog := s'.portLog ++ [⟨k, port, e, v⟩] }
  | .error f => .error f

/-! ### The events the block raises, and the return (spec/60_exceptions.md) -/

/-- `raise HALT`: HALTED <- 1 and nothing else (R231; spec/43_scan_controller.md R192). -/
def raiseHalt (s : State) : State := { s with halted := true }

/-- `raise IRQ`: IRQ <- 1; nothing is saved and no mode changes (R232, R237). -/
def raiseIrq (s : State) : State := { s with irq := true }

/-- The scan waits for REFRESH (spec/43_scan_controller.md R200, R201). -/
def enterWait (s : State) : State := { s with scanState := .waitRefresh }

/-- The return from the interrupt: IRQ <- 0, SCAN_STATE <- RUN; nothing is restored because nothing was
saved (R238). BEGIN starts the scan with the same two writes (spec/43_scan_controller.md R191). -/
def resumeScan (s : State) : State := { s with irq := false, scanState := .run }

/-! ### Accepting a command -/

/-- A command that is accepted by the port and changes no state (spec/00_scope.md R19). -/
def dropped (s : State) : Result := .next s

/-- While HALTED = 1 every command is dropped (spec/60_exceptions.md R231, R246). -/
def accept (s : State) (effect : Result) : Result := if s.halted then dropped s else effect

end Sys2Proof.Machine
end

