-- ==== Sys2Proof/Machine/Flags.lean ====
section
/-! DEFINITION. The flag updates that are not the raising of an event (spec/10_state.md R28): the start and
the completion of a publish (spec/42_pixel_encoder.md R168, R170), the start of the scan
(spec/43_scan_controller.md R191), the swap check of REFRESH (R204). The block has no arithmetic condition
codes. IRQ and HALTED are raised in Machine/Ops.lean. -/

namespace Sys2Proof.Machine

/-- SHOW start: `PENDING <- 0; ENC_BACK <- 1 − FRONT; ENC_POS <- 0; ENC_BUSY <- 1`
(spec/42_pixel_encoder.md R168). -/
def startPublish (s : State) : State :=
  { s with pending := false, encBack := s.front.other, encPos := 0#32, encBusy := true }

/-- Completion of a publish: `PENDING <- 1; ENC_BUSY <- 0` (spec/42_pixel_encoder.md R170). -/
def completePublish (s : State) : State := { s with pending := true, encBusy := false }

/-- The scan is started: `TIMER_RUN <- 1; STARTED <- 1` (spec/43_scan_controller.md R191). -/
def startTimer (s : State) : State := { s with timerRun := true, started := true }

/-- The swap check: `if PENDING = 1: FRONT <- 1 − FRONT; PENDING <- 0` (spec/43_scan_controller.md R204). -/
def swapIfPending (s : State) : State :=
  if s.pending then { s with front := s.front.other, pending := false } else s

end Sys2Proof.Machine
end

