-- ==== Sys2Proof/Machine/Operands.lean ====
section
/-! DEFINITION. Operand assembly (spec/30_encoding.md R95) and the range checks of the operands (R99): the
brightness operand, the pixel address, the window offset. -/

namespace Sys2Proof.Machine

/-- `clamp(x, 0, hi)` on a signed x (spec/00_scope.md R13). -/
def clampToNat (x : Int) (hi : Nat) : Nat := if x < 0 then 0 else if (hi : Int) < x then hi else x.toNat

/-- The value SETBRIGHT stores: `clamp(sext_32(RAW), 0, BRIGHT_ONE)` (spec/41_timer_table.md R146). -/
def brightOperand (c : Config) (raw : BitVec 32) : BitVec 17 :=
  BitVec.ofNat 17 (clampToNat raw.toInt c.brightOne)

/-- `COL < COLUMNS and ROW < ROWS` (spec/42_pixel_encoder.md R163). -/
def pixelInRange (c : Config) (col row : BitVec 8) : Bool :=
  decide (col.toNat < c.columns) && decide (row.toNat < c.rows)

/-- The byte offset of the pixel at a column and a row, `3 × (r × COLUMNS + c)` (spec/30_encoding.md R104). -/
def pixelOffset (c : Config) (col row : Nat) : Nat := 3 * (row * c.columns + col)

/-- The address SETPIX stores its first byte to. -/
def pixelAddr (c : Config) (col row : BitVec 8) : Nat :=
  c.pixbufBase + pixelOffset c col.toNat row.toNat

/-- `OFF < 3 × ROWS × COLUMNS`: the offset lies in the host window (spec/20_memory.md R76). -/
def offsetInRange (c : Config) (off : BitVec 24) : Bool := decide (off.toNat < c.pixbufSize)

/-- The address of MEMWR and MEMRD: `PIXBUF_BASE + OFF`, OFF not scaled (spec/30_encoding.md R95). -/
def windowAddr (c : Config) (off : BitVec 24) : Nat := c.pixbufBase + off.toNat

end Sys2Proof.Machine
end

