-- ==== Sys2Proof/Machine/PixelWord.lean ====
section
/-! DEFINITION. The word of the output bitstream at a buffer position (spec/30_encoding.md R107 to R115):
positions, drive codes, dithered bits, lanes, the clock. -/

namespace Sys2Proof.Machine

/-! ### Positions (spec/30_encoding.md R107) -/

/-- `pos(p, r, i, w)`. -/
def bufferPos (c : Config) (p r i w : Nat) : Nat :=
  p * c.panelDepthSize + (r * c.pwmBits + i) * c.writesPerColumn + w

/-- The page of a position. -/
def posPage (c : Config) (pos : Nat) : Nat := pos / c.panelDepthSize

/-- The slot k of a position. -/
def posSlot (c : Config) (pos : Nat) : Nat := pos % c.panelDepthSize / c.writesPerColumn

/-- The word index w of a position in its chunk. -/
def posWord (c : Config) (pos : Nat) : Nat := pos % c.panelDepthSize % c.writesPerColumn

/-- The row r of a position. -/
def posRow (c : Config) (pos : Nat) : Nat := posSlot c pos / c.pwmBits

/-- The bit-plane i of a position. -/
def posPlane (c : Config) (pos : Nat) : Nat := posSlot c pos % c.pwmBits

/-! ### Drive codes and dithering (spec/30_encoding.md R113, R114) -/

/-- D = DRIVE_MAP(v). -/
def driveCode (c : Config) (v : Byte) : Nat := c.driveCodes.getD v.toNat 0

/-- hi(D) = D >> PWM_BITS. -/
def driveHi (c : Config) (v : Byte) : Nat := driveCode c v >>> c.pwmBits

/-- lo(D) = D mod 2^PWM_BITS. -/
def driveLo (c : Config) (v : Byte) : Nat := driveCode c v % 2 ^ c.pwmBits

/-- PAGE_RANK(p). -/
def pageRank (c : Config) (p : Nat) : Nat := c.pageRanks.getD p 0

/-- PBIT(v, p, i). -/
def pbit (c : Config) (v : Byte) (p i : Nat) : Bool :=
  if pageRank c p < driveHi c v then true
  else if pageRank c p = driveHi c v then (driveLo c v).testBit i
  else false

/-- V(v, p), the PWM_BITS-bit value page p shows. -/
def pageValue (c : Config) (v : Byte) (p : Nat) : Nat :=
  if pageRank c p < driveHi c v then 2 ^ c.pwmBits - 1
  else if pageRank c p = driveHi c v then driveLo c v
  else 0

/-! ### The bus word (spec/30_encoding.md R110 to R112, R115) -/

/-- LANE_MAP(g, l). -/
def laneOf (c : Config) (g l : Nat) : Lane := c.laneMap.getD (g * c.bitsPerWrite + l) .pad

/-- The bit a lane carries for row r, page p, bit-plane i; `pix o` is the byte at PIXBUF_BASE + o. -/
def laneBit (c : Config) (pix : Nat → Byte) (r p i : Nat) : Lane → Bool
  | .pad => false
  | .led col ch => pbit c (pix (pixelOffset c col r + ch.index)) p i

/-- `Σ_{l < n} bit(l) << l`. -/
def lanesValue (bit : Nat → Bool) : Nat → Nat
  | 0 => 0
  | n + 1 => lanesValue bit n + ((bit n).toNat <<< n)

/-- `clk(f)`: 1 in the last clock phase (spec/30_encoding.md R111). -/
def clockBit (c : Config) (f : Nat) : Bool := decide (f = c.clkPhases - 1)

/-- WORD(pix, pos) (spec/30_encoding.md R115). -/
def busWord (c : Config) (pix : Nat → Byte) (pos : Nat) : Byte :=
  let g := posWord c pos / c.clkPhases
  let f := posWord c pos % c.clkPhases
  let lanes := lanesValue
    (fun l => laneBit c pix (posRow c pos) (posPage c pos) (posPlane c pos) (laneOf c g l)) c.bitsPerWrite
  BitVec.ofNat 8 (lanes ||| ((clockBit c f).toNat <<< c.bitsPerWrite))

/-- The pixel bytes of a memory, by offset from PIXBUF_BASE. -/
def pixels (c : Config) (m : Memory) (o : Nat) : Byte := m.readByte (c.pixbufBase + o)

end Sys2Proof.Machine
end

