-- ==== Sys2Proof/Machine/PixelEncoder.lean ====
section
/-! DEFINITION. PixelEncoder (spec/42_pixel_encoder.md): the commands SETPIX, GETPIXELS, MEMWR, MEMRD and
SHOW, and the internal event ENCSTEP. -/

namespace Sys2Proof.Machine

/-- The three writes of SETPIX (spec/42_pixel_encoder.md R163). -/
def pixelStores (c : Config) (col row r g b : BitVec 8) : List Store :=
  [⟨pixelAddr c col row, .one, r.setWidth 16⟩, ⟨pixelAddr c col row + 1, .one, g.setWidth 16⟩,
    ⟨pixelAddr c col row + 2, .one, b.setWidth 16⟩]

/-- SETPIX COL, ROW, R, G, B: the pixel's three bytes, or dropped when out of range
(spec/42_pixel_encoder.md R163). Performed also while a publish is encoding (R171). -/
def execSetpix (col row r g b : BitVec 8) (s : State) : Result :=
  accept s <|
    if pixelInRange s.cfg col row then
      withMemory (storeAll s.cfg s.mem (pixelStores s.cfg col row r g b)) fun m => { s with mem := m }
    else dropped s

/-- GETPIXELS: `RESP <- PIXBUF_BASE` (spec/42_pixel_encoder.md R164). -/
def execGetpixels (s : State) : Result :=
  accept s (.next { s with resp := BitVec.ofNat 32 s.cfg.pixbufBase })

/-- MEMWR OFF, VAL: one byte of PIXBUF, or dropped when out of range (spec/42_pixel_encoder.md R165). -/
def execMemwr (off : BitVec 24) (val : BitVec 8) (s : State) : Result :=
  accept s <|
    if offsetInRange s.cfg off then
      withMemory (memWrite s.cfg s.mem (windowAddr s.cfg off) (val.setWidth 16) .one) fun m =>
        { s with mem := m }
    else dropped s

/-- MEMRD OFF: `RESP <- zext_32(MemRead(PIXBUF_BASE + OFF, 1))`, or dropped with RESP unchanged when out of
range (spec/42_pixel_encoder.md R166). A VAL that is not 0 makes the word invalid, and an invalid word is
dropped (spec/30_encoding.md R98). -/
def execMemrd (off : BitVec 24) (val : BitVec 8) (s : State) : Result :=
  accept s <|
    if val = 0#8 then
      if offsetInRange s.cfg off then
        match memRead s.cfg s.mem (windowAddr s.cfg off) .one with
        | .ok v => .next { s with resp := v.setWidth 32 }
        | .error f => .fault f
      else dropped s
    else dropped s

/-- SHOW: start a publish, or dropped while one is encoding (spec/42_pixel_encoder.md R168, R172). -/
def execShowStart (s : State) : Result :=
  accept s (if s.encBusy then dropped s else .next (startPublish s))

/-- Where ENCSTEP writes: OUTBUF(ENC_BACK) + ENC_POS (spec/42_pixel_encoder.md R169). -/
def encoderAddr (s : State) : Nat := outbufBase s.cfg s.encBack + s.encPos.toNat

/-- What ENCSTEP writes: WORD of the live PIXBUF at ENC_POS (spec/42_pixel_encoder.md R169). -/
def encoderWord (s : State) : Byte := busWord s.cfg (pixels s.cfg s.mem) s.encPos.toNat

/-- ENC_POS has moved on; at BUF_SIZE the publish is complete (spec/42_pixel_encoder.md R169, R170). -/
def advanceEncoder (s : State) : State :=
  let s' := { s with encPos := s.encPos + 1#32 }
  if s'.encPos.toNat = s.cfg.bufSize then completePublish s' else s'

/-- ENCSTEP, enabled when ENC_BUSY = 1: one word of the back buffer (spec/42_pixel_encoder.md R169). -/
def encStep (s : State) : Result :=
  if s.encPos.toNat < s.cfg.bufSize then
    withMemory (memWrite s.cfg s.mem (encoderAddr s) ((encoderWord s).setWidth 16) .one) fun m =>
      advanceEncoder { s with mem := m }
  else .fault .encoderPosition

end Sys2Proof.Machine
end

