-- ==== Sys2Proof/Machine/AddressTable.lean ====
section
/-! DEFINITION. AddressTableBuilder (spec/40_address_table.md): the entries of the table and BUILD_ADDR. -/

namespace Sys2Proof.Machine

/-- ROW_CODE(r) (spec/00_scope.md R10); a valid configuration has a code for every row. -/
def rowCode (c : Config) (r : Nat) : Nat := c.rowCodes.getD r 0

/-- The AddressTable entry of slot k: ROW_CODE(k div PWM_BITS), or IDLE_CODE in the sentinel slot
(spec/30_encoding.md R105). -/
def addrEntry (c : Config) (k : Nat) : Nat :=
  if k < c.nSlots then rowCode c (k / c.pwmBits) else c.idleCode

/-- The writes of BUILD_ADDR, in the order of its pseudocode (spec/40_address_table.md R133). -/
def addrStores (c : Config) : List Store :=
  (List.range c.tableLen).map fun k => ⟨c.addrtabBase + k, .one, BitVec.ofNat 16 (addrEntry c k)⟩

/-- BUILD_ADDR (spec/40_address_table.md R133). -/
def buildAddr (c : Config) (m : Memory) : Except Fault Memory := storeAll c m (addrStores c)

end Sys2Proof.Machine
end

