-- ==== Sys2Proof/Machine/TimerTable.lean ====
section
/-! DEFINITION. TimerTableBuilder (spec/41_timer_table.md): the entries of the table, BUILD_TMR, and the
commands SETBRIGHT and GETBRIGHT. -/

namespace Sys2Proof.Machine

/-- UNIT_B = (UNIT_TIME × BRIGHT) div BRIGHT_ONE, rounded down once (spec/41_timer_table.md R142, R143). -/
def unitB (c : Config) (bright : Nat) : Nat := c.unitTime * bright / c.brightOne

/-- period[k] (spec/41_timer_table.md R142, R150). -/
def periodEntry (c : Config) (k : Nat) : Nat :=
  if k < c.nSlots then c.unitTime <<< (k % c.pwmBits) else c.sentinelPeriod

/-- duty[k] (spec/41_timer_table.md R142, R150). -/
def dutyEntry (c : Config) (bright k : Nat) : Nat :=
  if k < c.nSlots then unitB c bright <<< (k % c.pwmBits) else 0

/-- The writes of BUILD_TMR, in the order of its pseudocode (spec/41_timer_table.md R142). -/
def tmrStores (c : Config) (bright : Nat) : List Store :=
  (List.range c.tableLen).flatMap fun k =>
    [⟨c.tmrtabBase + 4 * k, .two, BitVec.ofNat 16 (periodEntry c k)⟩,
      ⟨c.tmrtabBase + 4 * k + 2, .two, BitVec.ofNat 16 (dutyEntry c bright k)⟩]

/-- BUILD_TMR with the brightness `bright` (spec/41_timer_table.md R142). -/
def buildTmr (c : Config) (bright : Nat) (m : Memory) : Except Fault Memory :=
  storeAll c m (tmrStores c bright)

/-- SETBRIGHT RAW: store the clamped brightness and rebuild the TimerTable in the same step
(spec/41_timer_table.md R146). -/
def execSetbright (raw : BitVec 32) (s : State) : Result :=
  let bright := brightOperand s.cfg raw
  accept s (withMemory (buildTmr s.cfg bright.toNat s.mem) fun m => { s with bright := bright, mem := m })

/-- GETBRIGHT: `RESP <- zext_32(BRIGHT)` (spec/41_timer_table.md R147). -/
def execGetbright (s : State) : Result := accept s (.next { s with resp := s.bright.setWidth 32 })

end Sys2Proof.Machine
end

