-- ==== Sys2Proof/Machine/ScanController.lean ====
section
/-! DEFINITION. ScanController (spec/43_scan_controller.md): the arm operation, the commands BEGIN and
REFRESH, the minor loop of a channel and the internal event TICK. -/

namespace Sys2Proof.Machine

/-! ### ARM (spec/43_scan_controller.md R195) -/

/-- The SRC a pixel channel is armed with: the page's first word in buffer b. -/
def pageBase (c : Config) (b : BufferId) (p : Nat) : Nat := outbufBase c b + p * c.panelDepthSize

/-- The descriptor ARM(b, p) loads into each channel: the table of R195. -/
def armedDesc (c : Config) (b : BufferId) (p : Nat) : Chan → Desc
  | .addr =>
    { src := BitVec.ofNat 32 c.addrtabBase, dst := .addr, esize := .one, nelem := 1#16, skip := 0#16,
      count := BitVec.ofNat 16 c.tableLen, bcount := BitVec.ofNat 16 c.tableLen,
      link := false, intmaj := true, en := true, done := false }
  | .pix0 =>
    { src := BitVec.ofNat 32 (pageBase c b p), dst := .pixbus, esize := .one,
      nelem := BitVec.ofNat 16 c.half, skip := BitVec.ofNat 16 c.half,
      count := BitVec.ofNat 16 c.nSlots, bcount := BitVec.ofNat 16 c.nSlots,
      link := false, intmaj := false, en := true, done := false }
  | .pix1 =>
    { src := BitVec.ofNat 32 (pageBase c b p + c.half), dst := .pixbus, esize := .one,
      nelem := BitVec.ofNat 16 c.half, skip := BitVec.ofNat 16 c.half,
      count := BitVec.ofNat 16 c.nSlots, bcount := BitVec.ofNat 16 c.nSlots,
      link := true, intmaj := false, en := true, done := false }
  | .tmr =>
    { src := BitVec.ofNat 32 c.tmrtabBase, dst := .timer, esize := .two, nelem := 2#16, skip := 0#16,
      count := BitVec.ofNat 16 c.tableLen, bcount := BitVec.ofNat 16 c.tableLen,
      link := false, intmaj := false, en := true, done := false }

/-- ARM(b, p): all four descriptors at once. -/
def arm (b : BufferId) (p : Nat) (s : State) : State :=
  { s with
    descAddr := armedDesc s.cfg b p .addr
    descPix0 := armedDesc s.cfg b p .pix0
    descPix1 := armedDesc s.cfg b p .pix1
    descTmr := armedDesc s.cfg b p .tmr }

/-! ### BEGIN (spec/43_scan_controller.md R191 to R193) -/

/-- BUILD_ADDR then BUILD_TMR with the BRIGHT stored now. -/
def buildTables (s : State) : Except Fault Memory :=
  match buildAddr s.cfg s.mem with
  | .ok m => buildTmr s.cfg s.bright.toNat m
  | .error f => .error f

/-- The registers BEGIN writes, over the memory with both tables built (R191). -/
def startScan (m : Memory) (s : State) : State :=
  startTimer (resumeScan (arm .buf0 0 { s with mem := m, front := .buf0, page := 0 }))

/-- BEGIN: start the scan once (R191, R193), or raise HALT when resources are unavailable (R192). -/
def execBegin (s : State) : Result :=
  accept s <|
    if s.started then dropped s
    else if s.cfg.resOk then withMemory (buildTables s) fun m => startScan m s
    else .next (raiseHalt s)

/-! ### REFRESH (spec/43_scan_controller.md R204, R205) -/

/-- `PAGE <- (PAGE + 1) mod PAGES`. -/
def advancePage (s : State) : State := { s with page := (s.page + 1) % s.cfg.pages }

/-- `ARM(FRONT, PAGE)` with the present FRONT and PAGE. -/
def rearm (s : State) : State := arm s.front s.page s

/-- REFRESH: the swap check, the next page, re-arm and resume (R204); dropped outside WAIT_REFRESH (R205). -/
def execRefresh (s : State) : Result :=
  accept s <|
    if s.scanState = .waitRefresh then .next (resumeScan (rearm (advancePage (swapIfPending s))))
    else dropped s

/-! ### MINOR (spec/43_scan_controller.md R198) -/

/-- The address of element e, `SRC + e × size`, modulo 2^32. -/
def elementAddr (d : Desc) (e : Nat) : Nat := (d.src + BitVec.ofNat 32 (e * d.esize.bytes)).toNat

/-- Move `n` elements from element number e on, in the TICK that found SLOT = k. -/
def moveElements (k : Nat) (d : Desc) : Nat → Nat → State → Except Fault State
  | 0, _, s => .ok s
  | n + 1, e, s =>
    match memRead s.cfg s.mem (elementAddr d e) d.esize with
    | .ok v =>
      match portWrite k d.dst e v s with
      | .ok s' => moveElements k d n (e + 1) s'
      | .error f => .error f
    | .error f => .error f

/-- The descriptor after a minor loop. -/
def Desc.afterMinor (d : Desc) : Desc :=
  let d' := { d with
    src := d.src + BitVec.ofNat 32 (d.nelem.toNat * d.esize.bytes + d.skip.toNat)
    count := d.count - 1#16 }
  if d'.count = 0#16 then { d' with done := true, en := false } else d'

/-- The end of a minor loop: the descriptor, and IRQ when the major loop of a channel with INTMAJ is
complete. -/
def finishMinor (ch : Chan) (d : Desc) (s : State) : State :=
  let s' := s.setDesc ch d.afterMinor
  if d.afterMinor.count = 0#16 && d.intmaj then raiseIrq s' else s'

/-- Two-byte elements go to PORT_TIMER only (spec/93_implementation_defined.md U10). -/
def Desc.sizeReserved (d : Desc) : Bool := decide (d.esize = .two) && decide (d.dst ≠ .timer)

/-- MINOR(c), in the TICK that found SLOT = k; it does nothing when EN = 0. -/
def minor (k : Nat) (ch : Chan) (s : State) : Except Fault State :=
  let d := s.desc ch
  if d.en then
    if d.count = 0#16 then .error .countUnderflow
    else if d.sizeReserved then .error .reservedSize
    else
      match moveElements k d d.nelem.toNat 0 s with
      | .ok s' => .ok (finishMinor ch d s')
      | .error f => .error f
  else .ok s

/-! ### TICK (spec/43_scan_controller.md R200 to R202) -/

/-- The four minor loops of one slot, in the order CH_ADDR, CH_TMR, CH_PIX0, CH_PIX1 (R200). -/
def scanSlot (k : Nat) (s : State) : Except Fault State :=
  match minor k .addr s with
  | .error f => .error f
  | .ok s1 =>
    match minor k .tmr s1 with
    | .error f => .error f
    | .ok s2 =>
      match minor k .pix0 s2 with
      | .error f => .error f
      | .ok s3 => minor k .pix1 s3

/-- TICK: one slot of the scan in RUN (R200, R201), nothing in WAIT_REFRESH (R202). -/
def tick (s : State) : Result :=
  if s.timerRun && decide (s.scanState = .run) then
    match scanSlot s.slot s with
    | .ok s' => .next (if s'.descAddr.done then enterWait s' else s')
    | .error f => .fault f
  else .next s

end Sys2Proof.Machine
end

