-- ==== Sys2Proof/Machine/Dispatch.lean ====
section
/-! DEFINITION. exec: the meaning of each command, one arm per constructor of Instr. -/

namespace Sys2Proof.Machine

def exec (i : Instr) (s : State) : Host.Outcome State Fault Refusal :=
  match i with
  | .begin => Sys2Proof.Machine.execBegin s
  | .setbright raw => Sys2Proof.Machine.execSetbright raw s
  | .getbright => Sys2Proof.Machine.execGetbright s
  | .setpix col row r g b => Sys2Proof.Machine.execSetpix col row r g b s
  | .getpixels => Sys2Proof.Machine.execGetpixels s
  | .showStart => Sys2Proof.Machine.execShowStart s
  | .refresh => Sys2Proof.Machine.execRefresh s
  | .memwr off val => Sys2Proof.Machine.execMemwr off val s
  | .memrd off val => Sys2Proof.Machine.execMemrd off val s

end Sys2Proof.Machine
end

