-- ==== Sys2Proof/Machine/Events.lean ====
section
/-! DEFINITION. The steps of the block (spec/00_scope.md R15, spec/30_encoding.md R100): a command word at
the port, TICK, ENCSTEP and RESET, each with its enabling condition (spec/60_exceptions.md R246). -/

namespace Sys2Proof.Machine

/-- The port accepts a word: the command it decodes to, or dropped when it is invalid
(spec/30_encoding.md R90, R98). -/
def acceptWord (word : CommandWord) (s : State) : Result :=
  match decode word with
  | .ok i => exec i s
  | .error _ => dropped s

/-- RESET: every piece of state takes its reset value, whatever it was (spec/70_reset_and_hazards.md R260).
The configuration is not state and the environment's further events are not the block's. -/
def resetStep (s : State) : State := { State.resetOf s.cfg with inputs := s.inputs }

/-- Which events may happen in a state (spec/60_exceptions.md R246). -/
def Event.enabled (e : Event) (s : State) : Bool :=
  match e with
  | .command _ => true
  | .tick => s.timerRun
  | .encstep => s.encBusy
  | .reset => true

/-- An event happens. One that is offered while it is not enabled does not occur and leaves the state as it
is (log entry 6). -/
def perform (e : Event) (s : State) : Result :=
  if e.enabled s then
    match e with
    | .command word => acceptWord word s
    | .tick => tick s
    | .encstep => encStep s
    | .reset => .next (resetStep s)
  else .next s

end Sys2Proof.Machine
end

