-- ==== Sys2Proof/Safety.lean ====
section
/-! DEFINITION. The terms claims are stated in: when a command is effective (spec/60_exceptions.md R246),
what the descriptors and the port log are k slots into a pass (spec/10_state.md R40,
spec/43_scan_controller.md R200, R203), the regions of the memory, the invariant of the reachable states, and
what counts as a safe run. -/

namespace Sys2Proof.Machine

/-! ### Effective commands (spec/60_exceptions.md R246) -/

/-- The command is not dropped in this state: the third column of the table of R246. -/
def effective (i : Instr) (s : State) : Bool :=
  !s.halted &&
    match i with
    | .begin => !s.started
    | .setbright _ => true
    | .getbright => true
    | .setpix col row _ _ _ => pixelInRange s.cfg col row
    | .getpixels => true
    | .showStart => !s.encBusy
    | .refresh => decide (s.scanState = .waitRefresh)
    | .memwr off _ => offsetInRange s.cfg off
    | .memrd off val => decide (val = 0#8) && offsetInRange s.cfg off

/-- The words R98 lists as invalid (spec/30_encoding.md): OP = 0x00, OP in 0x0A to 0xFF, a zero field that is
not all 0, MEMRD with VAL ≠ 0. -/
def reservedWord (word : CommandWord) : Bool :=
  decide (opField word = 0x00#8) || decide (0x0A ≤ (opField word).toNat)
    || ([0x01#8, 0x03#8, 0x05#8, 0x06#8, 0x07#8].contains (opField word) && decide (zeroFieldN word ≠ 0#56))
    || ([0x02#8, 0x08#8, 0x09#8].contains (opField word) && decide (zeroFieldBM word ≠ 0#24))
    || (decide (opField word = 0x04#8) && decide (zeroFieldP word ≠ 0#16))
    || (decide (opField word = 0x09#8) && decide (valField word ≠ 0#8))

/-- A word that carries a command which writes PIXBUF. -/
def carriesPixelWrite (word : CommandWord) : Bool :=
  match decode word with
  | .ok (.setpix _ _ _ _ _) => true
  | .ok (.memwr _ _) => true
  | _ => false

/-- A word that carries the given command. -/
def carries (word : CommandWord) (i : Instr) : Bool :=
  match decode word with
  | .ok j => decide (j = i)
  | .error _ => false

/-- A word that carries some SETBRIGHT. -/
def carriesSetbright (word : CommandWord) : Bool :=
  match decode word with
  | .ok (.setbright _) => true
  | _ => false

/-- An event that writes PIXBUF, if it is effective. -/
def Event.writesPixels : Event → Bool
  | .command word => carriesPixelWrite word
  | _ => false

/-- A word that carries a command which answers in RESP (spec/10_state.md R23). -/
def carriesQuery (word : CommandWord) : Bool :=
  match decode word with
  | .ok .getbright => true
  | .ok .getpixels => true
  | .ok (.memrd _ _) => true
  | _ => false

/-! ### Regions (spec/20_memory.md R61) -/

def inPixbuf (c : Config) (a : Nat) : Bool := inRegion c.pixbufBase c.pixbufSize a
def inAddrtab (c : Config) (a : Nat) : Bool := inRegion c.addrtabBase c.tableLen a
def inTmrtab (c : Config) (a : Nat) : Bool := inRegion c.tmrtabBase (4 * c.tableLen) a
def inOutbuf (c : Config) (b : BufferId) (a : Nat) : Bool := inRegion (outbufBase c b) c.bufSize a

/-! ### A pass, slot by slot -/

/-- The descriptor of a channel k slots after ARM(b, p) (spec/10_state.md R40): the source has moved on by one
slot's bytes k times, k minor loops fewer remain, and a channel with none left is disabled and done. -/
def scanDesc (c : Config) (b : BufferId) (p k : Nat) : Chan → Desc
  | .addr =>
    { armedDesc c b p .addr with
      src := BitVec.ofNat 32 (c.addrtabBase + k), count := BitVec.ofNat 16 (c.tableLen - k)
      en := decide (k < c.tableLen), done := decide (c.tableLen ≤ k) }
  | .tmr =>
    { armedDesc c b p .tmr with
      src := BitVec.ofNat 32 (c.tmrtabBase + 4 * k), count := BitVec.ofNat 16 (c.tableLen - k)
      en := decide (k < c.tableLen), done := decide (c.tableLen ≤ k) }
  | .pix0 =>
    { armedDesc c b p .pix0 with
      src := BitVec.ofNat 32 (pageBase c b p + min k c.nSlots * c.writesPerColumn)
      count := BitVec.ofNat 16 (c.nSlots - k)
      en := decide (k < c.nSlots), done := decide (c.nSlots ≤ k) }
  | .pix1 =>
    { armedDesc c b p .pix1 with
      src := BitVec.ofNat 32 (pageBase c b p + min k c.nSlots * c.writesPerColumn + c.half)
      count := BitVec.ofNat 16 (c.nSlots - k)
      en := decide (k < c.nSlots), done := decide (c.nSlots ≤ k) }

/-- The address of word w of the chunk of slot k of page p in buffer b (spec/30_encoding.md R108). -/
def chunkAddr (c : Config) (b : BufferId) (p k w : Nat) : Nat := pageBase c b p + k * c.writesPerColumn + w

/-- The PORT_LOG entries of one pixel channel in slot k: HALF words from word `first` on. -/
def halfLog (c : Config) (m : Memory) (b : BufferId) (p k first : Nat) : List PortWrite :=
  (List.range c.half).map fun e => ⟨k, .pixbus, e, (m.readByte (chunkAddr c b p k (first + e))).setWidth 16⟩

/-- The PORT_LOG entries of the TICK that finds SLOT = k (spec/43_scan_controller.md R200, R201): ROWSEL,
PERIOD, DUTY, then the chunk in ascending word order; no PIXBUS write in the sentinel slot. -/
def slotLog (c : Config) (m : Memory) (b : BufferId) (p k : Nat) : List PortWrite :=
  [⟨k, .addr, 0, (m.readByte (c.addrtabBase + k)).setWidth 16⟩, ⟨k, .timer, 0, m.readHalf (c.tmrtabBase + 4 * k)⟩,
      ⟨k, .timer, 1, m.readHalf (c.tmrtabBase + 4 * k + 2)⟩]
    ++ if k < c.nSlots then halfLog c m b p k 0 ++ halfLog c m b p k c.half else []

/-- The PORT_LOG entries of a whole pass (spec/43_scan_controller.md R203). -/
def passLog (c : Config) (m : Memory) (b : BufferId) (p : Nat) : List PortWrite :=
  (List.range c.tableLen).flatMap (slotLog c m b p)

/-! ### The invariant -/

/-- The memory is in canonical form and lists addresses of the five regions only. -/
abbrev MemoryOk (s : State) : Prop :=
  s.mem.wf = true ∧ (s.mem.all fun cell => mapped s.cfg cell.1) = true

/-- BRIGHT is in [0, BRIGHT_ONE] (spec/10_state.md R22), ROWSEL is a row code or IDLE_CODE
(spec/93_implementation_defined.md U10), PIXBUS has no bit above the clock bit (spec/10_state.md R25), the duty
is no longer than the period (spec/41_timer_table.md R144), PAGE is a page (spec/10_state.md R32). -/
abbrev RegistersOk (s : State) : Prop :=
  s.bright.toNat ≤ s.cfg.brightOne ∧ (s.cfg.idleCode :: s.cfg.rowCodes).contains s.rowsel.toNat = true
    ∧ s.pixbus.toNat < 2 ^ (s.cfg.bitsPerWrite + 1) ∧ s.duty.toNat ≤ s.period.toNat ∧ s.page < s.cfg.pages

/-- The relations between flags (spec/10_state.md R30; spec/43_scan_controller.md R191, R204). -/
abbrev FlagsOk (s : State) : Prop :=
  ¬ (s.started = true ∧ s.halted = true) ∧ (s.irq = true ↔ s.scanState = .waitRefresh)
    ∧ (s.started = true ↔ s.scanState ≠ .stopped) ∧ s.timerRun = s.started
    ∧ (s.encBusy = true → s.pending = false)

/-- The encoder writes the back buffer, at a position inside it (spec/10_state.md R35, spec/20_memory.md
R74). -/
abbrev EncoderOk (s : State) : Prop :=
  s.encPos.toNat ≤ s.cfg.bufSize
    ∧ (s.encBusy = true → s.encBack = s.front.other ∧ s.encPos.toNat < s.cfg.bufSize)

/-- Before BEGIN nothing is armed, shown or logged (spec/10_state.md R45). -/
abbrev StoppedOk (s : State) : Prop :=
  s.scanState = .stopped →
    s.front = .buf0 ∧ s.page = 0 ∧ s.descAddr = Desc.zero ∧ s.descPix0 = Desc.zero
      ∧ s.descPix1 = Desc.zero ∧ s.descTmr = Desc.zero ∧ s.portLog = []

/-- The four channels are in lock-step (spec/10_state.md R40), and the pass is complete exactly in
WAIT_REFRESH (spec/43_scan_controller.md R201). -/
abbrev LockStepOk (s : State) : Prop :=
  (s.scanState ≠ .stopped →
    s.descAddr = scanDesc s.cfg s.front s.page s.slot .addr
      ∧ s.descPix0 = scanDesc s.cfg s.front s.page s.slot .pix0
      ∧ s.descPix1 = scanDesc s.cfg s.front s.page s.slot .pix1
      ∧ s.descTmr = scanDesc s.cfg s.front s.page s.slot .tmr)
    ∧ (s.scanState = .run → s.slot ≤ s.cfg.nSlots) ∧ (s.scanState = .waitRefresh → s.slot = s.cfg.tableLen)

/-- Once BEGIN has succeeded the AddressTable holds the row codes (spec/40_address_table.md R133, R136) and the
TimerTable the entries of the BRIGHT stored now (spec/41_timer_table.md R142, R146). -/
abbrev TablesOk (s : State) : Prop :=
  s.started = true →
    (∀ k, k < s.cfg.tableLen →
      s.mem.readByte (s.cfg.addrtabBase + k) = BitVec.ofNat 8 (addrEntry s.cfg k))
    ∧ (∀ k, k < s.cfg.tableLen →
      s.mem.readHalf (s.cfg.tmrtabBase + 4 * k) = BitVec.ofNat 16 (periodEntry s.cfg k)
        ∧ s.mem.readHalf (s.cfg.tmrtabBase + 4 * k + 2)
            = BitVec.ofNat 16 (dutyEntry s.cfg s.bright.toNat k))

/-- No word of an output buffer has a bit above the clock bit (spec/30_encoding.md R110). -/
abbrev BusWordsOk (s : State) : Prop :=
  ∀ pos, pos < s.cfg.bufSize →
    (s.mem.readByte (s.cfg.outbuf0Base + pos)).toNat < 2 ^ (s.cfg.bitsPerWrite + 1)
      ∧ (s.mem.readByte (s.cfg.outbuf1Base + pos)).toNat < 2 ^ (s.cfg.bitsPerWrite + 1)

/-- The invariant of the reachable states. -/
structure Inv (s : State) : Prop where
  memory : MemoryOk s
  registers : RegistersOk s
  flags : FlagsOk s
  encoder : EncoderOk s
  stopped : StoppedOk s
  lockStep : LockStepOk s
  tables : TablesOk s
  busWords : BusWordsOk s

/-! ### Safe runs -/

/-- A safe state: the invariant holds and BEGIN has not failed. "The halted state is never a good final
state, and a claim about a running display takes HALTED = 0 as a premise" (spec/60_exceptions.md R231). -/
abbrev Safe (s : State) : Prop := Inv s ∧ s.halted = false

/-- Every byte of the back buffer below ENC_POS is WORD of the present PIXBUF: the publish in progress has
seen one pixel buffer so far (spec/42_pixel_encoder.md R174). -/
abbrev EncodedSoFar (s : State) : Prop :=
  ∀ pos, pos < s.encPos.toNat →
    s.mem.readByte (outbufBase s.cfg s.encBack + pos) = busWord s.cfg (pixels s.cfg s.mem) pos

end Sys2Proof.Machine
end

