-- ==== Sys2Proof/Certificates/Slice0/Obligations.lean ====
section
/-! DEFINITION. The statements for the provers, from the numbered rules of spec/. Every statement holds for every
valid configuration: the configuration stands in the state. -/

open Sys2Proof Sys2Proof.Machine

/-! ### Command words (spec/30_encoding.md) -/

/-- R91 to R96: no bit of an encoding is dropped. Decoding the word of a well-formed command gives it back. -/
def Obligations.DecodeOfEncodeIsTheCommand : Prop :=
  ∀ i : Instr, i.wellFormed = true → decode (encode i) = .ok i

/-- Each valid word has one meaning: a decoded command is well-formed and its word is the word it came from. -/
def Obligations.EncodeOfDecodedWordIsTheWord : Prop :=
  ∀ (w : CommandWord) (i : Instr), decode w = .ok i → i.wellFormed = true ∧ encode i = w

/-- R97: "a word CW is the command of a row when CW AND mask = match", with the nine rows written out. -/
def Obligations.WordIsCommandOfRowIffMatch : Prop :=
  opcodeTable =
      [⟨"BEGIN", 0x0100000000000000#64, 0xFFFFFFFFFFFFFFFF#64⟩,
        ⟨"SETBRIGHT", 0x0200000000000000#64, 0xFFFFFFFF00000000#64⟩,
        ⟨"GETBRIGHT", 0x0300000000000000#64, 0xFFFFFFFFFFFFFFFF#64⟩,
        ⟨"SETPIX", 0x0400000000000000#64, 0xFFFFFF0000000000#64⟩,
        ⟨"GETPIXELS", 0x0500000000000000#64, 0xFFFFFFFFFFFFFFFF#64⟩,
        ⟨"SHOW", 0x0600000000000000#64, 0xFFFFFFFFFFFFFFFF#64⟩,
        ⟨"REFRESH", 0x0700000000000000#64, 0xFFFFFFFFFFFFFFFF#64⟩,
        ⟨"MEMWR", 0x0800000000000000#64, 0xFFFFFFFF00000000#64⟩,
        ⟨"MEMRD", 0x0900000000000000#64, 0xFFFFFFFF000000FF#64⟩]
    ∧ ∀ (w : CommandWord) (row : OpcodeRow), row ∈ opcodeTable →
        ((∃ i, decode w = .ok i ∧ i.opcodeRow = row) ↔ w &&& row.mask = row.fixed)

/-- R98: the decoder is total, its verdict is `invalid` exactly on the listed words, and an invalid word is
accepted and changes no state. -/
def Obligations.InvalidWordsAreExactlyReservedAndDropped : Prop :=
  (∀ w : CommandWord, reservedWord w = true ↔ ∃ e, decode w = .error e)
    ∧ ∀ (w : CommandWord) (s : State), reservedWord w = true → perform (.command w) s = .next s

/-- The words of spec/95_test_vectors.md V1 to V9b, written out, decode to the commands they stand for. -/
def Obligations.SpecVectorWordsDecode : Prop :=
  decode 0x0100000000000000#64 = .ok .begin
    ∧ decode 0x0200000000000080#64 = .ok (.setbright 128#32)
    ∧ decode 0x020000000000012C#64 = .ok (.setbright 300#32)
    ∧ decode 0x02000000FFFFFFFF#64 = .ok (.setbright 0xFFFFFFFF#32)
    ∧ decode 0x0300000000000000#64 = .ok .getbright
    ∧ decode 0x040000010180FF25#64 = .ok (.setpix 1#8 1#8 128#8 255#8 37#8)
    ∧ decode 0x0400000000FF0000#64 = .ok (.setpix 0#8 0#8 255#8 0#8 0#8)
    ∧ decode 0x04000003024080C0#64 = .ok (.setpix 3#8 2#8 64#8 128#8 192#8)
    ∧ decode 0x0500000000000000#64 = .ok .getpixels
    ∧ decode 0x0600000000000000#64 = .ok .showStart
    ∧ decode 0x0700000000000000#64 = .ok .refresh
    ∧ decode 0x0800000000000B25#64 = .ok (.memwr 11#24 0x25#8)
    ∧ decode 0x0900000000000A00#64 = .ok (.memrd 10#24 0#8)

/-! ### Steps -/

/-- A step runs the decoded command: when the next event offered is a word that decodes to i, step is exec of i
at the state with that event taken from the list (the list of offered events is the model's own, log entry 5). -/
def Obligations.StepRunsDecodedCommand : Prop :=
  ∀ (s : State) (w : CommandWord) (rest : List Event) (i : Instr),
    s.inputs = .command w :: rest → decode w = .ok i → step s = exec i { s with inputs := rest }

/-- A well-formed command whose word is offered to any state is what the next step runs, and the table's
numbering of the word's bits is the command word's (log entry 7). -/
def Obligations.OfferedCommandWordIsRunNext : Prop :=
  ∀ (s : State) (i : Instr), i.wellFormed = true →
    decodeTableWord 64 (encode i).toNat = some i
      ∧ step (s.withFetchWord 64 (encode i).toNat) = exec i s

/-- The internal events: a TICK happens when TIMER_RUN = 1, an ENCSTEP when ENC_BUSY = 1, RESET always
(60_exceptions.md R246); one offered while not enabled, and an empty list of events, leave the block as it is
(log entry 6). -/
def Obligations.StepPerformsOfferedEvent : Prop :=
  ∀ (s : State) (rest : List Event),
    (s.inputs = [] → step s = .next s)
      ∧ (s.inputs = .tick :: rest →
          step s = if s.timerRun then tick { s with inputs := rest } else .next { s with inputs := rest })
      ∧ (s.inputs = .encstep :: rest →
          step s = if s.encBusy then encStep { s with inputs := rest } else .next { s with inputs := rest })
      ∧ (s.inputs = .reset :: rest →
          step s = .next { State.resetOf s.cfg with inputs := rest })

/-- Every command completes in every state: none faults and none is refused (60_exceptions.md R233). -/
def Obligations.EveryCommandCompletes : Prop :=
  ∀ (i : Instr) (s : State), ∃ t, exec i s = .next t

/-- A command that is not effective, and a TICK outside RUN, leave the state unchanged. 60_exceptions.md R246: "A step
that is enabled but not effective leaves the state unchanged." Two cases are not R246's but the model's own: a TICK in
STOPPED, where TIMER_RUN = 0 and the spec gives it no step (log entry 6), and a MEMRD with VAL ≠ 0, which no word
decodes to (log entry 17). -/
def Obligations.IneffectiveStepChangesNothing : Prop :=
  (∀ (i : Instr) (s : State), effective i s = false → exec i s = .next s)
    ∧ ∀ s : State, s.scanState ≠ .run → perform .tick s = .next s

/-! ### Reset (spec/10_state.md R45) -/

/-- R45: after RESET every piece of state has the value of the table, whatever the state before. -/
def Obligations.ResetLoadsTheResetTable : Prop :=
  ∀ s : State, ∃ t, perform .reset s = .next t
    ∧ t.cfg = s.cfg ∧ t.bright.toNat = s.cfg.brightOne ∧ t.resp = 0#32 ∧ t.rowsel.toNat = s.cfg.idleCode
    ∧ t.pixbus = 0#8 ∧ t.period.toNat = s.cfg.sentinelPeriod ∧ t.duty = 0#16
    ∧ t.timerRun = false ∧ t.pending = false ∧ t.encBusy = false ∧ t.started = false ∧ t.halted = false
    ∧ t.irq = false ∧ t.front = .buf0 ∧ t.page = 0 ∧ t.scanState = .stopped ∧ t.encPos = 0#32
    ∧ t.encBack = .buf1
    ∧ (∀ ch, t.desc ch = ⟨0#32, .addr, .one, 0#16, 0#16, 0#16, 0#16, false, false, false, false⟩)
    ∧ (∀ a, t.mem.readByte a = 0#8) ∧ t.portLog = []

/-! ### Memory (spec/20_memory.md) -/

/-- R62: MemRead of n bytes is the sum of byte(addr + j) × 256^j, MemWrite stores byte j of v at addr + j, and every
other byte reads as before. -/
def Obligations.MemoryIsLittleEndian : Prop :=
  ∀ (c : Config) (m : Memory) (a : Nat) (v : BitVec 16), m.wf = true → mapped c a = true →
    ((∃ r, memRead c m a .one = .ok r ∧ r.toNat = (m.readByte a).toNat)
        ∧ ∃ m', memWrite c m a v .one = .ok m' ∧ m'.wf = true ∧ m'.readByte a = v.extractLsb' 0 8
            ∧ ∀ x, x ≠ a → m'.readByte x = m.readByte x)
      ∧ (a % 2 = 0 → mapped c (a + 1) = true →
          (∃ r, memRead c m a .two = .ok r ∧ r.toNat = (m.readByte a).toNat + (m.readByte (a + 1)).toNat * 256)
          ∧ ∃ m', memWrite c m a v .two = .ok m' ∧ m'.wf = true ∧ m'.readByte a = v.extractLsb' 0 8
              ∧ m'.readByte (a + 1) = v.extractLsb' 8 8 ∧ memRead c m' a .two = .ok v
              ∧ ∀ x, x ≠ a → x ≠ a + 1 → m'.readByte x = m.readByte x)

/-- R61, R63: the map of the five memory regions, in which the descriptor window is not; an access outside them and a
two-byte access at an odd address have no step. -/
def Obligations.UnmappedAndMisalignedAccessesHaveNoStep : Prop :=
  (∀ (c : Config) (a : Nat), mapped c a = true ↔
      (c.pixbufBase ≤ a ∧ a < c.pixbufBase + 3 * c.rows * c.columns)
        ∨ (c.addrtabBase ≤ a ∧ a < c.addrtabBase + c.tableLen)
        ∨ (c.tmrtabBase ≤ a ∧ a < c.tmrtabBase + 4 * c.tableLen)
        ∨ (c.outbuf0Base ≤ a ∧ a < c.outbuf0Base + c.bufSize)
        ∨ (c.outbuf1Base ≤ a ∧ a < c.outbuf1Base + c.bufSize))
    ∧ (∀ (c : Config) (a : Nat), c.descBase ≤ a → a < c.descBase + 64 → mapped c a = false)
    ∧ ∀ (c : Config) (m : Memory) (a : Nat) (v : BitVec 16),
        (mapped c a = false →
          memRead c m a .one = .error (.unmapped a) ∧ memWrite c m a v .one = .error (.unmapped a))
        ∧ (a % 2 = 1 →
            memRead c m a .two = .error (.misaligned a) ∧ memWrite c m a v .two = .error (.misaligned a))
        ∧ (a % 2 = 0 → mapped c a = false ∨ mapped c (a + 1) = false →
            memRead c m a .two = .error (.unmapped a) ∧ memWrite c m a v .two = .error (.unmapped a))

/-! ### Brightness and the TimerTable (spec/41_timer_table.md) -/

/-- R146 with R142: SETBRIGHT stores the clamped brightness and rebuilds the whole TimerTable from it in the same
step; nothing else changes. It is accepted in every state except HALTED. -/
def Obligations.SetbrightStoresClampAndRebuildsTable : Prop :=
  ∀ (s : State) (raw : BitVec 32), encode (.setbright raw) = 0x02#8 ++ 0#24 ++ raw
    ∧ (s.halted = true → exec (.setbright raw) s = .next s)
    ∧ (s.halted = false → s.mem.wf = true → ∃ t, exec (.setbright raw) s = .next t
      ∧ t = { s with bright := t.bright, mem := t.mem } ∧ t.mem.wf = true
      ∧ (t.bright.toNat : Int) = max 0 (min raw.toInt s.cfg.brightOne)
      ∧ (∀ k, k < s.cfg.nSlots →
          (t.mem.readHalf (s.cfg.tmrtabBase + 4 * k)).toNat = s.cfg.unitTime * 2 ^ (k % s.cfg.pwmBits)
          ∧ (t.mem.readHalf (s.cfg.tmrtabBase + 4 * k + 2)).toNat
              = s.cfg.unitTime * t.bright.toNat / s.cfg.brightOne * 2 ^ (k % s.cfg.pwmBits))
      ∧ (t.mem.readHalf (s.cfg.tmrtabBase + 4 * s.cfg.nSlots)).toNat = s.cfg.sentinelPeriod
      ∧ (t.mem.readHalf (s.cfg.tmrtabBase + 4 * s.cfg.nSlots + 2)).toNat = 0
      ∧ ∀ a, inTmrtab s.cfg a = false → t.mem.readByte a = s.mem.readByte a)

/-- R147: GETBRIGHT puts the stored, already clamped brightness in RESP and writes nothing else. -/
def Obligations.GetbrightAnswersStoredBrightness : Prop :=
  encode .getbright = 0x0300000000000000#64
    ∧ (∀ s : State, s.halted = false → exec .getbright s = .next { s with resp := s.bright.setWidth 32 })
    ∧ ∀ (s t : State) (raw : BitVec 32), s.halted = false → exec (.setbright raw) s = .next t →
        ∃ u, exec .getbright t = .next u
          ∧ (u.resp.toNat : Int) = max 0 (min raw.toInt s.cfg.brightOne)

/-- R144 (a) to (f): the built table doubles with the bit-plane, is the same for every row, has no duty above its
period, equality exactly at full brightness, no duty at brightness 0, and periods that do not depend on the
brightness. -/
def Obligations.BuiltTimerTableProperties : Prop :=
  ∀ (s t : State) (raw : BitVec 32), s.halted = false → s.mem.wf = true →
    exec (.setbright raw) s = .next t →
    let period := fun (u : State) (k : Nat) => (u.mem.readHalf (s.cfg.tmrtabBase + 4 * k)).toNat
    let duty := fun (u : State) (k : Nat) => (u.mem.readHalf (s.cfg.tmrtabBase + 4 * k + 2)).toNat
    (∀ k, k < s.cfg.nSlots → 1 ≤ k % s.cfg.pwmBits →
        duty t k = 2 * duty t (k - 1) ∧ period t k = 2 * period t (k - 1))
      ∧ (∀ k k', k ≤ k' → k' < s.cfg.nSlots → k / s.cfg.pwmBits = k' / s.cfg.pwmBits → duty t k ≤ duty t k')
      ∧ (∀ k, k < s.cfg.tableLen → duty t k ≤ period t k)
      ∧ (∀ k, k < s.cfg.nSlots → (duty t k = period t k ↔ t.bright.toNat = s.cfg.brightOne))
      ∧ (∀ k, k + s.cfg.pwmBits < s.cfg.nSlots →
          duty t k = duty t (k + s.cfg.pwmBits) ∧ period t k = period t (k + s.cfg.pwmBits))
      ∧ (s.cfg.unitTime * t.bright.toNat < s.cfg.brightOne → ∀ k, k < s.cfg.tableLen → duty t k = 0)
      ∧ (∀ (raw' : BitVec 32) (t' : State), exec (.setbright raw') s = .next t' →
          ∀ k, k < s.cfg.tableLen → period t' k = period t k)

/-- 41_timer_table.md R146: "Setting the value already stored rebuilds an identical table", once the scan is
started (before BEGIN no table need have been built). -/
def Obligations.SettingStoredBrightnessChangesNothing : Prop :=
  ∀ (s : State) (raw : BitVec 32), Inv s → s.started = true →
    brightOperand s.cfg raw = s.bright → exec (.setbright raw) s = .next s

/-! ### Pixel buffer commands (spec/42_pixel_encoder.md) -/

/-- R163: SETPIX in range stores R, G, B at offset 3 × (ROW × COLUMNS + COL) of PIXBUF, inside PIXBUF, and changes
nothing else; out of range it is dropped. It is performed whether or not a publish is encoding. -/
def Obligations.SetpixWritesThePixelOrIsDropped : Prop :=
  (∀ (s : State) (col row r g b : BitVec 8), s.halted = false → s.mem.wf = true →
    col.toNat < s.cfg.columns → row.toNat < s.cfg.rows →
    ∃ t, exec (.setpix col row r g b) s = .next t ∧ t = { s with mem := t.mem } ∧ t.mem.wf = true
      ∧ let a := s.cfg.pixbufBase + 3 * (row.toNat * s.cfg.columns + col.toNat)
        t.mem.readByte a = r ∧ t.mem.readByte (a + 1) = g ∧ t.mem.readByte (a + 2) = b
        ∧ inPixbuf s.cfg a = true ∧ inPixbuf s.cfg (a + 2) = true
        ∧ ∀ x, x < a ∨ a + 3 ≤ x → t.mem.readByte x = s.mem.readByte x)
    ∧ (∀ (s : State) (col row r g b : BitVec 8),
        s.cfg.columns ≤ col.toNat ∨ s.cfg.rows ≤ row.toNat → exec (.setpix col row r g b) s = .next s)
    ∧ (∀ (s : State) (col row r g b : BitVec 8), s.halted = true → exec (.setpix col row r g b) s = .next s)
    ∧ ∀ col row r g b : BitVec 8,
        encode (.setpix col row r g b) = 0x04#8 ++ 0#16 ++ col ++ row ++ r ++ g ++ b

/-- R164: GETPIXELS puts PIXBUF_BASE in RESP and writes nothing else. -/
def Obligations.GetpixelsAnswersPixbufBase : Prop :=
  encode .getpixels = 0x0500000000000000#64
    ∧ ∀ s : State, s.halted = false →
        ∃ t, exec .getpixels s = .next t ∧ t = { s with resp := t.resp } ∧ t.resp.toNat = s.cfg.pixbufBase

/-- R165: MEMWR in range stores one byte of PIXBUF and changes nothing else, out of range it is dropped, and a SETPIX
in range equals three MEMWR. -/
def Obligations.MemwrWritesOneByteOrIsDropped : Prop :=
  (∀ (off : BitVec 24) (val : BitVec 8), encode (.memwr off val) = 0x08#8 ++ 0#24 ++ off ++ val)
    ∧ (∀ (s : State) (off : BitVec 24) (val : BitVec 8), s.halted = false → s.mem.wf = true →
        off.toNat < 3 * s.cfg.rows * s.cfg.columns →
        ∃ t, exec (.memwr off val) s = .next t ∧ t = { s with mem := t.mem } ∧ t.mem.wf = true
          ∧ t.mem.readByte (s.cfg.pixbufBase + off.toNat) = val
          ∧ ∀ x, x ≠ s.cfg.pixbufBase + off.toNat → t.mem.readByte x = s.mem.readByte x)
    ∧ (∀ (s : State) (off : BitVec 24) (val : BitVec 8),
        3 * s.cfg.rows * s.cfg.columns ≤ off.toNat → exec (.memwr off val) s = .next s)
    ∧ ∀ (s : State) (col row r g b : BitVec 8), col.toNat < s.cfg.columns → row.toNat < s.cfg.rows →
        let o := 3 * (row.toNat * s.cfg.columns + col.toNat)
        ∃ t1 t2, exec (.memwr (BitVec.ofNat 24 o) r) s = .next t1
          ∧ exec (.memwr (BitVec.ofNat 24 (o + 1)) g) t1 = .next t2
          ∧ exec (.memwr (BitVec.ofNat 24 (o + 2)) b) t2 = exec (.setpix col row r g b) s

/-- R166: MEMRD in range puts the byte of PIXBUF, zero-extended, in RESP and writes nothing else; out of range RESP is
unchanged. -/
def Obligations.MemrdAnswersPixelByteOrIsDropped : Prop :=
  (∀ off : BitVec 24, encode (.memrd off 0#8) = 0x09#8 ++ 0#24 ++ off ++ 0#8)
    ∧ (∀ (s : State) (off : BitVec 24), s.halted = false → off.toNat < 3 * s.cfg.rows * s.cfg.columns →
        exec (.memrd off 0#8) s
          = .next { s with resp := (s.mem.readByte (s.cfg.pixbufBase + off.toNat)).setWidth 32 })
    ∧ ∀ (s : State) (off : BitVec 24), 3 * s.cfg.rows * s.cfg.columns ≤ off.toNat →
        exec (.memrd off 0#8) s = .next s

/-- MEMRD after MEMWR at the same offset answers the byte written. -/
def Obligations.MemrdReadsWhatMemwrWrote : Prop :=
  ∀ (s : State) (off : BitVec 24) (val : BitVec 8), s.halted = false → s.mem.wf = true →
    off.toNat < 3 * s.cfg.rows * s.cfg.columns →
    ∃ t u, exec (.memwr off val) s = .next t ∧ exec (.memrd off 0#8) t = .next u ∧ u.resp.toNat = val.toNat

/-- The ill-formed MEMRD with VAL ≠ 0 has no word of its own (its word is invalid, 30_encoding.md R98) and is dropped
like one (log entry 17, the model's choice for a term no word decodes to). -/
def Obligations.MemrdWithValueHasNoEffect : Prop :=
  ∀ (off : BitVec 24) (val : BitVec 8), val ≠ 0#8 →
    decode (encode (.memrd off val)) = .error .memrdValue ∧ ∀ s : State, exec (.memrd off val) s = .next s

/-! ### Publishing (spec/42_pixel_encoder.md) -/

/-- R168 and R172: SHOW starts a publish, all in one step, or is dropped while one is encoding. -/
def Obligations.ShowStartsAPublishOrIsDropped : Prop :=
  encode .showStart = 0x0600000000000000#64
    ∧ ∀ s : State,
        (s.halted = false → s.encBusy = false →
          exec .showStart s
            = .next { s with pending := false, encBack := s.front.other, encPos := 0#32, encBusy := true })
        ∧ (s.encBusy = true → exec .showStart s = .next s) ∧ (s.halted = true → exec .showStart s = .next s)

/-- R169, R170: an ENCSTEP writes WORD of the live PIXBUF at OUTBUF(ENC_BACK) + ENC_POS and moves on; the one that
reaches BUF_SIZE sets PENDING and clears ENC_BUSY in the same step. That an ENCSTEP offered while ENC_BUSY = 0 changes
nothing is the model's choice (log entry 6): R169 and R246 say only that it is not enabled. -/
def Obligations.EncstepWritesOneWord : Prop :=
  ∀ s : State, (s.encBusy = false → perform .encstep s = .next s)
    ∧ (s.encBusy = true → s.encPos.toNat < s.cfg.bufSize → s.mem.wf = true → ∃ t, perform .encstep s = .next t
      ∧ t = { s with mem := t.mem, encPos := t.encPos, pending := t.pending, encBusy := t.encBusy }
      ∧ t.mem.wf = true ∧ t.encPos.toNat = s.encPos.toNat + 1
      ∧ t.mem.readByte (outbufBase s.cfg s.encBack + s.encPos.toNat)
          = busWord s.cfg (pixels s.cfg s.mem) s.encPos.toNat
      ∧ (∀ a, a ≠ outbufBase s.cfg s.encBack + s.encPos.toNat → t.mem.readByte a = s.mem.readByte a)
      ∧ (s.encBack ≠ s.front →
          inOutbuf s.cfg s.front (outbufBase s.cfg s.encBack + s.encPos.toNat) = false)
      ∧ (s.encPos.toNat + 1 = s.cfg.bufSize → t.pending = true ∧ t.encBusy = false)
      ∧ (s.encPos.toNat + 1 < s.cfg.bufSize → t.pending = s.pending ∧ t.encBusy = true))

/-- 30_encoding.md R107, R110 to R112, R115: every bit of the word at (page, row, bit-plane, shift step, phase). -/
def Obligations.BusWordHasLanesAndClock : Prop :=
  ∀ (c : Config) (pix : Nat → Byte) (p r i g f : Nat), p < c.pages → r < c.rows → i < c.pwmBits → g < c.groups →
    f < c.clkPhases →
    let word := busWord c pix (bufferPos c p r i (g * c.clkPhases + f))
    (∀ l, l < c.bitsPerWrite → c.laneMap[g * c.bitsPerWrite + l]? = some .pad → word.getLsbD l = false)
      ∧ (∀ l col ch, l < c.bitsPerWrite → c.laneMap[g * c.bitsPerWrite + l]? = some (.led col ch) →
          word.getLsbD l = pbit c (pix (3 * (r * c.columns + col) + ch.index)) p i)
      ∧ word.getLsbD c.bitsPerWrite = decide (f = c.clkPhases - 1)
      ∧ ∀ l, c.bitsPerWrite < l → word.getLsbD l = false

/-- 30_encoding.md R114: the dithered bit by the three cases, as a bit of the page's value, and without dithering as
the bit of the drive code. -/
def Obligations.DitheredBitByRank : Prop :=
  ∀ (c : Config) (v : Byte) (p i : Nat), p < c.pages → i < c.pwmBits →
    let drive := c.driveCodes.getD v.toNat 0
    let rank := c.pageRanks.getD p 0
    (rank < drive / 2 ^ c.pwmBits → pbit c v p i = true)
      ∧ (rank = drive / 2 ^ c.pwmBits → pbit c v p i = (drive % 2 ^ c.pwmBits).testBit i)
      ∧ (drive / 2 ^ c.pwmBits < rank → pbit c v p i = false)
      ∧ (rank < drive / 2 ^ c.pwmBits → pageValue c v p = 2 ^ c.pwmBits - 1)
      ∧ (rank = drive / 2 ^ c.pwmBits → pageValue c v p = drive % 2 ^ c.pwmBits)
      ∧ (drive / 2 ^ c.pwmBits < rank → pageValue c v p = 0)
      ∧ pbit c v p i = (pageValue c v p).testBit i
      ∧ (c.pagedBits = 0 → pbit c v p i = drive.testBit i)

/-- 42_pixel_encoder.md R176: over a page cycle the values shown sum to hi(D) × (2^PWM_BITS − 1) + lo(D) = D − hi(D),
monotone in D, 0 at intensity 0 and PAGES × (2^PWM_BITS − 1) at intensity 255. -/
def Obligations.PageCycleShowsTheDriveCode : Prop :=
  ∀ c : Config,
    let light := fun v : Byte => ((List.range c.pages).map (pageValue c v)).sum
    (∀ v, light v = driveHi c v * (2 ^ c.pwmBits - 1) + driveLo c v ∧ light v + driveHi c v = driveCode c v)
      ∧ (∀ v v', driveCode c v ≤ driveCode c v' → light v ≤ light v')
      ∧ light 0#8 = 0 ∧ light 255#8 = c.pages * (2 ^ c.pwmBits - 1)

/-- 42_pixel_encoder.md R175 (a) to (e). -/
def Obligations.EncodeProperties : Prop :=
  ∀ c : Config,
    (∀ pix : Nat → Byte, (∀ o, o < c.pixbufSize → pix o = 0#8) → ∀ pos, pos < c.bufSize →
        (busWord c pix pos).toNat = if posWord c pos % c.clkPhases = c.clkPhases - 1 then 2 ^ c.bitsPerWrite else 0)
      ∧ (∀ pix : Nat → Byte, (∀ o, o < c.pixbufSize → pix o = 255#8) → ∀ pos l, pos < c.bufSize →
          l < c.bitsPerWrite → laneOf c (posWord c pos / c.clkPhases) l ≠ .pad →
          (busWord c pix pos).getLsbD l = true)
      ∧ (∀ s s' : State, s.cfg = c → s'.cfg = c → s.encPos = s'.encPos →
          (∀ o, o < c.pixbufSize → s.mem.readByte (c.pixbufBase + o) = s'.mem.readByte (c.pixbufBase + o)) →
          encoderWord s = encoderWord s')
      ∧ (∀ (pix pix' : Nat → Byte) (row : Nat),
          (∀ o, o < c.pixbufSize → o / (3 * c.columns) ≠ row → pix o = pix' o) →
          ∀ pos, pos < c.bufSize → posRow c pos ≠ row → busWord c pix pos = busWord c pix' pos)
      ∧ (∀ (pix : Nat → Byte) (pos pos' l : Nat), posPage c pos = posPage c pos' → posSlot c pos = posSlot c pos' →
          posWord c pos / c.clkPhases = posWord c pos' / c.clkPhases → l ≠ c.bitsPerWrite →
          (busWord c pix pos).getLsbD l = (busWord c pix pos').getLsbD l)

/-- 42_pixel_encoder.md R174: a SHOW and BUF_SIZE ENCSTEPs leave ENCODE of the pixel buffer in the back buffer, set
PENDING, and change nothing else of the memory. -/
def Obligations.WholePublishIsEncodeOfThePixels : Prop :=
  ∀ s : State, s.halted = false → s.encBusy = false → s.mem.wf = true →
    s.inputs = .command (encode .showStart) :: List.replicate s.cfg.bufSize .encstep →
    ∃ t, Sys2Proof.core.run (s.cfg.bufSize + 1) s = .next t
      ∧ t = { s with
          mem := t.mem, pending := true, encBusy := false, encBack := s.front.other
          encPos := BitVec.ofNat 32 s.cfg.bufSize, inputs := [] }
      ∧ (∀ pos, pos < s.cfg.bufSize →
          t.mem.readByte (outbufBase s.cfg s.front.other + pos) = busWord s.cfg (pixels s.cfg s.mem) pos)
      ∧ ∀ a, inOutbuf s.cfg s.front.other a = false → t.mem.readByte a = s.mem.readByte a

/-- 42_pixel_encoder.md R171, R174: whatever events fall between SHOW and completion, short of RESET and pixel writes,
the words written so far stay ENCODE of the one pixel buffer, and at completion the whole back buffer is. -/
def Obligations.EncodedPrefixSurvivesInterleaving : Prop :=
  ∀ (s t : State) (e : Event) (rest : List Event), Inv s → s.encBusy = true → EncodedSoFar s →
    s.inputs = e :: rest → e ≠ .reset → e.writesPixels = false → step s = .next t →
    t.encBack = s.encBack
      ∧ (∀ o, o < s.cfg.pixbufSize → pixels t.cfg t.mem o = pixels s.cfg s.mem o)
      ∧ EncodedSoFar t
      ∧ (t.encBusy = false → t.pending = true ∧ t.encPos.toNat = t.cfg.bufSize)

/-! ### BEGIN, ARM and REFRESH (spec/43_scan_controller.md) -/

/-- R195: the table of values ARM(b, p) loads into the four descriptors, as numbers. -/
def Obligations.ArmLoadsTheDescriptorTable : Prop :=
  ∀ (s : State) (b : BufferId) (p : Nat), p < s.cfg.pages →
    let t := arm b p s
    let base := outbufBase s.cfg b + p * s.cfg.panelDepthSize
    t = { s with descAddr := t.descAddr, descPix0 := t.descPix0, descPix1 := t.descPix1, descTmr := t.descTmr }
      ∧ (t.descAddr.src.toNat = s.cfg.addrtabBase ∧ t.descPix0.src.toNat = base
          ∧ t.descPix1.src.toNat = base + s.cfg.half ∧ t.descTmr.src.toNat = s.cfg.tmrtabBase)
      ∧ (t.descAddr.dst = .addr ∧ t.descPix0.dst = .pixbus ∧ t.descPix1.dst = .pixbus ∧ t.descTmr.dst = .timer)
      ∧ (t.descAddr.esize = .one ∧ t.descPix0.esize = .one ∧ t.descPix1.esize = .one ∧ t.descTmr.esize = .two)
      ∧ (t.descAddr.nelem.toNat = 1 ∧ t.descPix0.nelem.toNat = s.cfg.half
          ∧ t.descPix1.nelem.toNat = s.cfg.half ∧ t.descTmr.nelem.toNat = 2)
      ∧ (t.descAddr.skip.toNat = 0 ∧ t.descPix0.skip.toNat = s.cfg.half ∧ t.descPix1.skip.toNat = s.cfg.half
          ∧ t.descTmr.skip.toNat = 0)
      ∧ (t.descAddr.count.toNat = s.cfg.tableLen ∧ t.descPix0.count.toNat = s.cfg.nSlots
          ∧ t.descPix1.count.toNat = s.cfg.nSlots ∧ t.descTmr.count.toNat = s.cfg.tableLen)
      ∧ (t.descAddr.bcount.toNat = s.cfg.tableLen ∧ t.descPix0.bcount.toNat = s.cfg.nSlots
          ∧ t.descPix1.bcount.toNat = s.cfg.nSlots ∧ t.descTmr.bcount.toNat = s.cfg.tableLen)
      ∧ (t.descAddr.link = false ∧ t.descPix0.link = false ∧ t.descPix1.link = true ∧ t.descTmr.link = false)
      ∧ (t.descAddr.intmaj = true ∧ t.descPix0.intmaj = false ∧ t.descPix1.intmaj = false
          ∧ t.descTmr.intmaj = false)
      ∧ ∀ ch, (t.desc ch).en = true ∧ (t.desc ch).done = false

/-- R191: an effective BEGIN with resources available builds both tables, arms the channels against buffer 0, page 0,
and starts the scan and the timer; it leaves every other piece of state as it is. -/
def Obligations.BeginBuildsArmsAndStarts : Prop :=
  encode .begin = 0x0100000000000000#64
    ∧ ∀ s : State, s.started = false → s.halted = false → s.cfg.resOk = true → s.mem.wf = true →
    ∃ t, exec .begin s = .next t
      ∧ t = { s with
          front := .buf0, page := 0, irq := false, scanState := .run, timerRun := true, started := true
          descAddr := armedDesc s.cfg .buf0 0 .addr, descPix0 := armedDesc s.cfg .buf0 0 .pix0
          descPix1 := armedDesc s.cfg .buf0 0 .pix1, descTmr := armedDesc s.cfg .buf0 0 .tmr, mem := t.mem }
      ∧ t.slot = 0 ∧ t.mem.wf = true
      ∧ (∀ k, k < s.cfg.tableLen →
          (t.mem.readByte (s.cfg.addrtabBase + k)).toNat = addrEntry s.cfg k
          ∧ (t.mem.readHalf (s.cfg.tmrtabBase + 4 * k)).toNat = periodEntry s.cfg k
          ∧ t.mem.readHalf (s.cfg.tmrtabBase + 4 * k + 2) = BitVec.ofNat 16 (dutyEntry s.cfg s.bright.toNat k))
      ∧ ∀ a, inAddrtab s.cfg a = false → inTmrtab s.cfg a = false → t.mem.readByte a = s.mem.readByte a

/-- 40_address_table.md R131: the built AddressTable is ROWS runs of PWM_BITS equal codes, then the idle code. -/
def Obligations.BuiltAddressTableIsRunsAndSentinel : Prop :=
  ∀ s t : State, s.started = false → s.halted = false → s.cfg.resOk = true → s.mem.wf = true →
    exec .begin s = .next t →
    let table := (List.range s.cfg.tableLen).map fun k => (t.mem.readByte (s.cfg.addrtabBase + k)).toNat
    table = ((List.range s.cfg.rows).flatMap fun r => List.replicate s.cfg.pwmBits (s.cfg.rowCodes.getD r 0))
        ++ [s.cfg.idleCode]
      ∧ table.length = s.cfg.rows * s.cfg.pwmBits + 1

/-- R192: BEGIN without resources raises HALT and does nothing else. -/
def Obligations.BeginWithoutResourcesHalts : Prop :=
  ∀ s : State, s.started = false → s.halted = false → s.cfg.resOk = false →
    exec .begin s = .next { s with halted := true }

/-- R193: a BEGIN accepted when STARTED = 1 is dropped. -/
def Obligations.BeginIsOneTime : Prop :=
  ∀ s : State, s.started = true → exec .begin s = .next s

/-- R204: REFRESH in WAIT_REFRESH makes the swap check, advances the page, re-arms all four channels with the new
FRONT and PAGE, clears IRQ and resumes the scan. -/
def Obligations.RefreshSwapsRearmsAndResumes : Prop :=
  encode .refresh = 0x0700000000000000#64 ∧ ∀ s : State, s.halted = false → s.scanState = .waitRefresh →
    let front := if s.pending then s.front.other else s.front
    let page := (s.page + 1) % s.cfg.pages
    exec .refresh s = .next { s with
      front := front, pending := false, page := page
      descAddr := armedDesc s.cfg front page .addr, descPix0 := armedDesc s.cfg front page .pix0
      descPix1 := armedDesc s.cfg front page .pix1, descTmr := armedDesc s.cfg front page .tmr
      irq := false, scanState := .run }

/-- R205: REFRESH in RUN or STOPPED is dropped. -/
def Obligations.RefreshAtAnyOtherTimeIsDropped : Prop :=
  ∀ s : State, s.scanState ≠ .waitRefresh → exec .refresh s = .next s

/-! ### TICK and the pass (spec/43_scan_controller.md) -/

/-- R200: a TICK in a data slot moves the slot's row code, its (period, duty) pair and its chunk to the outputs, in
that order in the log, and every channel on by one slot; nothing else changes. -/
def Obligations.TickMovesOneDataSlot : Prop :=
  ∀ (s : State) (k : Nat), Inv s → s.scanState = .run → s.slot = k → k < s.cfg.nSlots →
    ∃ t, perform .tick s = .next t
      ∧ t = { s with
          rowsel := s.mem.readByte (s.cfg.addrtabBase + k)
          period := s.mem.readHalf (s.cfg.tmrtabBase + 4 * k)
          duty := s.mem.readHalf (s.cfg.tmrtabBase + 4 * k + 2)
          pixbus := s.mem.readByte (chunkAddr s.cfg s.front s.page k (s.cfg.writesPerColumn - 1))
          portLog := s.portLog ++ slotLog s.cfg s.mem s.front s.page k
          descAddr := scanDesc s.cfg s.front s.page (k + 1) .addr
          descPix0 := scanDesc s.cfg s.front s.page (k + 1) .pix0
          descPix1 := scanDesc s.cfg s.front s.page (k + 1) .pix1
          descTmr := scanDesc s.cfg s.front s.page (k + 1) .tmr }
      ∧ t.slot = k + 1

/-- R201: the completing TICK moves the sentinel entry, writes no PIXBUS word, raises IRQ and waits for REFRESH. CH_ADDR
and CH_TMR are TABLE_LEN slots into the pass: their SRC has moved past their tables (R198), and no other field of theirs
but COUNT, EN and DONE has changed since they were armed. -/
def Obligations.CompletingTickRaisesIrqAndWaits : Prop :=
  ∀ s : State, Inv s → s.scanState = .run → s.slot = s.cfg.nSlots →
    ∃ t, perform .tick s = .next t
      ∧ t = { s with
          rowsel := t.rowsel, period := t.period, duty := t.duty, irq := true, scanState := .waitRefresh
          portLog := s.portLog ++ [⟨s.cfg.nSlots, .addr, 0, BitVec.ofNat 16 s.cfg.idleCode⟩,
            ⟨s.cfg.nSlots, .timer, 0, BitVec.ofNat 16 s.cfg.sentinelPeriod⟩, ⟨s.cfg.nSlots, .timer, 1, 0#16⟩]
          descAddr := scanDesc s.cfg s.front s.page s.cfg.tableLen .addr
          descTmr := scanDesc s.cfg s.front s.page s.cfg.tableLen .tmr }
      ∧ t.rowsel.toNat = s.cfg.idleCode ∧ t.period.toNat = s.cfg.sentinelPeriod ∧ t.duty = 0#16
      ∧ (∀ ch, (t.desc ch).count = 0#16 ∧ (t.desc ch).en = false ∧ (t.desc ch).done = true)
      ∧ t.slot = s.cfg.tableLen

/-- R202: a TICK in WAIT_REFRESH changes nothing. -/
def Obligations.TickWhileWaitingChangesNothing : Prop :=
  ∀ s : State, s.scanState = .waitRefresh → perform .tick s = .next s

/-- R203: from RUN at slot 0, TABLE_LEN consecutive TICKs log one pass, whose PIXBUS words are exactly page PAGE of
buffer FRONT in ascending offset, and leave the scan waiting for REFRESH with the memory untouched. -/
def Obligations.PassLogsOnePageInOrder : Prop :=
  ∀ s : State, Inv s → s.scanState = .run → s.slot = 0 →
    s.inputs = List.replicate s.cfg.tableLen .tick →
    ∃ t, Sys2Proof.core.run s.cfg.tableLen s = .next t
      ∧ t.portLog = s.portLog ++ passLog s.cfg s.mem s.front s.page
      ∧ ((passLog s.cfg s.mem s.front s.page).filter fun x => decide (x.port = .addr)).length = s.cfg.nSlots + 1
      ∧ ((passLog s.cfg s.mem s.front s.page).filter fun x => decide (x.port = .timer)).length = 2 * s.cfg.tableLen
      ∧ (((passLog s.cfg s.mem s.front s.page).filter fun x => decide (x.port = .pixbus)).map fun x => x.value.toNat)
          = (List.range s.cfg.panelDepthSize).map
              (fun w => (s.mem.readByte (outbufBase s.cfg s.front + s.page * s.cfg.panelDepthSize + w)).toNat)
      ∧ t.scanState = .waitRefresh ∧ t.irq = true ∧ t.mem = s.mem ∧ t.front = s.front ∧ t.page = s.page

/-! ### Whole-machine rules -/

/-- The invariant of the reachable states (Sys2Proof.Machine.Inv: canonical memory, registers in range, the flag
relations of 10_state.md R30, the lock-step of R40, the tables of 40_address_table.md R136 and 41_timer_table.md R142,
the back-buffer discipline of 20_memory.md R74, clean bus words of 30_encoding.md R110) is kept by every step. -/
def Obligations.InvariantKeptByEveryStep : Prop :=
  ∀ s t : State, Inv s → step s = .next t → Inv t

/-- The invariant holds after reset, under every configuration. -/
def Obligations.InvariantHoldsAtReset : Prop :=
  Inv State.reset ∧ ∀ c : Config, Inv (State.resetOf c)

/-- 60_exceptions.md R233, 20_memory.md R77: from a state of the invariant no step of any kind stops; every address
and value is in range. -/
def Obligations.NoStepStopsFromTheInvariant : Prop :=
  ∀ s : State, Inv s → ∃ t, step s = .next t

/-- R40: the lock-step of the four channels. SRC is a 32-bit register (R38), so its value is the rule's number as a
32-bit word. -/
def Obligations.FourChannelsAreInLockStep : Prop :=
  ∀ s : State, Inv s → s.scanState ≠ .stopped →
    let k := s.cfg.tableLen - s.descAddr.count.toNat
    s.descAddr.src = BitVec.ofNat 32 (s.cfg.addrtabBase + k)
      ∧ s.descTmr.count = s.descAddr.count ∧ s.descTmr.src = BitVec.ofNat 32 (s.cfg.tmrtabBase + 4 * k)
      ∧ s.descPix0.count.toNat = s.cfg.nSlots - k ∧ s.descPix1.count.toNat = s.cfg.nSlots - k
      ∧ s.descPix0.src = BitVec.ofNat 32 (outbufBase s.cfg s.front + s.page * s.cfg.panelDepthSize
          + min k s.cfg.nSlots * s.cfg.writesPerColumn)
      ∧ s.descPix1.src = s.descPix0.src + BitVec.ofNat 32 s.cfg.half

/-- In every state of the invariant CH_PIX1 is enabled exactly when CH_PIX0 is, so that running it in every TICK (R200)
and running it on CH_PIX0's minor-loop completion (10_state.md R38, LINK) are the same (log entry 15). -/
def Obligations.LinkedChannelRunsWithItsLeader : Prop :=
  ∀ s : State, Inv s → s.descPix1.en = s.descPix0.en

/-- 20_memory.md R69, R74: no step but RESET writes a byte of the front buffer. -/
def Obligations.NoStepWritesTheFrontBuffer : Prop :=
  ∀ s t : State, Inv s → s.inputs.head? ≠ some .reset → step s = .next t →
    ∀ pos, pos < s.cfg.bufSize →
      t.mem.readByte (outbufBase s.cfg s.front + pos) = s.mem.readByte (outbufBase s.cfg s.front + pos)

/-- 20_memory.md R74: "FRONT changes only in a REFRESH step that finds PENDING = 1" (or RESET). -/
def Obligations.FrontChangesOnlyAtASwap : Prop :=
  ∀ s t : State, Inv s → s.inputs.head? ≠ some .reset → step s = .next t → t.front ≠ s.front →
    t.front = s.front.other ∧ s.pending = true ∧ s.scanState = .waitRefresh ∧ t.pending = false
      ∧ ∃ w, s.inputs.head? = some (.command w) ∧ decode w = .ok .refresh

/-- 60_exceptions.md R232, R234: IRQ rises only in the TICK that completes CH_ADDR, and falls only by an effective
REFRESH or RESET. -/
def Obligations.IrqRisesAtPassEndAndFallsByRefresh : Prop :=
  ∀ s t : State, Inv s → step s = .next t →
    (s.irq = false → t.irq = true →
      s.inputs.head? = some .tick ∧ s.scanState = .run ∧ s.slot = s.cfg.nSlots ∧ t.scanState = .waitRefresh)
    ∧ (s.irq = true → t.irq = false →
        s.inputs.head? = some .reset ∨ ∃ w, s.inputs.head? = some (.command w) ∧ decode w = .ok .refresh)

/-- 60_exceptions.md R231: while HALTED = 1 every command is dropped, and nothing but RESET clears HALTED or consumes a
PENDING. R231 says that no TICK occurs (TIMER_RUN stays 0); that one offered all the same changes nothing is the model's
choice (log entry 6). -/
def Obligations.HaltedBlockDropsEveryCommand : Prop :=
  (∀ (i : Instr) (s : State), s.halted = true → exec i s = .next s)
    ∧ ∀ s : State, Inv s → s.halted = true →
        perform .tick s = .next s
          ∧ ∀ (e : Event) (t : State), e ≠ .reset → perform e s = .next t →
              t.halted = true ∧ (s.pending = true → t.pending = true)

/-- 10_state.md R28, 43_scan_controller.md R208: TIMER_RUN, STARTED and HALTED are cleared by RESET only, and the scan
never goes back to STOPPED. -/
def Obligations.OnlyResetStopsTheScan : Prop :=
  ∀ s t : State, s.inputs.head? ≠ some .reset → step s = .next t →
    (s.timerRun = true → t.timerRun = true) ∧ (s.started = true → t.started = true)
      ∧ (s.halted = true → t.halted = true) ∧ (s.scanState ≠ .stopped → t.scanState ≠ .stopped)

/-- 10_state.md R22, R23: no step but RESET and a SETBRIGHT writes BRIGHT, none but RESET and the three queries RESP. -/
def Obligations.BrightAndRespHaveOneKindOfWriter : Prop :=
  ∀ s t : State, s.inputs.head? ≠ some .reset → step s = .next t →
    (t.bright ≠ s.bright → ∃ w, s.inputs.head? = some (.command w) ∧ carriesSetbright w = true)
      ∧ (t.resp ≠ s.resp → ∃ w, s.inputs.head? = some (.command w) ∧ carriesQuery w = true)

/-- 10_state.md R24 to R27, R44: only a TICK drives an output register or appends to PORT_LOG, and the log only
grows. -/
def Obligations.OnlyTicksDriveTheOutputs : Prop :=
  ∀ s t : State, s.inputs.head? ≠ some .reset → step s = .next t →
    (s.inputs.head? ≠ some .tick →
      t.rowsel = s.rowsel ∧ t.pixbus = s.pixbus ∧ t.period = s.period ∧ t.duty = s.duty ∧ t.portLog = s.portLog)
    ∧ ∃ new, t.portLog = s.portLog ++ new

/-- 10_state.md R39: the descriptors are written by BEGIN, REFRESH, TICK and RESET only; no other step changes FRONT,
PAGE or SCAN_STATE either. -/
def Obligations.DescriptorsHaveNoOtherWriter : Prop :=
  ∀ s t : State, s.inputs.head? ≠ some .reset → s.inputs.head? ≠ some .tick →
    (∀ w, s.inputs.head? = some (.command w) → carries w .begin = false ∧ carries w .refresh = false) →
    step s = .next t →
    (∀ ch, t.desc ch = s.desc ch) ∧ t.front = s.front ∧ t.page = s.page ∧ t.scanState = s.scanState

/-- 10_state.md R41, 20_memory.md R71, R76: which bytes a command may change: SETPIX and MEMWR those of PIXBUF,
SETBRIGHT those of TMRTAB, BEGIN those of the two tables, every other command none. -/
def Obligations.CommandsWriteOnlyTheirRegions : Prop :=
  ∀ (i : Instr) (s t : State), s.mem.wf = true → exec i s = .next t →
    ∀ a, t.mem.readByte a ≠ s.mem.readByte a →
      match i with
      | .begin => inAddrtab s.cfg a = true ∨ inTmrtab s.cfg a = true
      | .setbright _ => inTmrtab s.cfg a = true
      | .setpix _ _ _ _ _ => inPixbuf s.cfg a = true
      | .memwr _ _ => inPixbuf s.cfg a = true
      | _ => False

/-- 40_address_table.md R136: after BEGIN no step but RESET writes ADDRTAB. -/
def Obligations.AddressTableIsNeverRewritten : Prop :=
  ∀ s t : State, Inv s → s.started = true → s.inputs.head? ≠ some .reset → step s = .next t →
    ∀ k, k < s.cfg.tableLen →
      t.mem.readByte (s.cfg.addrtabBase + k) = s.mem.readByte (s.cfg.addrtabBase + k)

/-- 10_state.md R20: the configuration never changes, and a step takes its event from the list of those offered and
leaves the rest (log entries 1, 5). -/
def Obligations.ConfigurationNeverChanges : Prop :=
  ∀ s t : State, step s = .next t → t.cfg = s.cfg ∧ t.inputs = s.inputs.tail

/-- 30_encoding.md R118: the fields of the packed descriptor image. -/
def Obligations.PackedImageHoldsTheFields : Prop :=
  ∀ d : Desc, ∃ w1 w2 w3 : BitVec 32, d.packed = [d.src, w1, w2, w3]
    ∧ w1.extractLsb' 16 16 = d.nelem ∧ w1.extractLsb' 0 16 = d.skip
    ∧ w2.extractLsb' 16 16 = d.count ∧ w2.extractLsb' 0 16 = d.bcount
    ∧ w3.extractLsb' 0 2 = d.dst.number ∧ w3.extractLsb' 2 1 = d.esize.bit
    ∧ w3.getLsbD 3 = d.link ∧ w3.getLsbD 4 = d.intmaj ∧ w3.getLsbD 5 = d.en ∧ w3.getLsbD 6 = d.done
    ∧ w3.extractLsb' 7 25 = 0#25

/-- 30_encoding.md R118, 20_memory.md R61: the image of channel c stands at DESC_BASE + 16c as four little-endian words;
the window of 64 bytes holds the four images and nothing else, and no MemRead reaches it. -/
def Obligations.PackedImageStandsAtDescBase : Prop :=
  (Chan.addr.number = 0 ∧ Chan.pix0.number = 1 ∧ Chan.pix1.number = 2 ∧ Chan.tmr.number = 3)
    ∧ ∀ s : State,
      (∀ (ch : Chan) (j : Nat), j < 4 →
        let a := s.cfg.descBase + 16 * ch.number + 4 * j
        ∃ w, (s.desc ch).packed[j]? = some w ∧ s.descWindowWord a = some w
          ∧ ∀ b, b < 4 → s.descWindowByte (a + b) = some (w.extractLsb' (8 * b) 8))
      ∧ (∀ a, (s.descWindowByte a).isSome = true ↔ s.cfg.descBase ≤ a ∧ a < s.cfg.descBase + 64)
      ∧ ∀ (a : Nat) (size : ElemSize), s.cfg.descBase ≤ a → a < s.cfg.descBase + 64 →
          ∃ f, memRead s.cfg s.mem a size = .error f
end

