-- ==== Sys2Proof/Laws/Config.lean ====
section
/-! SUPPORT. What a valid configuration gives: the constraints of spec/00_scope.md R7, R9, R10, R11 as facts
about numbers, and the sizes they bound. -/

namespace Sys2Proof

/-! ### Geometry -/

theorem Config.geometry (c : Config) :
    1 ≤ c.rows ∧ c.rows ≤ 255 ∧ 1 ≤ c.columns ∧ c.columns ≤ 255 ∧ 1 ≤ c.pwmBits ∧ 1 ≤ c.bitsPerWrite
      ∧ c.bitsPerWrite ≤ 7 ∧ 3 * c.columns ≤ c.bitsPerColumn ∧ c.bitsPerColumn % c.bitsPerWrite = 0
      ∧ (c.clkPhases = 1 ∨ c.clkPhases = 2) ∧ c.writesPerColumn % 2 = 0 ∧ c.tableLen ≤ 65535
      ∧ c.half ≤ 65535 := by
  have h := c.isValid
  simp only [Params.valid, Params.validGeometry, Bool.and_eq_true, Bool.or_eq_true, decide_eq_true_eq] at h
  omega

theorem Config.timing (c : Config) :
    1 ≤ c.unitTime ∧ c.unitTime * 2 ^ (c.pwmBits - 1) ≤ 65535 ∧ 1 ≤ c.sentinelPeriod
      ∧ c.sentinelPeriod ≤ 65535 ∧ 1 ≤ c.brightFracBits ∧ c.brightFracBits ≤ 16 := by
  have h := c.isValid
  simp only [Params.valid, Params.validTimer, Bool.and_eq_true, decide_eq_true_eq] at h
  omega

theorem Config.codes (c : Config) :
    c.rowCodes.length = c.rows ∧ c.rowCodes.Nodup ∧ c.idleCode ∉ c.rowCodes
      ∧ (∀ code ∈ c.rowCodes, code < 2 ^ c.addrWidth) ∧ c.idleCode < 2 ^ c.addrWidth ∧ 1 ≤ c.addrWidth
      ∧ c.addrWidth ≤ 8 := by
  have h := c.isValid
  simp only [Params.valid, Params.validCodes, Bool.and_eq_true, decide_eq_true_eq, Bool.not_eq_true',
    List.all_eq_true, List.contains_eq_mem, decide_eq_false_iff_not] at h
  obtain ⟨⟨⟨⟨-, ⟨⟨⟨⟨⟨⟨h1, h2⟩, h3⟩, h4⟩, h5⟩, h6⟩, h7⟩⟩, -⟩, -⟩, -⟩ := h
  exact ⟨h1, h2, h3, h4, h5, h6, h7⟩

theorem Config.lanes (c : Config) :
    c.laneMap.length = c.groups * c.bitsPerWrite
      ∧ (∀ led ∈ c.leds, (c.laneMap.filterMap Lane.led?).count led = 1)
      ∧ (∀ led ∈ c.laneMap.filterMap Lane.led?, led.1 < c.columns) := by
  have h := c.isValid
  simp only [Params.valid, Params.validLanes, Bool.and_eq_true, decide_eq_true_eq, List.all_eq_true] at h
  obtain ⟨⟨⟨-, ⟨⟨h1, h2⟩, h3⟩⟩, -⟩, -⟩ := h
  exact ⟨h1, h2, h3⟩

theorem Config.dither (c : Config) :
    c.pageRanks.length = c.pages ∧ c.pageRanks.Nodup ∧ (∀ rank ∈ c.pageRanks, rank < c.pages)
      ∧ c.driveCodes.length = 256 ∧ c.driveCodes[0]? = some 0
      ∧ c.driveCodes[255]? = some (2 ^ c.bitDepth - 1) ∧ nonDecreasing c.driveCodes = true := by
  have h := c.isValid
  simp only [Params.valid, Params.validDither, Bool.and_eq_true, decide_eq_true_eq, List.all_eq_true] at h
  obtain ⟨⟨-, ⟨⟨⟨⟨⟨⟨h1, h2⟩, h3⟩, h4⟩, h5⟩, h6⟩, h7⟩⟩, -⟩ := h
  exact ⟨h1, h2, h3, h4, h5, h6, h7⟩

theorem Config.map (c : Config) :
    (c.regions.Pairwise fun a b => a.1 + a.2 ≤ b.1 ∨ b.1 + b.2 ≤ a.1)
      ∧ (∀ region ∈ c.regions, region.1 + region.2 ≤ 2 ^ 32) ∧ c.tmrtabBase % 4 = 0
      ∧ c.descBase % 4 = 0 := by
  have h := c.isValid
  simp only [Params.valid, Params.validMap, Bool.and_eq_true, decide_eq_true_eq, List.all_eq_true] at h
  obtain ⟨-, ⟨⟨h1, h2⟩, h3⟩, h4⟩ := h
  exact ⟨h1, h2, h3, h4⟩

/-! ### Sizes -/

theorem Config.groups_pos (c : Config) : 1 ≤ c.groups := by
  obtain ⟨_, _, h3, _, _, h6, _, h8, h9, _⟩ := c.geometry
  have hle : c.bitsPerWrite ≤ c.bitsPerColumn :=
    Nat.le_of_dvd (by omega) (Nat.dvd_of_mod_eq_zero h9)
  exact (Nat.one_le_div_iff (by omega)).2 hle

theorem Config.clkPhases_pos (c : Config) : 1 ≤ c.clkPhases := by
  have := c.geometry
  omega

/-- WRITES_PER_COLUMN is even and positive, so HALF is at least 1 (R9). -/
theorem Config.writesPerColumn_eq (c : Config) : c.writesPerColumn = 2 * c.half ∧ 1 ≤ c.half := by
  have hmod : c.writesPerColumn % 2 = 0 := by have := c.geometry; omega
  have hpos : 0 < c.writesPerColumn := Nat.mul_pos c.groups_pos c.clkPhases_pos
  unfold Params.half
  omega

theorem Config.nSlots_pos (c : Config) : 1 ≤ c.nSlots := by
  have := c.geometry
  exact Nat.mul_pos (by omega) (by omega)

theorem Config.tableLen_eq (c : Config) : c.tableLen = c.nSlots + 1 := rfl

theorem Config.pages_pos (c : Config) : 1 ≤ c.pages := Nat.two_pow_pos _

/-- One page is N_SLOTS chunks (R8). -/
theorem Config.panelDepthSize_eq (c : Config) : c.panelDepthSize = c.nSlots * c.writesPerColumn := by
  simp only [Params.panelDepthSize, Params.nSlots]
  ring

theorem Config.panelDepthSize_pos (c : Config) : 1 ≤ c.panelDepthSize := by
  have h1 := c.nSlots_pos
  have h2 := c.writesPerColumn_eq
  rw [c.panelDepthSize_eq]
  exact Nat.mul_pos h1 (by omega)

/-- A page below PAGES ends inside the buffer. -/
theorem Config.page_end_le (c : Config) {p : Nat} (hp : p < c.pages) :
    p * c.panelDepthSize + c.panelDepthSize ≤ c.bufSize := by
  have : (p + 1) * c.panelDepthSize ≤ c.pages * c.panelDepthSize := Nat.mul_le_mul_right _ hp
  simpa [Params.bufSize, Nat.add_mul] using this

/-- A chunk of a slot below N_SLOTS ends inside its page. -/
theorem Config.chunk_end_le (c : Config) {k : Nat} (hk : k < c.nSlots) :
    k * c.writesPerColumn + c.writesPerColumn ≤ c.panelDepthSize := by
  have : (k + 1) * c.writesPerColumn ≤ c.nSlots * c.writesPerColumn := Nat.mul_le_mul_right _ hk
  rw [c.panelDepthSize_eq]
  simpa [Nat.add_mul] using this

/-- The word of a page, a slot below N_SLOTS and a word index lies inside the buffer (R77). -/
theorem Config.word_lt_bufSize (c : Config) {p k w : Nat} (hp : p < c.pages) (hk : k < c.nSlots)
    (hw : w < c.writesPerColumn) : p * c.panelDepthSize + k * c.writesPerColumn + w < c.bufSize := by
  have h1 := c.page_end_le hp
  have h2 := c.chunk_end_le hk
  omega

theorem Config.brightOne_le (c : Config) : 2 ≤ c.brightOne ∧ c.brightOne ≤ 65536 := by
  have := c.timing
  constructor
  · exact Nat.pow_le_pow_right (n := 2) (by omega) (show 1 ≤ c.brightFracBits by omega)
  · exact Nat.pow_le_pow_right (n := 2) (by omega) (show c.brightFracBits ≤ 16 by omega)

/-- The six regions lie below 2^32. -/
theorem Config.below (c : Config) :
    c.pixbufBase + c.pixbufSize ≤ 2 ^ 32 ∧ c.addrtabBase + c.tableLen ≤ 2 ^ 32
      ∧ c.tmrtabBase + 4 * c.tableLen ≤ 2 ^ 32 ∧ c.outbuf0Base + c.bufSize ≤ 2 ^ 32
      ∧ c.outbuf1Base + c.bufSize ≤ 2 ^ 32 := by
  obtain ⟨-, h, -, -⟩ := c.map
  simp only [Params.regions, List.mem_cons, List.not_mem_nil, or_false, forall_eq_or_imp, forall_eq] at h
  obtain ⟨h1, h2, h3, -, h5, h6⟩ := h
  exact ⟨h1, h2, h3, h5, h6⟩

/-- The five memory regions are pairwise disjoint. -/
theorem Config.disjoint (c : Config) :
    (c.pixbufBase + c.pixbufSize ≤ c.addrtabBase ∨ c.addrtabBase + c.tableLen ≤ c.pixbufBase)
      ∧ (c.pixbufBase + c.pixbufSize ≤ c.tmrtabBase ∨ c.tmrtabBase + 4 * c.tableLen ≤ c.pixbufBase)
      ∧ (c.pixbufBase + c.pixbufSize ≤ c.outbuf0Base ∨ c.outbuf0Base + c.bufSize ≤ c.pixbufBase)
      ∧ (c.pixbufBase + c.pixbufSize ≤ c.outbuf1Base ∨ c.outbuf1Base + c.bufSize ≤ c.pixbufBase)
      ∧ (c.addrtabBase + c.tableLen ≤ c.tmrtabBase ∨ c.tmrtabBase + 4 * c.tableLen ≤ c.addrtabBase)
      ∧ (c.addrtabBase + c.tableLen ≤ c.outbuf0Base ∨ c.outbuf0Base + c.bufSize ≤ c.addrtabBase)
      ∧ (c.addrtabBase + c.tableLen ≤ c.outbuf1Base ∨ c.outbuf1Base + c.bufSize ≤ c.addrtabBase)
      ∧ (c.tmrtabBase + 4 * c.tableLen ≤ c.outbuf0Base ∨ c.outbuf0Base + c.bufSize ≤ c.tmrtabBase)
      ∧ (c.tmrtabBase + 4 * c.tableLen ≤ c.outbuf1Base ∨ c.outbuf1Base + c.bufSize ≤ c.tmrtabBase)
      ∧ (c.outbuf0Base + c.bufSize ≤ c.outbuf1Base ∨ c.outbuf1Base + c.bufSize ≤ c.outbuf0Base) := by
  obtain ⟨h, -, -, -⟩ := c.map
  simp only [Params.regions, List.pairwise_cons, List.mem_cons, List.not_mem_nil, or_false,
    forall_eq_or_imp, forall_eq] at h
  obtain ⟨⟨pa, pt, -, p0, p1⟩, ⟨at', -, a0, a1⟩, ⟨-, t0, t1⟩, -, h01, -⟩ := h
  exact ⟨pa, pt, p0, p1, at', a0, a1, t0, t1, h01⟩

/-! ### The configuration tables -/

/-- Every row has a code, and it fits ADDR_WIDTH bits. -/
theorem Config.rowCode_mem (c : Config) {r : Nat} (hr : r < c.rows) : c.rowCodes.getD r 0 ∈ c.rowCodes := by
  obtain ⟨hlen, -⟩ := c.codes
  have hr' : r < c.rowCodes.length := by omega
  simp [List.getD_eq_getElem?_getD, hr']

/-- Every code fits a byte. -/
theorem Config.addrWidth_pow_le (c : Config) : 2 ^ c.addrWidth ≤ 256 := by
  obtain ⟨-, -, -, -, -, -, h⟩ := c.codes
  exact Nat.pow_le_pow_right (n := 2) (by omega) (show c.addrWidth ≤ 8 by omega)

/-- Every LED lane names a column of the panel. -/
theorem Config.lane_col_lt (c : Config) {q col : Nat} {ch : Colour}
    (h : c.laneMap.getD q .pad = .led col ch) : col < c.columns := by
  obtain ⟨-, -, hcol⟩ := c.lanes
  by_cases hq : q < c.laneMap.length
  · have hmem : Lane.led col ch ∈ c.laneMap := by
      rw [← h]
      simp [List.getD_eq_getElem?_getD, hq]
    exact hcol (col, ch) (List.mem_filterMap.2 ⟨_, hmem, rfl⟩)
  · rw [List.getD_eq_getElem?_getD, List.getElem?_eq_none (by omega)] at h
    simp at h

end Sys2Proof
end

