-- ==== Sys2Proof/Laws/Memory.lean ====
section
/-! SUPPORT. The laws of the memory: read after write, the canonical form, which addresses are mapped, and what
a sequence of stores does (spec/20_memory.md R61 to R66). -/

namespace Sys2Proof.Machine

/-! ### Read after write -/

theorem Memory.wf_iff (m : Memory) :
    m.wf = true ↔ (m.Pairwise fun a b => a.1 < b.1) ∧ ∀ cell ∈ m, cell.2 ≠ unwritten := by
  simp [Memory.wf, List.all_eq_true]

theorem Memory.wf_nil : Memory.wf [] = true := rfl

theorem Memory.wf_cons {x : Nat} {y : Byte} {rest : Memory} :
    Memory.wf ((x, y) :: rest) = true ↔
      (∀ cell ∈ rest, x < cell.1) ∧ y ≠ unwritten ∧ Memory.wf rest = true := by
  simp only [Memory.wf_iff, List.pairwise_cons, List.mem_cons, forall_eq_or_imp]
  tauto

theorem Memory.wf_tail {cell : Host.Cell} {rest : Memory} (h : Memory.wf (cell :: rest) = true) :
    Memory.wf rest = true := (Memory.wf_cons.1 h).2.2

/-- Below every listed address the memory reads as unwritten. -/
theorem Memory.readByte_of_lt {m : Memory} {a : Nat} (h : ∀ cell ∈ m, a < cell.1) :
    m.readByte a = unwritten := by
  cases m with
  | nil => rfl
  | cons cell rest =>
    obtain ⟨x, y⟩ := cell
    have hx : a < x := h _ (List.mem_cons_self ..)
    simp [Memory.readByte, hx]

theorem Memory.readByte_writeByte_same {m : Memory} (hm : m.wf = true) (a : Nat) (b : Byte) :
    (m.writeByte a b).readByte a = b := by
  induction m with
  | nil =>
    by_cases hb : b = unwritten <;> simp [Memory.writeByte, Memory.readByte, hb]
  | cons cell rest ih =>
    obtain ⟨x, y⟩ := cell
    obtain ⟨hlt, -, hrest⟩ := Memory.wf_cons.1 hm
    unfold Memory.writeByte
    split
    · rename_i hax
      by_cases hb : b = unwritten
      · simp [hb, Memory.readByte, hax]
      · simp [hb, Memory.readByte]
    · rename_i hax
      split
      · rename_i heq
        by_cases hb : b = unwritten
        · subst heq
          rw [if_pos hb, hb]
          exact Memory.readByte_of_lt hlt
        · simp [hb, Memory.readByte]
      · rename_i hne
        simp [Memory.readByte, hax, hne, ih hrest]

theorem Memory.readByte_writeByte_other {m : Memory} (hm : m.wf = true) {a a' : Nat} (h : a' ≠ a) (b : Byte) :
    (m.writeByte a b).readByte a' = m.readByte a' := by
  induction m with
  | nil =>
    by_cases hb : b = unwritten <;> simp [Memory.writeByte, Memory.readByte, hb, h]
  | cons cell rest ih =>
    obtain ⟨x, y⟩ := cell
    obtain ⟨hlt, -, hrest⟩ := Memory.wf_cons.1 hm
    unfold Memory.writeByte
    split
    · rename_i hax
      by_cases hb : b = unwritten
      · simp [hb]
      · have : a' < a → a' < x := by omega
        by_cases hlt' : a' < a
        · simp [hb, Memory.readByte, hlt', this hlt']
        · simp [hb, Memory.readByte, hlt', h]
    · rename_i hax
      split
      · rename_i heq
        subst heq
        by_cases hb : b = unwritten
        · rw [if_pos hb]
          by_cases hlt' : a' < a
          · rw [Memory.readByte_of_lt (fun cell hc => Nat.lt_trans hlt' (hlt cell hc))]
            simp [Memory.readByte, hlt']
          · simp [Memory.readByte, hlt', h]
        · simp [hb, Memory.readByte, h]
      · simp [Memory.readByte, ih hrest]

theorem Memory.readByte_writeByte {m : Memory} (hm : m.wf = true) (a a' : Nat) (b : Byte) :
    (m.writeByte a b).readByte a' = if a' = a then b else m.readByte a' := by
  split
  · rename_i h
    rw [h, Memory.readByte_writeByte_same hm]
  · rename_i h
    exact Memory.readByte_writeByte_other hm h b

/-! ### The canonical form -/

theorem Memory.mem_writeByte {m : Memory} {a : Nat} {b : Byte} {cell : Host.Cell}
    (h : cell ∈ m.writeByte a b) : cell = (a, b) ∨ cell ∈ m := by
  induction m with
  | nil =>
    by_cases hb : b = unwritten <;> simp_all [Memory.writeByte]
  | cons head rest ih =>
    obtain ⟨x, y⟩ := head
    unfold Memory.writeByte at h
    split at h
    · split at h
      · exact .inr h
      · simpa using h
    · split at h
      · split at h
        · exact .inr (List.mem_cons_of_mem _ h)
        · rcases List.mem_cons.1 h with h | h
          · exact .inl h
          · exact .inr (List.mem_cons_of_mem _ h)
      · rcases List.mem_cons.1 h with h | h
        · exact .inr (h ▸ List.mem_cons_self ..)
        · exact (ih h).imp id (List.mem_cons_of_mem _)

theorem Memory.wf_writeByte {m : Memory} (hm : m.wf = true) (a : Nat) (b : Byte) :
    (m.writeByte a b).wf = true := by
  induction m with
  | nil =>
    by_cases hb : b = unwritten
    · simp [Memory.writeByte, hb, Memory.wf_nil]
    · rw [Memory.writeByte, if_neg hb, Memory.wf_cons]
      exact ⟨by simp, hb, Memory.wf_nil⟩
  | cons cell rest ih =>
    obtain ⟨x, y⟩ := cell
    obtain ⟨hlt, hy, hrest⟩ := Memory.wf_cons.1 hm
    unfold Memory.writeByte
    split
    · rename_i hax
      split
      · exact hm
      · rename_i hb
        refine Memory.wf_cons.2 ⟨?_, hb, hm⟩
        intro cell hc
        rcases List.mem_cons.1 hc with rfl | hc
        · exact hax
        · exact Nat.lt_trans hax (hlt cell hc)
    · split
      · rename_i heq
        split
        · exact hrest
        · rename_i hb
          exact Memory.wf_cons.2 ⟨heq ▸ hlt, hb, hrest⟩
      · rename_i hax hne
        refine Memory.wf_cons.2 ⟨?_, hy, ih hrest⟩
        intro cell hc
        rcases Memory.mem_writeByte hc with rfl | hc
        · show x < a
          omega
        · exact hlt cell hc

/-- Two canonical memories that read alike are equal. -/
theorem Memory.ext_readByte {m m' : Memory} (hm : m.wf = true) (hm' : m'.wf = true)
    (h : ∀ a, m.readByte a = m'.readByte a) : m = m' := by
  induction m generalizing m' with
  | nil =>
    cases m' with
    | nil => rfl
    | cons cell rest =>
      obtain ⟨x, y⟩ := cell
      have hx := h x
      simp only [Memory.readByte, Nat.lt_irrefl, if_false, if_true] at hx
      exact absurd hx.symm (Memory.wf_cons.1 hm').2.1
  | cons cell rest ih =>
    obtain ⟨x, y⟩ := cell
    obtain ⟨hlt, hy, hrest⟩ := Memory.wf_cons.1 hm
    cases m' with
    | nil =>
      have hx := h x
      simp only [Memory.readByte, Nat.lt_irrefl, if_false, if_true] at hx
      exact absurd hx hy
    | cons cell' rest' =>
      obtain ⟨x', y'⟩ := cell'
      obtain ⟨hlt', hy', hrest'⟩ := Memory.wf_cons.1 hm'
      have hxx : x = x' := by
        have hx := h x
        have hx' := h x'
        simp only [Memory.readByte, Nat.lt_irrefl, if_false, if_true] at hx hx'
        by_contra hne
        rcases Nat.lt_or_gt_of_ne hne with hl | hl
        · rw [if_pos hl] at hx
          exact hy hx
        · rw [if_pos hl] at hx'
          exact hy' hx'.symm
      subst hxx
      have hyy : y = y' := by
        have hx := h x
        simpa [Memory.readByte] using hx
      subst hyy
      congr 1
      refine ih hrest hrest' fun a => ?_
      rcases Nat.lt_trichotomy a x with ha | rfl | ha
      · rw [Memory.readByte_of_lt fun cell hc => Nat.lt_trans ha (hlt cell hc),
          Memory.readByte_of_lt fun cell hc => Nat.lt_trans ha (hlt' cell hc)]
      · rw [Memory.readByte_of_lt hlt, Memory.readByte_of_lt hlt']
      · have := h a
        simpa [Memory.readByte, Nat.not_lt.2 (Nat.le_of_lt ha), Nat.ne_of_gt ha] using this

/-- Writing the byte an address holds already changes nothing. -/
theorem Memory.writeByte_self {m : Memory} (hm : m.wf = true) (a : Nat) : m.writeByte a (m.readByte a) = m := by
  refine Memory.ext_readByte (Memory.wf_writeByte hm _ _) hm fun a' => ?_
  rw [Memory.readByte_writeByte hm]
  split
  · rename_i h
    rw [h]
  · rfl

/-! ### Mapped addresses -/

theorem inRegion_iff {base size a : Nat} : inRegion base size a = true ↔ base ≤ a ∧ a < base + size := by
  simp [inRegion]

theorem mapped_iff (c : Config) (a : Nat) : mapped c a = true ↔
    (c.pixbufBase ≤ a ∧ a < c.pixbufBase + c.pixbufSize)
      ∨ (c.addrtabBase ≤ a ∧ a < c.addrtabBase + c.tableLen)
      ∨ (c.tmrtabBase ≤ a ∧ a < c.tmrtabBase + 4 * c.tableLen)
      ∨ (c.outbuf0Base ≤ a ∧ a < c.outbuf0Base + c.bufSize)
      ∨ (c.outbuf1Base ≤ a ∧ a < c.outbuf1Base + c.bufSize) := by
  simp only [mapped, Bool.or_eq_true, inRegion_iff, or_assoc]

theorem mapped_pixbuf (c : Config) {o : Nat} (h : o < c.pixbufSize) : mapped c (c.pixbufBase + o) = true :=
  (mapped_iff c _).2 (by omega)

theorem mapped_addrtab (c : Config) {o : Nat} (h : o < c.tableLen) : mapped c (c.addrtabBase + o) = true :=
  (mapped_iff c _).2 (by omega)

theorem mapped_tmrtab (c : Config) {o : Nat} (h : o < 4 * c.tableLen) : mapped c (c.tmrtabBase + o) = true :=
  (mapped_iff c _).2 (by omega)

theorem mapped_outbuf (c : Config) (b : BufferId) {o : Nat} (h : o < c.bufSize) :
    mapped c (outbufBase c b + o) = true := by
  refine (mapped_iff c _).2 ?_
  cases b <;> simp only [outbufBase] <;> omega

/-- The two output buffers and the other regions below 2^32. -/
theorem outbuf_below (c : Config) (b : BufferId) : outbufBase c b + c.bufSize ≤ 2 ^ 32 := by
  have := c.below
  cases b <;> simp only [outbufBase] <;> omega

/-- The two output buffers are disjoint. -/
theorem outbuf_disjoint (c : Config) (b : BufferId) :
    outbufBase c b + c.bufSize ≤ outbufBase c b.other
      ∨ outbufBase c b.other + c.bufSize ≤ outbufBase c b := by
  obtain ⟨-, -, -, -, -, -, -, -, -, h⟩ := c.disjoint
  cases b
  · exact h
  · exact h.symm

/-- An output buffer is disjoint from the other regions. -/
theorem outbuf_disjoint_tables (c : Config) (b : BufferId) :
    (c.pixbufBase + c.pixbufSize ≤ outbufBase c b ∨ outbufBase c b + c.bufSize ≤ c.pixbufBase)
      ∧ (c.addrtabBase + c.tableLen ≤ outbufBase c b ∨ outbufBase c b + c.bufSize ≤ c.addrtabBase)
      ∧ (c.tmrtabBase + 4 * c.tableLen ≤ outbufBase c b ∨ outbufBase c b + c.bufSize ≤ c.tmrtabBase) := by
  obtain ⟨-, -, p0, p1, -, a0, a1, t0, t1, -⟩ := c.disjoint
  cases b
  · exact ⟨p0, a0, t0⟩
  · exact ⟨p1, a1, t1⟩

/-! ### MemRead and MemWrite -/

theorem memRead_one {c : Config} {m : Memory} {a : Nat} (h : mapped c a = true) :
    memRead c m a .one = .ok ((m.readByte a).setWidth 16) := by simp [memRead, h]

theorem memRead_two {c : Config} {m : Memory} {a : Nat} (hal : a % 2 = 0) (h : mapped c a = true)
    (h' : mapped c (a + 1) = true) : memRead c m a .two = .ok (m.readHalf a) := by
  simp [memRead, hal, h, h']

theorem memWrite_one {c : Config} {m : Memory} {a : Nat} {v : BitVec 16} (h : mapped c a = true) :
    memWrite c m a v .one = .ok (m.writeByte a (v.extractLsb' 0 8)) := by simp [memWrite, h]

theorem memWrite_two {c : Config} {m : Memory} {a : Nat} {v : BitVec 16} (hal : a % 2 = 0)
    (h : mapped c a = true) (h' : mapped c (a + 1) = true) :
    memWrite c m a v .two
      = .ok ((m.writeByte a (v.extractLsb' 0 8)).writeByte (a + 1) (v.extractLsb' 8 8)) := by
  simp [memWrite, hal, h, h']

@[simp] theorem extract_setWidth_byte (b : Byte) : (b.setWidth 16).extractLsb' 0 8 = b := by
  apply BitVec.eq_of_toNat_eq
  simp only [BitVec.extractLsb'_toNat, BitVec.toNat_setWidth, Nat.shiftRight_zero]
  have := b.isLt
  omega

/-- A stored half is read back whole. -/
theorem extract_append_halves (v : BitVec 16) : v.extractLsb' 8 8 ++ v.extractLsb' 0 8 = v := by
  ext i hi
  simp only [BitVec.getElem_append, BitVec.getElem_extractLsb']
  split
  · simp
    rfl
  · rename_i h
    simp only [BitVec.getLsbD_eq_getElem (show 8 + (i - 8) < 16 by omega)]
    congr 1
    omega

/-! ### Sequences of stores -/

/-- The bytes one store writes, lowest address first. -/
def Store.cells (st : Store) : List Host.Cell :=
  match st.size with
  | .one => [(st.addr, st.value.extractLsb' 0 8)]
  | .two => [(st.addr, st.value.extractLsb' 0 8), (st.addr + 1, st.value.extractLsb' 8 8)]

/-- The store has a step: aligned and mapped. -/
def Store.legal (c : Config) (st : Store) : Prop :=
  match st.size with
  | .one => mapped c st.addr = true
  | .two => st.addr % 2 = 0 ∧ mapped c st.addr = true ∧ mapped c (st.addr + 1) = true

/-- Write a list of bytes, in order. -/
def writeCells (m : Memory) (cells : List Host.Cell) : Memory :=
  cells.foldl (fun m cell => m.writeByte cell.1 cell.2) m

@[simp] theorem writeCells_nil (m : Memory) : writeCells m [] = m := rfl

theorem writeCells_cons (m : Memory) (cell : Host.Cell) (cells : List Host.Cell) :
    writeCells m (cell :: cells) = writeCells (m.writeByte cell.1 cell.2) cells := rfl

theorem writeCells_append (m : Memory) (l l' : List Host.Cell) :
    writeCells m (l ++ l') = writeCells (writeCells m l) l' := by simp [writeCells]

theorem wf_writeCells {m : Memory} (hm : m.wf = true) (cells : List Host.Cell) :
    (writeCells m cells).wf = true := by
  induction cells generalizing m with
  | nil => exact hm
  | cons cell cells ih => exact ih (Memory.wf_writeByte hm _ _)

theorem mem_writeCells {m : Memory} {cells : List Host.Cell} {cell : Host.Cell}
    (h : cell ∈ writeCells m cells) : cell ∈ cells ∨ cell ∈ m := by
  induction cells generalizing m with
  | nil => exact .inr h
  | cons head cells ih =>
    rcases ih h with h | h
    · exact .inl (List.mem_cons_of_mem _ h)
    · rcases Memory.mem_writeByte h with rfl | h
      · exact .inl (List.mem_cons_self ..)
      · exact .inr h

/-- An address no byte of the list goes to reads as before. -/
theorem readByte_writeCells_other {m : Memory} (hm : m.wf = true) {cells : List Host.Cell} {a : Nat}
    (h : ∀ cell ∈ cells, cell.1 ≠ a) : (writeCells m cells).readByte a = m.readByte a := by
  induction cells generalizing m with
  | nil => rfl
  | cons cell cells ih =>
    rw [writeCells_cons, ih (Memory.wf_writeByte hm _ _) fun x hx => h x (List.mem_cons_of_mem _ hx)]
    exact Memory.readByte_writeByte_other hm (fun e => h cell (List.mem_cons_self ..) e.symm) _

/-- Where no address occurs twice, every byte of the list is read back. -/
theorem readByte_writeCells_mem {m : Memory} (hm : m.wf = true) {cells : List Host.Cell}
    (hnd : (cells.map Prod.fst).Nodup) {a : Nat} {b : Byte} (h : (a, b) ∈ cells) :
    (writeCells m cells).readByte a = b := by
  induction cells generalizing m with
  | nil => simp at h
  | cons cell cells ih =>
    rw [List.map_cons, List.nodup_cons] at hnd
    rw [writeCells_cons]
    rcases List.mem_cons.1 h with heq | hmem
    · subst heq
      rw [readByte_writeCells_other (Memory.wf_writeByte hm _ _)]
      · exact Memory.readByte_writeByte_same hm _ _
      · intro x hx e
        exact hnd.1 (List.mem_map.2 ⟨x, hx, e⟩)
    · exact ih (Memory.wf_writeByte hm _ _) hnd.2 hmem

theorem memWrite_legal {c : Config} {m : Memory} {st : Store} (h : st.legal c) :
    memWrite c m st.addr st.value st.size = .ok (writeCells m st.cells) := by
  obtain ⟨a, sz, v⟩ := st
  cases sz with
  | one => exact memWrite_one h
  | two => exact memWrite_two h.1 h.2.1 h.2.2

/-- What a sequence of legal stores does: it writes their bytes in order and never stops. -/
theorem storeAll_legal {c : Config} {m : Memory} {l : List Store} (h : ∀ st ∈ l, st.legal c) :
    storeAll c m l = .ok (writeCells m (l.flatMap Store.cells)) := by
  induction l generalizing m with
  | nil => rfl
  | cons st rest ih =>
    have hst := memWrite_legal (m := m) (h st (List.mem_cons_self ..))
    simp only [storeAll, hst, List.flatMap_cons, writeCells_append]
    exact ih fun x hx => h x (List.mem_cons_of_mem _ hx)

/-- If a sequence of stores completes, the memory keeps its canonical form. -/
theorem wf_memWrite {c : Config} {m m' : Memory} {a : Nat} {v : BitVec 16} {sz : ElemSize}
    (hm : m.wf = true) (h : memWrite c m a v sz = .ok m') : m'.wf = true := by
  cases sz with
  | one =>
    simp only [memWrite] at h
    split at h
    · cases h
      exact Memory.wf_writeByte hm _ _
    · cases h
  | two =>
    simp only [memWrite] at h
    split at h
    · cases h
    · split at h
      · cases h
        exact Memory.wf_writeByte (Memory.wf_writeByte hm _ _) _ _
      · cases h

theorem wf_storeAll {c : Config} {m m' : Memory} {l : List Store} (hm : m.wf = true)
    (h : storeAll c m l = .ok m') : m'.wf = true := by
  induction l generalizing m with
  | nil =>
    cases h
    exact hm
  | cons st rest ih =>
    unfold storeAll at h
    split at h
    · rename_i m1 h1
      exact ih (wf_memWrite hm h1) h
    · cases h

/-- Bytes written to mapped addresses leave every listed address mapped. -/
theorem allMapped_writeCells {c : Config} {m : Memory} {cells : List Host.Cell}
    (hm : (m.all fun cell => mapped c cell.1) = true) (hc : ∀ cell ∈ cells, mapped c cell.1 = true) :
    ((writeCells m cells).all fun cell => mapped c cell.1) = true := by
  rw [List.all_eq_true] at hm ⊢
  intro cell h
  rcases mem_writeCells h with h | h
  · exact hc cell h
  · exact hm cell h

/-! ### The register window (spec/30_encoding.md R118) -/

theorem Chan.number_lt (ch : Chan) : ch.number < 4 := by cases ch <;> decide

@[simp] theorem Chan.ofNumber_number (ch : Chan) : Chan.ofNumber ch.number = some ch := by cases ch <;> rfl

theorem Chan.isSome_ofNumber (n : Nat) : (Chan.ofNumber n).isSome = true ↔ n < 4 := by
  match n with
  | 0 | 1 | 2 | 3 => simp [Chan.ofNumber]
  | k + 4 => simp [Chan.ofNumber]

/-- Byte `j` of the image of channel `ch` stands at DESC_BASE + 16 × the channel's number + `j`. -/
theorem State.descWindowByte_image (s : State) (ch : Chan) {j : Nat} (h : j < 16) :
    s.descWindowByte (s.cfg.descBase + 16 * ch.number + j) = some ((s.desc ch).imageByte j) := by
  have hd : (s.cfg.descBase + 16 * ch.number + j - s.cfg.descBase) / 16 = ch.number := by omega
  have hm : (s.cfg.descBase + 16 * ch.number + j - s.cfg.descBase) % 16 = j := by omega
  rw [State.descWindowByte, if_pos (by omega), hd, hm, Chan.ofNumber_number, Option.map_some]

end Sys2Proof.Machine
end

