-- ==== Sys2Proof/Laws/Encoder.lean ====
section
/-! SUPPORT. The encoder's positions, words and steps (spec/30_encoding.md R107 to R115,
spec/42_pixel_encoder.md R163 to R170). -/

namespace Sys2Proof.Machine

/-! ### Positions -/

theorem posPage_lt (c : Config) {pos : Nat} (h : pos < c.bufSize) : posPage c pos < c.pages := by
  have hpds := c.panelDepthSize_pos
  exact (Nat.div_lt_iff_lt_mul (by omega)).2 h

theorem posSlot_lt (c : Config) (pos : Nat) : posSlot c pos < c.nSlots := by
  have hw := c.writesPerColumn_eq
  have hlt : pos % c.panelDepthSize < c.panelDepthSize := Nat.mod_lt _ c.panelDepthSize_pos
  rw [c.panelDepthSize_eq] at hlt
  refine (Nat.div_lt_iff_lt_mul (by omega)).2 ?_
  rw [c.panelDepthSize_eq]
  exact hlt

theorem posWord_lt (c : Config) (pos : Nat) : posWord c pos < c.writesPerColumn := by
  have hw := c.writesPerColumn_eq
  exact Nat.mod_lt _ (by omega)

theorem posRow_lt (c : Config) (pos : Nat) : posRow c pos < c.rows := by
  have := c.geometry
  exact (Nat.div_lt_iff_lt_mul (by omega)).2 (posSlot_lt c pos)

theorem posPlane_lt (c : Config) (pos : Nat) : posPlane c pos < c.pwmBits := by
  have := c.geometry
  exact Nat.mod_lt _ (by omega)

/-- A position is that of its own page, row, bit-plane and word (R107). -/
theorem bufferPos_parts (c : Config) (pos : Nat) :
    bufferPos c (posPage c pos) (posRow c pos) (posPlane c pos) (posWord c pos) = pos := by
  have h1 := Nat.div_add_mod' (posSlot c pos) c.pwmBits
  have h2 := Nat.div_add_mod' (pos % c.panelDepthSize) c.writesPerColumn
  have h3 := Nat.div_add_mod' pos c.panelDepthSize
  simp only [bufferPos, posPage, posRow, posPlane, posWord] at *
  rw [h1]
  simp only [posSlot] at *
  omega

/-- The slot of a position built from a page, a slot and a word. -/
theorem posSlot_of_parts (c : Config) {p k w : Nat} (hk : k < c.nSlots) (hw : w < c.writesPerColumn) :
    posSlot c (p * c.panelDepthSize + k * c.writesPerColumn + w) = k
      ∧ posWord c (p * c.panelDepthSize + k * c.writesPerColumn + w) = w
      ∧ posPage c (p * c.panelDepthSize + k * c.writesPerColumn + w) = p := by
  have hchunk := c.chunk_end_le hk
  have hin : k * c.writesPerColumn + w < c.panelDepthSize := by omega
  have hmod : (p * c.panelDepthSize + k * c.writesPerColumn + w) % c.panelDepthSize
      = k * c.writesPerColumn + w := by
    rw [Nat.add_assoc, Nat.mul_add_mod_self_right, Nat.mod_eq_of_lt hin]
  refine ⟨?_, ?_, ?_⟩
  · rw [posSlot, hmod, Nat.add_comm, Nat.add_mul_div_right _ _ (by omega), Nat.div_eq_of_lt hw, Nat.zero_add]
  · rw [posWord, hmod, Nat.mul_add_mod_self_right, Nat.mod_eq_of_lt hw]
  · rw [posPage, Nat.add_assoc, Nat.add_comm, Nat.add_mul_div_right _ _ (by omega), Nat.div_eq_of_lt hin,
      Nat.zero_add]

/-! ### The bus word -/

theorem lanesValue_lt (bit : Nat → Bool) (n : Nat) : lanesValue bit n < 2 ^ n := by
  induction n with
  | zero => simp [lanesValue]
  | succ n ih =>
    have hb : (bit n).toNat <<< n ≤ 2 ^ n := by
      cases bit n <;> simp [Nat.shiftLeft_eq]
    rw [Nat.pow_succ]
    simp only [lanesValue]
    omega

theorem testBit_toNat (b : Bool) (j : Nat) : b.toNat.testBit j = (decide (j = 0) && b) := by
  cases b
  · simp
  · cases j <;> simp [Nat.testBit_succ]

theorem lanesValue_testBit (bit : Nat → Bool) (n l : Nat) :
    (lanesValue bit n).testBit l = (decide (l < n) && bit l) := by
  induction n with
  | zero => simp [lanesValue]
  | succ n ih =>
    have hsum : lanesValue bit (n + 1) = 2 ^ n * (bit n).toNat + lanesValue bit n := by
      simp only [lanesValue, Nat.shiftLeft_eq]
      ring
    rw [hsum, Nat.testBit_two_pow_mul_add _ (lanesValue_lt bit n)]
    split
    · rename_i h
      rw [ih]
      simp [h, show l < n + 1 by omega]
    · rename_i h
      rw [testBit_toNat]
      rcases Nat.eq_or_lt_of_le (Nat.not_lt.1 h) with rfl | hlt
      · simp
      · simp [show ¬ l - n = 0 by omega, show ¬ l < n + 1 by omega]

/-- The lanes of the word at a position. -/
def wordLane (c : Config) (pix : Nat → Byte) (pos l : Nat) : Bool :=
  laneBit c pix (posRow c pos) (posPage c pos) (posPlane c pos) (laneOf c (posWord c pos / c.clkPhases) l)

theorem busWord_eq (c : Config) (pix : Nat → Byte) (pos : Nat) :
    busWord c pix pos = BitVec.ofNat 8 (lanesValue (wordLane c pix pos) c.bitsPerWrite
      ||| ((clockBit c (posWord c pos % c.clkPhases)).toNat <<< c.bitsPerWrite)) := rfl

/-- Bits above the clock bit are 0 (spec/30_encoding.md R110). -/
theorem busWord_toNat_lt (c : Config) (pix : Nat → Byte) (pos : Nat) :
    (busWord c pix pos).toNat < 2 ^ (c.bitsPerWrite + 1) := by
  refine Nat.lt_of_le_of_lt (Nat.mod_le _ _) ?_
  have h := lanesValue_lt (wordLane c pix pos) c.bitsPerWrite
  refine Nat.or_lt_two_pow (Nat.lt_trans h ?_) ?_
  · exact Nat.pow_lt_pow_right (by omega) (by omega)
  · have hpow : 2 ^ (c.bitsPerWrite + 1) = 2 * 2 ^ c.bitsPerWrite := by rw [Nat.pow_succ]; omega
    have := Nat.two_pow_pos c.bitsPerWrite
    cases clockBit c (posWord c pos % c.clkPhases)
    · simp
    · simp [Nat.shiftLeft_eq]
      omega

/-- Each bit of the word: the data lanes, the clock, zeros (spec/30_encoding.md R110, R115). -/
theorem busWord_getLsbD (c : Config) (pix : Nat → Byte) (pos l : Nat) (hl : l < 8) :
    (busWord c pix pos).getLsbD l =
      if l < c.bitsPerWrite then wordLane c pix pos l
      else decide (l = c.bitsPerWrite) && clockBit c (posWord c pos % c.clkPhases) := by
  rw [busWord_eq, BitVec.getLsbD_ofNat, Nat.testBit_or, lanesValue_testBit, Nat.testBit_shiftLeft]
  split
  · rename_i h
    simp [h, hl, show ¬ c.bitsPerWrite ≤ l by omega]
  · rename_i h
    rw [testBit_toNat]
    rcases Nat.eq_or_lt_of_le (Nat.not_lt.1 h) with rfl | hlt
    · simp [hl]
    · simp [hl, h, show l ≠ c.bitsPerWrite by omega, show ¬ l - c.bitsPerWrite = 0 by omega]

/-- A pixel byte the encoder reads lies in PIXBUF. -/
theorem pixelOffset_lt (c : Config) {col row : Nat} (ch : Colour) (hc : col < c.columns) (hr : row < c.rows) :
    pixelOffset c col row + ch.index < c.pixbufSize := by
  have hrow : row * c.columns + c.columns ≤ c.rows * c.columns := by
    have : (row + 1) * c.columns ≤ c.rows * c.columns := Nat.mul_le_mul_right _ hr
    simpa [Nat.add_mul] using this
  have hidx : ch.index < 3 := by cases ch <;> decide
  simp only [pixelOffset, Params.pixbufSize, Nat.mul_assoc]
  omega

/-- WORD depends on the pixel bytes of PIXBUF only. -/
theorem busWord_congr (c : Config) {pix pix' : Nat → Byte} (h : ∀ o, o < c.pixbufSize → pix o = pix' o)
    (pos : Nat) : busWord c pix pos = busWord c pix' pos := by
  have hlane : wordLane c pix pos = wordLane c pix' pos := by
    funext l
    unfold wordLane
    cases hl : laneOf c (posWord c pos / c.clkPhases) l with
    | pad => rfl
    | led col ch =>
      simp only [laneBit]
      rw [h _ (pixelOffset_lt c ch (c.lane_col_lt hl) (posRow_lt c pos))]
  rw [busWord_eq, busWord_eq, hlane]

/-! ### Commands on PIXBUF -/

theorem pixelAddr_legal {c : Config} {col row : BitVec 8} (h : pixelInRange c col row = true) (r g b : BitVec 8) :
    ∀ st ∈ pixelStores c col row r g b, st.legal c := by
  simp only [pixelInRange, Bool.and_eq_true, decide_eq_true_eq] at h
  have hlt := pixelOffset_lt c .blue h.1 h.2
  simp only [Colour.index] at hlt
  intro st hst
  simp only [pixelStores, pixelAddr, List.mem_cons, List.not_mem_nil, or_false] at hst
  rcases hst with rfl | rfl | rfl
  · exact mapped_pixbuf c (by omega)
  · simpa [Store.legal, Nat.add_assoc] using
      mapped_pixbuf c (o := pixelOffset c col.toNat row.toNat + 1) (by omega)
  · simpa [Store.legal, Nat.add_assoc] using
      mapped_pixbuf c (o := pixelOffset c col.toNat row.toNat + 2) (by omega)

/-- The three bytes SETPIX writes. -/
def pixelCells (c : Config) (col row r g b : BitVec 8) : List Host.Cell :=
  [(pixelAddr c col row, r), (pixelAddr c col row + 1, g), (pixelAddr c col row + 2, b)]

theorem execSetpix_eq (col row r g b : BitVec 8) {s : State} (h : s.halted = false) :
    execSetpix col row r g b s =
      if pixelInRange s.cfg col row then
        .next { s with mem := writeCells s.mem (pixelCells s.cfg col row r g b) }
      else .next s := by
  simp only [execSetpix, accept, h, Bool.false_eq_true, if_false, dropped]
  split
  · rename_i hr
    rw [storeAll_legal (pixelAddr_legal hr r g b)]
    simp [withMemory, pixelStores, pixelCells, Store.cells]
  · rfl

theorem execMemwr_eq (off : BitVec 24) (val : BitVec 8) {s : State} (h : s.halted = false) :
    execMemwr off val s =
      if offsetInRange s.cfg off then
        .next { s with mem := s.mem.writeByte (windowAddr s.cfg off) val }
      else .next s := by
  simp only [execMemwr, accept, h, Bool.false_eq_true, if_false, dropped]
  split
  · rename_i hr
    have hmap : mapped s.cfg (windowAddr s.cfg off) = true :=
      mapped_pixbuf s.cfg (by simpa [offsetInRange] using hr)
    simp [memWrite_one hmap, withMemory]
  · rfl

theorem execMemrd_eq (off : BitVec 24) {s : State} (h : s.halted = false) :
    execMemrd off 0#8 s =
      if offsetInRange s.cfg off then
        .next { s with resp := (s.mem.readByte (windowAddr s.cfg off)).setWidth 32 }
      else .next s := by
  simp only [execMemrd, accept, h, Bool.false_eq_true, if_false, dropped, if_true]
  split
  · rename_i hr
    have hmap : mapped s.cfg (windowAddr s.cfg off) = true :=
      mapped_pixbuf s.cfg (by simpa [offsetInRange] using hr)
    rw [memRead_one hmap]
    simp
  · rfl

/-! ### ENCSTEP -/

theorem encStep_eq {s : State} (h : s.encPos.toNat < s.cfg.bufSize) :
    encStep s = .next (advanceEncoder { s with mem := s.mem.writeByte (encoderAddr s) (encoderWord s) }) := by
  have hmap : mapped s.cfg (encoderAddr s) = true := mapped_outbuf s.cfg s.encBack h
  simp [encStep, h, memWrite_one hmap, withMemory]

/-- ENC_POS does not wrap. -/
theorem encPos_succ {s : State} (h : s.encPos.toNat < s.cfg.bufSize) :
    (s.encPos + 1#32).toNat = s.encPos.toNat + 1 := by
  have hbelow := s.cfg.below
  obtain ⟨-, -, -, -, -, -, -, -, -, hdisj⟩ := s.cfg.disjoint
  rw [BitVec.toNat_add]
  refine Nat.mod_eq_of_lt ?_
  simp only [BitVec.toNat_ofNat]
  omega

theorem advanceEncoder_eq {s : State} (h : s.encPos.toNat < s.cfg.bufSize) :
    advanceEncoder s =
      if s.encPos.toNat + 1 = s.cfg.bufSize then
        { s with encPos := s.encPos + 1#32, pending := true, encBusy := false }
      else { s with encPos := s.encPos + 1#32 } := by
  simp only [advanceEncoder, encPos_succ h]
  rfl

end Sys2Proof.Machine
end

