-- ==== Sys2Proof/Laws/PerInstr.lean ====
section
/-! SUPPORT. Statements made per instruction, one lemma per constructor of Instr.

RowMatch: the word of a well-formed command is the command of its row of the table of spec/30_encoding.md R97. -/

namespace Sys2Proof.Laws.RowMatch

/-- The word of a well-formed command matches its own row (spec/30_encoding.md R97). -/
def Statement (i : Instr) : Prop := i.wellFormed = true → i.opcodeRow.matches (encode i) = true

/-- A word is a match when its bits are, one by one. -/
theorem matches_of_bits {row : OpcodeRow} {w : CommandWord}
    (h : ∀ j, j < 64 → (w.getLsbD j && row.mask.getLsbD j) = row.fixed.getLsbD j) : row.matches w = true := by
  simp only [OpcodeRow.matches, decide_eq_true_eq]
  refine BitVec.eq_of_getLsbD_eq fun j hj => ?_
  rw [BitVec.getLsbD_and]
  exact h j hj

theorem begin : Statement .begin := fun _ => by decide

theorem setbright (raw : BitVec 32) : Statement (.setbright raw) := fun _ => by
  refine matches_of_bits fun j hj => ?_
  simp only [encode, Instr.opcode, Instr.operandBits, Instr.opcodeRow, BitVec.getLsbD_append]
  interval_cases j <;> simp

theorem getbright : Statement .getbright := fun _ => by decide

theorem setpix (col row r g b : BitVec 8) : Statement (.setpix col row r g b) := fun _ => by
  refine matches_of_bits fun j hj => ?_
  simp only [encode, Instr.opcode, Instr.operandBits, Instr.opcodeRow, BitVec.getLsbD_append]
  interval_cases j <;> simp

theorem getpixels : Statement .getpixels := fun _ => by decide

theorem showStart : Statement .showStart := fun _ => by decide

theorem refresh : Statement .refresh := fun _ => by decide

theorem memwr (off : BitVec 24) (val : BitVec 8) : Statement (.memwr off val) := fun _ => by
  refine matches_of_bits fun j hj => ?_
  simp only [encode, Instr.opcode, Instr.operandBits, Instr.opcodeRow, BitVec.getLsbD_append]
  interval_cases j <;> simp

theorem memrd (off : BitVec 24) (val : BitVec 8) : Statement (.memrd off val) := fun h => by
  simp only [Instr.wellFormed, decide_eq_true_eq] at h
  subst h
  refine matches_of_bits fun j hj => ?_
  simp only [encode, Instr.opcode, Instr.operandBits, Instr.opcodeRow, BitVec.getLsbD_append]
  interval_cases j <;> simp

end Sys2Proof.Laws.RowMatch
end

