-- ==== Sys2Proof/Laws/Tables.lean ====
section
/-! SUPPORT. What BUILD_ADDR and BUILD_TMR do, and the commands SETBRIGHT and BEGIN over them. -/

namespace Sys2Proof.Machine

/-! ### BUILD_ADDR -/

/-- The bytes BUILD_ADDR writes. -/
def addrCells (c : Config) : List Host.Cell :=
  (List.range c.tableLen).map fun k => (c.addrtabBase + k, BitVec.ofNat 8 (addrEntry c k))

theorem extract_ofNat_low (n : Nat) : (BitVec.ofNat 16 n).extractLsb' 0 8 = BitVec.ofNat 8 n := by
  apply BitVec.eq_of_toNat_eq
  simp only [BitVec.extractLsb'_toNat, BitVec.toNat_ofNat, Nat.shiftRight_zero]
  omega

theorem addrStores_cells (c : Config) : (addrStores c).flatMap Store.cells = addrCells c := by
  simp only [addrStores, addrCells, List.flatMap_map, Store.cells, extract_ofNat_low]
  exact List.map_eq_flatMap.symm

theorem addrStores_legal (c : Config) : ∀ st ∈ addrStores c, st.legal c := by
  intro st hst
  obtain ⟨k, hk, rfl⟩ := List.mem_map.1 hst
  exact mapped_addrtab c (List.mem_range.1 hk)

theorem buildAddr_eq (c : Config) (m : Memory) : buildAddr c m = .ok (writeCells m (addrCells c)) := by
  rw [buildAddr, storeAll_legal (addrStores_legal c), addrStores_cells]

theorem addrCells_addr {c : Config} {cell : Host.Cell} (h : cell ∈ addrCells c) :
    c.addrtabBase ≤ cell.1 ∧ cell.1 < c.addrtabBase + c.tableLen := by
  obtain ⟨k, hk, rfl⟩ := List.mem_map.1 h
  have := List.mem_range.1 hk
  simp only
  omega

theorem addrCells_nodup (c : Config) : ((addrCells c).map Prod.fst).Nodup := by
  simp only [addrCells, List.map_map]
  refine List.Nodup.map (fun a b hab => ?_) List.nodup_range
  simpa using hab

/-- After BUILD_ADDR entry k of ADDRTAB is `addrEntry c k`. -/
theorem readByte_buildAddr {c : Config} {m : Memory} (hm : m.wf = true) {k : Nat} (hk : k < c.tableLen) :
    (writeCells m (addrCells c)).readByte (c.addrtabBase + k) = BitVec.ofNat 8 (addrEntry c k) :=
  readByte_writeCells_mem hm (addrCells_nodup c) (List.mem_map.2 ⟨k, List.mem_range.2 hk, rfl⟩)

/-- BUILD_ADDR writes ADDRTAB and nothing else. -/
theorem readByte_buildAddr_other {c : Config} {m : Memory} (hm : m.wf = true) {a : Nat}
    (ha : a < c.addrtabBase ∨ c.addrtabBase + c.tableLen ≤ a) :
    (writeCells m (addrCells c)).readByte a = m.readByte a := by
  refine readByte_writeCells_other hm fun cell hc => ?_
  have := addrCells_addr hc
  omega

/-! ### BUILD_TMR -/

/-- The two bytes of a 16-bit value at an address, lowest first. -/
def halfCells (a n : Nat) : List Host.Cell :=
  [(a, (BitVec.ofNat 16 n).extractLsb' 0 8), (a + 1, (BitVec.ofNat 16 n).extractLsb' 8 8)]

/-- The bytes BUILD_TMR writes. -/
def tmrCells (c : Config) (bright : Nat) : List Host.Cell :=
  (List.range c.tableLen).flatMap fun k =>
    halfCells (c.tmrtabBase + 4 * k) (periodEntry c k)
      ++ halfCells (c.tmrtabBase + 4 * k + 2) (dutyEntry c bright k)

theorem tmrStores_cells (c : Config) (bright : Nat) :
    (tmrStores c bright).flatMap Store.cells = tmrCells c bright := by
  simp [tmrStores, tmrCells, Store.cells, List.flatMap_assoc, halfCells]

theorem tmrStores_legal (c : Config) (bright : Nat) : ∀ st ∈ tmrStores c bright, st.legal c := by
  intro st hst
  obtain ⟨k, hk, hst⟩ := List.mem_flatMap.1 hst
  have hk := List.mem_range.1 hk
  have hal := c.map.2.2.1
  simp only [List.mem_cons, List.not_mem_nil, or_false] at hst
  rcases hst with rfl | rfl <;>
    refine ⟨?_, (mapped_iff c _).2 ?_, (mapped_iff c _).2 ?_⟩ <;> simp only <;> omega

theorem buildTmr_eq (c : Config) (bright : Nat) (m : Memory) :
    buildTmr c bright m = .ok (writeCells m (tmrCells c bright)) := by
  rw [buildTmr, storeAll_legal (tmrStores_legal c bright), tmrStores_cells]

theorem tmrCells_addr {c : Config} {bright : Nat} {cell : Host.Cell} (h : cell ∈ tmrCells c bright) :
    c.tmrtabBase ≤ cell.1 ∧ cell.1 < c.tmrtabBase + 4 * c.tableLen := by
  obtain ⟨k, hk, hcell⟩ := List.mem_flatMap.1 h
  have := List.mem_range.1 hk
  simp only [halfCells, List.cons_append, List.nil_append, List.mem_cons, List.not_mem_nil, or_false] at hcell
  rcases hcell with rfl | rfl | rfl | rfl <;> simp only <;> omega

theorem tmrCells_keys (c : Config) (bright : Nat) :
    (tmrCells c bright).map Prod.fst = (List.range (4 * c.tableLen)).map (c.tmrtabBase + ·) := by
  unfold tmrCells
  generalize c.tableLen = n
  induction n with
  | zero => rfl
  | succ n ih =>
    rw [List.range_succ, List.flatMap_append, List.map_append, ih,
      show 4 * (n + 1) = 4 * n + 1 + 1 + 1 + 1 by omega, List.range_succ, List.range_succ, List.range_succ,
      List.range_succ]
    simp [halfCells, Nat.add_assoc]

theorem tmrCells_nodup (c : Config) (bright : Nat) : ((tmrCells c bright).map Prod.fst).Nodup := by
  rw [tmrCells_keys]
  refine List.Nodup.map (fun a b hab => ?_) List.nodup_range
  simpa using hab

theorem readHalf_of_cells {m : Memory} (hm : m.wf = true) {cells : List Host.Cell}
    (hnd : (cells.map Prod.fst).Nodup) {a n : Nat} (h : ∀ cell ∈ halfCells a n, cell ∈ cells) :
    (writeCells m cells).readHalf a = BitVec.ofNat 16 n := by
  unfold Memory.readHalf
  rw [readByte_writeCells_mem hm hnd (h (a, _) (List.mem_cons_self ..)),
    readByte_writeCells_mem hm hnd (h (a + 1, _) (List.mem_cons_of_mem _ (List.mem_cons_self ..)))]
  exact extract_append_halves _

/-- After BUILD_TMR entry k of TMRTAB is (period[k], duty[k]). -/
theorem readHalf_buildTmr {c : Config} {bright : Nat} {m : Memory} (hm : m.wf = true) {k : Nat}
    (hk : k < c.tableLen) :
    (writeCells m (tmrCells c bright)).readHalf (c.tmrtabBase + 4 * k) = BitVec.ofNat 16 (periodEntry c k)
      ∧ (writeCells m (tmrCells c bright)).readHalf (c.tmrtabBase + 4 * k + 2)
          = BitVec.ofNat 16 (dutyEntry c bright k) := by
  have hnd := tmrCells_nodup c bright
  constructor <;>
    exact readHalf_of_cells hm hnd fun cell hc =>
      List.mem_flatMap.2 ⟨k, List.mem_range.2 hk, by simp [hc]⟩

/-- BUILD_TMR writes TMRTAB and nothing else. -/
theorem readByte_buildTmr_other {c : Config} {bright : Nat} {m : Memory} (hm : m.wf = true) {a : Nat}
    (ha : a < c.tmrtabBase ∨ c.tmrtabBase + 4 * c.tableLen ≤ a) :
    (writeCells m (tmrCells c bright)).readByte a = m.readByte a := by
  refine readByte_writeCells_other hm fun cell hc => ?_
  have := tmrCells_addr hc
  omega

/-! ### The values of the entries -/

theorem plane_lt (c : Config) (k : Nat) : k % c.pwmBits < c.pwmBits :=
  Nat.mod_lt _ (by have := c.geometry; omega)

theorem unitB_le (c : Config) {bright : Nat} (h : bright ≤ c.brightOne) : unitB c bright ≤ c.unitTime := by
  have hpos := c.brightOne_le
  unfold unitB
  calc c.unitTime * bright / c.brightOne ≤ c.unitTime * c.brightOne / c.brightOne :=
        Nat.div_le_div_right (Nat.mul_le_mul_left _ h)
    _ = c.unitTime := Nat.mul_div_cancel _ (by omega)

/-- No value overflows 16 bits (spec/41_timer_table.md R149). -/
theorem shifted_unit_le (c : Config) (k : Nat) : c.unitTime <<< (k % c.pwmBits) ≤ 65535 := by
  have h := c.timing.2.1
  have hk := plane_lt c k
  rw [Nat.shiftLeft_eq]
  refine Nat.le_trans (Nat.mul_le_mul_left _ ?_) h
  exact Nat.pow_le_pow_right (by omega) (by omega)

theorem periodEntry_le (c : Config) (k : Nat) : periodEntry c k ≤ 65535 := by
  unfold periodEntry
  split
  · exact shifted_unit_le c k
  · exact c.timing.2.2.2.1

theorem dutyEntry_le_periodEntry (c : Config) {bright : Nat} (h : bright ≤ c.brightOne) (k : Nat) :
    dutyEntry c bright k ≤ periodEntry c k := by
  unfold dutyEntry periodEntry
  split
  · rw [Nat.shiftLeft_eq, Nat.shiftLeft_eq]
    exact Nat.mul_le_mul_right _ (unitB_le c h)
  · exact Nat.zero_le _

/-- Every AddressTable entry is a row code or IDLE_CODE. -/
theorem addrEntry_mem (c : Config) (k : Nat) : addrEntry c k ∈ c.idleCode :: c.rowCodes := by
  unfold addrEntry
  split
  · rename_i hk
    refine List.mem_cons_of_mem _ (c.rowCode_mem ?_)
    have := c.geometry
    exact (Nat.div_lt_iff_lt_mul (by omega)).2 hk
  · exact List.mem_cons_self ..

theorem addrEntry_lt (c : Config) (k : Nat) : addrEntry c k < 2 ^ c.addrWidth := by
  obtain ⟨-, -, -, hrow, hidle, -⟩ := c.codes
  rcases List.mem_cons.1 (addrEntry_mem c k) with h | h
  · omega
  · exact hrow _ h

theorem brightOperand_toNat (c : Config) (raw : BitVec 32) :
    (brightOperand c raw).toNat = clampToNat raw.toInt c.brightOne := by
  have hle : clampToNat raw.toInt c.brightOne ≤ c.brightOne := by
    unfold clampToNat
    split
    · omega
    · split
      · exact Nat.le_refl _
      · omega
  have := c.brightOne_le
  simp only [brightOperand, BitVec.toNat_ofNat]
  exact Nat.mod_eq_of_lt (by omega)

theorem brightOperand_le (c : Config) (raw : BitVec 32) : (brightOperand c raw).toNat ≤ c.brightOne := by
  rw [brightOperand_toNat]
  unfold clampToNat
  split
  · omega
  · split
    · exact Nat.le_refl _
    · omega

/-! ### SETBRIGHT and BEGIN -/

theorem execSetbright_eq (raw : BitVec 32) {s : State} (h : s.halted = false) :
    execSetbright raw s = .next { s with
      bright := brightOperand s.cfg raw
      mem := writeCells s.mem (tmrCells s.cfg (brightOperand s.cfg raw).toNat) } := by
  simp [execSetbright, accept, h, buildTmr_eq, withMemory]

/-- The memory after both builds. -/
def builtTables (s : State) : Memory :=
  writeCells (writeCells s.mem (addrCells s.cfg)) (tmrCells s.cfg s.bright.toNat)

theorem buildTables_eq (s : State) : buildTables s = .ok (builtTables s) := by
  simp [buildTables, buildAddr_eq, buildTmr_eq, builtTables]

theorem execBegin_eq {s : State} (h : s.halted = false) :
    execBegin s =
      if s.started then .next s
      else if s.cfg.resOk then .next (startScan (builtTables s) s) else .next (raiseHalt s) := by
  simp [execBegin, accept, h, buildTables_eq, withMemory, dropped]

/-- BEGIN never stops. -/
theorem execBegin_next (s : State) : ∃ t, execBegin s = .next t := by
  by_cases h : s.halted
  · exact ⟨s, by simp [execBegin, accept, h, dropped]⟩
  · rw [execBegin_eq (by simpa using h)]
    split
    · exact ⟨_, rfl⟩
    · split <;> exact ⟨_, rfl⟩

end Sys2Proof.Machine
end

