-- ==== Sys2Proof/Laws/Scan.lean ====
section
/-! SUPPORT. The descriptors of a pass, and what the minor loop of each channel does k slots into it
(spec/43_scan_controller.md R195 to R201, spec/10_state.md R40, spec/20_memory.md R77). -/

namespace Sys2Proof.Machine

/-! ### Arithmetic of the descriptor fields -/

theorem ofNat_add_ofNat (a b : Nat) : BitVec.ofNat 32 a + BitVec.ofNat 32 b = BitVec.ofNat 32 (a + b) :=
  (BitVec.ofNat_add a b).symm

theorem ofNat_sub_one {n k : Nat} (h : k < n) :
    BitVec.ofNat 16 (n - k) - 1#16 = BitVec.ofNat 16 (n - (k + 1)) := by
  have hstep : n - k = n - (k + 1) + 1 := by omega
  rw [hstep, BitVec.ofNat_add]
  exact BitVec.add_sub_cancel ..

theorem ofNat_eq_zero {n : Nat} (h : n ≤ 65535) : BitVec.ofNat 16 n = 0#16 ↔ n = 0 := by
  constructor
  · intro h0
    have := congrArg BitVec.toNat h0
    simp only [BitVec.toNat_ofNat] at this
    omega
  · rintro rfl
    rfl

theorem ofNat_toNat {n : Nat} (h : n ≤ 65535) : (BitVec.ofNat 16 n).toNat = n := by
  simp only [BitVec.toNat_ofNat]
  omega

/-! ### The descriptors of a pass -/

/-- ARM leaves the channels at the start of a pass. -/
theorem scanDesc_zero (c : Config) (b : BufferId) (p : Nat) (ch : Chan) : scanDesc c b p 0 ch = armedDesc c b p ch := by
  have hs := c.nSlots_pos
  have ht := c.tableLen_eq
  cases ch <;> simp [scanDesc, armedDesc] <;> omega

/-- A minor loop moves a table channel on by one slot. -/
theorem afterMinor_addr (c : Config) (b : BufferId) (p : Nat) {k : Nat} (hk : k < c.tableLen) :
    (scanDesc c b p k .addr).afterMinor = scanDesc c b p (k + 1) .addr := by
  have hle := c.geometry
  simp only [Desc.afterMinor, scanDesc, armedDesc, ElemSize.bytes, ofNat_add_ofNat, ofNat_sub_one hk,
    ofNat_eq_zero (show c.tableLen - (k + 1) ≤ 65535 by omega)]
  split
  · rename_i h0
    simp [show ¬ k + 1 < c.tableLen by omega, show c.tableLen ≤ k + 1 by omega, Nat.add_assoc]
  · rename_i h0
    simp [show k + 1 < c.tableLen by omega, hk, Nat.add_assoc]
    omega

theorem afterMinor_tmr (c : Config) (b : BufferId) (p : Nat) {k : Nat} (hk : k < c.tableLen) :
    (scanDesc c b p k .tmr).afterMinor = scanDesc c b p (k + 1) .tmr := by
  have hle := c.geometry
  simp only [Desc.afterMinor, scanDesc, armedDesc, ElemSize.bytes, ofNat_add_ofNat, ofNat_sub_one hk,
    ofNat_eq_zero (show c.tableLen - (k + 1) ≤ 65535 by omega)]
  split
  · rename_i h0
    simp [show ¬ k + 1 < c.tableLen by omega, show c.tableLen ≤ k + 1 by omega, Nat.add_assoc, Nat.mul_add]
  · rename_i h0
    simp [show k + 1 < c.tableLen by omega, hk, Nat.add_assoc, Nat.mul_add]
    omega

/-- A minor loop moves a pixel channel on by one chunk: its own half and the half it skips. -/
theorem chunk_step (c : Config) {k : Nat} (hk : k < c.nSlots) :
    min k c.nSlots * c.writesPerColumn + (c.half * 1 + c.half)
      = min (k + 1) c.nSlots * c.writesPerColumn := by
  have hw := c.writesPerColumn_eq
  rw [Nat.min_eq_left (by omega), Nat.min_eq_left (by omega), Nat.add_mul]
  omega

theorem afterMinor_pix0 (c : Config) (b : BufferId) (p : Nat) {k : Nat} (hk : k < c.nSlots) :
    (scanDesc c b p k .pix0).afterMinor = scanDesc c b p (k + 1) .pix0 := by
  have hle := c.geometry
  have ht := c.tableLen_eq
  have hsrc : pageBase c b p + min k c.nSlots * c.writesPerColumn + (c.half * 1 + c.half)
      = pageBase c b p + min (k + 1) c.nSlots * c.writesPerColumn := by
    have := chunk_step c hk
    omega
  simp only [Desc.afterMinor, scanDesc, armedDesc, ElemSize.bytes, ofNat_toNat (show c.half ≤ 65535 by omega),
    ofNat_add_ofNat, ofNat_sub_one hk, ofNat_eq_zero (show c.nSlots - (k + 1) ≤ 65535 by omega), hsrc]
  split
  · rename_i h0
    simp [show ¬ k + 1 < c.nSlots by omega, show c.nSlots ≤ k + 1 by omega]
  · rename_i h0
    simp [show k + 1 < c.nSlots by omega, hk]
    omega

theorem afterMinor_pix1 (c : Config) (b : BufferId) (p : Nat) {k : Nat} (hk : k < c.nSlots) :
    (scanDesc c b p k .pix1).afterMinor = scanDesc c b p (k + 1) .pix1 := by
  have hle := c.geometry
  have ht := c.tableLen_eq
  have hsrc : pageBase c b p + min k c.nSlots * c.writesPerColumn + c.half + (c.half * 1 + c.half)
      = pageBase c b p + min (k + 1) c.nSlots * c.writesPerColumn + c.half := by
    have := chunk_step c hk
    omega
  simp only [Desc.afterMinor, scanDesc, armedDesc, ElemSize.bytes, ofNat_toNat (show c.half ≤ 65535 by omega),
    ofNat_add_ofNat, ofNat_sub_one hk, ofNat_eq_zero (show c.nSlots - (k + 1) ≤ 65535 by omega), hsrc]
  split
  · rename_i h0
    simp [show ¬ k + 1 < c.nSlots by omega, show c.nSlots ≤ k + 1 by omega]
  · rename_i h0
    simp [show k + 1 < c.nSlots by omega, hk]
    omega

/-- SLOT is read off the CH_ADDR descriptor. -/
theorem slot_of_scanDesc {s : State} {b : BufferId} {p k : Nat} (h : s.descAddr = scanDesc s.cfg b p k .addr)
    (hk : k ≤ s.cfg.tableLen) : s.slot = k := by
  have hle := s.cfg.geometry
  rw [State.slot, h]
  simp only [scanDesc, ofNat_toNat (show s.cfg.tableLen - k ≤ 65535 by omega)]
  omega

/-! ### Addresses of the elements (spec/20_memory.md R77) -/

theorem elementAddr_eq (d : Desc) {a e : Nat} (hsrc : d.src = BitVec.ofNat 32 a)
    (h : a + e * d.esize.bytes < 2 ^ 32) : elementAddr d e = a + e * d.esize.bytes := by
  rw [elementAddr, hsrc, ofNat_add_ofNat, BitVec.toNat_ofNat]
  exact Nat.mod_eq_of_lt h

theorem elementAddr_addr (c : Config) (b : BufferId) (p : Nat) {k : Nat} (hk : k < c.tableLen) :
    elementAddr (scanDesc c b p k .addr) 0 = c.addrtabBase + k := by
  have := c.below
  rw [elementAddr_eq _ rfl (by simp only [Nat.zero_mul]; omega)]
  omega

theorem elementAddr_tmr (c : Config) (b : BufferId) (p : Nat) {k e : Nat} (hk : k < c.tableLen) (he : e < 2) :
    elementAddr (scanDesc c b p k .tmr) e = c.tmrtabBase + 4 * k + 2 * e := by
  have := c.below
  have hbytes : (scanDesc c b p k .tmr).esize.bytes = 2 := rfl
  rw [elementAddr_eq _ rfl (by rw [hbytes]; omega), hbytes]
  omega

/-- A word of a chunk lies inside its buffer. -/
theorem chunkAddr_mapped (c : Config) (b : BufferId) {p k w : Nat} (hp : p < c.pages) (hk : k < c.nSlots)
    (hw : w < c.writesPerColumn) : mapped c (chunkAddr c b p k w) = true := by
  have h := c.word_lt_bufSize hp hk hw
  have := mapped_outbuf c b h
  rwa [chunkAddr, pageBase, Nat.add_assoc (outbufBase c b), Nat.add_assoc (outbufBase c b)]

theorem chunkAddr_lt (c : Config) (b : BufferId) {p k w : Nat} (hp : p < c.pages) (hk : k < c.nSlots)
    (hw : w < c.writesPerColumn) : chunkAddr c b p k w < 2 ^ 32 := by
  have h := c.word_lt_bufSize hp hk hw
  have := outbuf_below c b
  simp only [chunkAddr, pageBase]
  omega

theorem elementAddr_pix0 (c : Config) (b : BufferId) {p k e : Nat} (hp : p < c.pages) (hk : k < c.nSlots)
    (he : e < c.half) : elementAddr (scanDesc c b p k .pix0) e = chunkAddr c b p k (0 + e) := by
  have hw := c.writesPerColumn_eq
  have hlt := chunkAddr_lt c b hp hk (w := 0 + e) (by omega)
  have hbytes : (scanDesc c b p k .pix0).esize.bytes = 1 := rfl
  have hmin : min k c.nSlots = k := Nat.min_eq_left (by omega)
  rw [elementAddr_eq _ rfl (by rw [hbytes, hmin]; simp only [chunkAddr] at hlt; omega), hbytes, hmin]
  simp only [chunkAddr]
  omega

theorem elementAddr_pix1 (c : Config) (b : BufferId) {p k e : Nat} (hp : p < c.pages) (hk : k < c.nSlots)
    (he : e < c.half) : elementAddr (scanDesc c b p k .pix1) e = chunkAddr c b p k (c.half + e) := by
  have hw := c.writesPerColumn_eq
  have hlt := chunkAddr_lt c b hp hk (w := c.half + e) (by omega)
  have hbytes : (scanDesc c b p k .pix1).esize.bytes = 1 := rfl
  have hmin : min k c.nSlots = k := Nat.min_eq_left (by omega)
  rw [elementAddr_eq _ rfl (by rw [hbytes, hmin]; simp only [chunkAddr] at hlt; omega), hbytes, hmin]
  simp only [chunkAddr]
  omega

/-! ### Minor loops -/

/-- Moving `n` bytes to PORT_PIXBUS logs them all and leaves the last one in PIXBUS. -/
theorem moveElements_pixbus {k : Nat} {d : Desc} (hdst : d.dst = .pixbus) (hsize : d.esize = .one) (n e : Nat)
    (s : State) (hmap : ∀ j, j < n → mapped s.cfg (elementAddr d (e + j)) = true) :
    moveElements k d n e s = .ok { s with
      pixbus := if n = 0 then s.pixbus else s.mem.readByte (elementAddr d (e + (n - 1)))
      portLog := s.portLog ++ (List.range n).map fun j =>
        ⟨k, .pixbus, e + j, (s.mem.readByte (elementAddr d (e + j))).setWidth 16⟩ } := by
  induction n generalizing e s with
  | zero => simp [moveElements]
  | succ n ih =>
    have h0 : mapped s.cfg (elementAddr d e) = true := by simpa using hmap 0 (by omega)
    simp only [moveElements, hsize, memRead_one h0, portWrite, portRegister, hdst]
    rw [ih (e + 1) _ fun j hj => by
      have := hmap (j + 1) (by omega)
      rwa [show e + (j + 1) = e + 1 + j by omega] at this]
    congr 1
    by_cases hn : n = 0
    · subst hn
      simp
    · simp only [hn, if_false, Nat.add_eq_zero_iff, Nat.one_ne_zero, and_false, List.range_succ_eq_map,
        List.map_cons, List.map_map, List.append_assoc, List.singleton_append, Nat.add_zero]
      rw [show e + 1 + (n - 1) = e + (n + 1 - 1) by omega]
      have hf : (fun j => (⟨k, .pixbus, e + 1 + j, (s.mem.readByte (elementAddr d (e + 1 + j))).setWidth 16⟩ : PortWrite))
          = ((fun j => ⟨k, .pixbus, e + j, (s.mem.readByte (elementAddr d (e + j))).setWidth 16⟩) ∘ Nat.succ) := by
        funext j
        simp only [Function.comp]
        rw [show e + j.succ = e + 1 + j by omega]
      rw [hf]

/-- MINOR(CH_ADDR): one byte of the AddressTable to ROWSEL; the last one raises IRQ. -/
theorem minor_addr {s : State} {b : BufferId} {p k : Nat} (h : s.descAddr = scanDesc s.cfg b p k .addr)
    (hk : k < s.cfg.tableLen) :
    minor k .addr s = .ok { s with
      rowsel := BitVec.ofNat 8 ((s.mem.readByte (s.cfg.addrtabBase + k)).toNat % 2 ^ s.cfg.addrWidth)
      portLog := s.portLog ++ [⟨k, .addr, 0, (s.mem.readByte (s.cfg.addrtabBase + k)).setWidth 16⟩]
      descAddr := scanDesc s.cfg b p (k + 1) .addr
      irq := s.irq || decide (k + 1 = s.cfg.tableLen) } := by
  have hle := s.cfg.geometry
  have hen : (scanDesc s.cfg b p k .addr).en = true := by simp [scanDesc, hk]
  have hcount : (scanDesc s.cfg b p k .addr).count ≠ 0#16 := by
    show BitVec.ofNat 16 (s.cfg.tableLen - k) ≠ 0#16
    rw [Ne, ofNat_eq_zero (by omega)]
    omega
  have hcount' : (scanDesc s.cfg b p (k + 1) .addr).count = 0#16 ↔ k + 1 = s.cfg.tableLen := by
    show BitVec.ofNat 16 (s.cfg.tableLen - (k + 1)) = 0#16 ↔ _
    rw [ofNat_eq_zero (by omega)]
    omega
  have hnelem : (scanDesc s.cfg b p k .addr).nelem.toNat = 1 := rfl
  have hsize : (scanDesc s.cfg b p k .addr).esize = .one := rfl
  have hdst : (scanDesc s.cfg b p k .addr).dst = .addr := rfl
  have hres : (scanDesc s.cfg b p k .addr).sizeReserved = false := rfl
  have hint : (scanDesc s.cfg b p k .addr).intmaj = true := rfl
  simp only [minor, State.desc, h, hen, hcount, hres, hnelem, moveElements, hsize, hdst,
    elementAddr_addr s.cfg b p hk, memRead_one (mapped_addrtab s.cfg hk), portWrite, portRegister, finishMinor,
    afterMinor_addr s.cfg b p hk, hcount', hint, State.setDesc, raiseIrq, if_true, if_false, Bool.false_eq_true,
    Bool.and_true, decide_eq_true_eq]
  have htn : ((s.mem.readByte (s.cfg.addrtabBase + k)).setWidth 16).toNat
      = (s.mem.readByte (s.cfg.addrtabBase + k)).toNat := by
    rw [BitVec.toNat_setWidth]
    exact Nat.mod_eq_of_lt (by have := (s.mem.readByte (s.cfg.addrtabBase + k)).isLt; omega)
  rw [htn]
  split
  · rename_i he
    simp [he]
  · rename_i he
    simp [he]

/-- MINOR(CH_TMR): the (period, duty) pair of the slot to PERIOD and DUTY. -/
theorem minor_tmr {s : State} {b : BufferId} {p k : Nat} (h : s.descTmr = scanDesc s.cfg b p k .tmr)
    (hk : k < s.cfg.tableLen) :
    minor k .tmr s = .ok { s with
      period := s.mem.readHalf (s.cfg.tmrtabBase + 4 * k)
      duty := s.mem.readHalf (s.cfg.tmrtabBase + 4 * k + 2)
      portLog := s.portLog ++ [⟨k, .timer, 0, s.mem.readHalf (s.cfg.tmrtabBase + 4 * k)⟩,
        ⟨k, .timer, 1, s.mem.readHalf (s.cfg.tmrtabBase + 4 * k + 2)⟩]
      descTmr := scanDesc s.cfg b p (k + 1) .tmr } := by
  have hle := s.cfg.geometry
  have hal := s.cfg.map.2.2.1
  have hen : (scanDesc s.cfg b p k .tmr).en = true := by simp [scanDesc, hk]
  have hcount : (scanDesc s.cfg b p k .tmr).count ≠ 0#16 := by
    show BitVec.ofNat 16 (s.cfg.tableLen - k) ≠ 0#16
    rw [Ne, ofNat_eq_zero (by omega)]
    omega
  have hnelem : (scanDesc s.cfg b p k .tmr).nelem.toNat = 2 := rfl
  have hsize : (scanDesc s.cfg b p k .tmr).esize = .two := rfl
  have hdst : (scanDesc s.cfg b p k .tmr).dst = .timer := rfl
  have hres : (scanDesc s.cfg b p k .tmr).sizeReserved = false := rfl
  have hint : (scanDesc s.cfg b p k .tmr).intmaj = false := rfl
  have hmap : ∀ j, j < 4 → mapped s.cfg (s.cfg.tmrtabBase + 4 * k + j) = true := fun j hj => by
    rw [Nat.add_assoc]
    exact mapped_tmrtab s.cfg (by omega)
  have h0 := memRead_two (m := s.mem) (by omega) (hmap 0 (by omega)) (hmap 1 (by omega))
  have h2 := memRead_two (m := s.mem) (a := s.cfg.tmrtabBase + 4 * k + 2) (by omega) (hmap 2 (by omega))
    (hmap 3 (by omega))
  simp only [Nat.add_zero] at h0
  simp only [minor, State.desc, h, hen, hcount, hres, hnelem, moveElements, hsize, hdst,
    elementAddr_tmr s.cfg b p hk (show 0 < 2 by omega), elementAddr_tmr s.cfg b p hk (show 0 + 1 < 2 by omega),
    Nat.mul_zero, Nat.add_zero, Nat.zero_add, Nat.mul_one, h0, h2, portWrite, portRegister, finishMinor,
    afterMinor_tmr s.cfg b p hk, hint, State.setDesc, if_true, if_false, Bool.false_eq_true,
    Bool.and_false, Nat.one_ne_zero, List.append_assoc, List.cons_append, List.nil_append]

/-- MINOR(CH_PIX0): the first half of the chunk to PIXBUS. -/
theorem minor_pix0 {s : State} {b : BufferId} {p k : Nat} (h : s.descPix0 = scanDesc s.cfg b p k .pix0)
    (hp : p < s.cfg.pages) (hk : k < s.cfg.nSlots) :
    minor k .pix0 s = .ok { s with
      pixbus := s.mem.readByte (chunkAddr s.cfg b p k (s.cfg.half - 1))
      portLog := s.portLog ++ halfLog s.cfg s.mem b p k 0
      descPix0 := scanDesc s.cfg b p (k + 1) .pix0 } := by
  have hle := s.cfg.geometry
  have ht := s.cfg.tableLen_eq
  have hw := s.cfg.writesPerColumn_eq
  have hen : (scanDesc s.cfg b p k .pix0).en = true := by simp [scanDesc, hk]
  have hcount : (scanDesc s.cfg b p k .pix0).count ≠ 0#16 := by
    show BitVec.ofNat 16 (s.cfg.nSlots - k) ≠ 0#16
    rw [Ne, ofNat_eq_zero (by omega)]
    omega
  have hnelem : (scanDesc s.cfg b p k .pix0).nelem.toNat = s.cfg.half := ofNat_toNat (by omega)
  have hres : (scanDesc s.cfg b p k .pix0).sizeReserved = false := rfl
  have hint : (scanDesc s.cfg b p k .pix0).intmaj = false := rfl
  have hmap : ∀ j, j < s.cfg.half → mapped s.cfg (elementAddr (scanDesc s.cfg b p k .pix0) (0 + j)) = true := by
    intro j hj
    rw [elementAddr_pix0 s.cfg b hp hk (by omega)]
    exact chunkAddr_mapped s.cfg b hp hk (by omega)
  simp only [minor, State.desc, h, hen, hcount, hres, hnelem, moveElements_pixbus (d := scanDesc s.cfg b p k .pix0)
    rfl rfl _ _ _ hmap, finishMinor, afterMinor_pix0 s.cfg b p hk, hint, State.setDesc, if_true, if_false,
    Bool.false_eq_true, Bool.and_false, show ¬ s.cfg.half = 0 by omega]
  congr 2
  · rw [elementAddr_pix0 s.cfg b hp hk (by omega)]
    simp
  · congr 1
    refine List.map_congr_left fun j hj => ?_
    have hj := List.mem_range.1 hj
    rw [elementAddr_pix0 s.cfg b hp hk (by omega)]
    simp

/-- MINOR(CH_PIX1): the second half of the chunk to PIXBUS. -/
theorem minor_pix1 {s : State} {b : BufferId} {p k : Nat} (h : s.descPix1 = scanDesc s.cfg b p k .pix1)
    (hp : p < s.cfg.pages) (hk : k < s.cfg.nSlots) :
    minor k .pix1 s = .ok { s with
      pixbus := s.mem.readByte (chunkAddr s.cfg b p k (s.cfg.half + (s.cfg.half - 1)))
      portLog := s.portLog ++ halfLog s.cfg s.mem b p k s.cfg.half
      descPix1 := scanDesc s.cfg b p (k + 1) .pix1 } := by
  have hle := s.cfg.geometry
  have ht := s.cfg.tableLen_eq
  have hw := s.cfg.writesPerColumn_eq
  have hen : (scanDesc s.cfg b p k .pix1).en = true := by simp [scanDesc, hk]
  have hcount : (scanDesc s.cfg b p k .pix1).count ≠ 0#16 := by
    show BitVec.ofNat 16 (s.cfg.nSlots - k) ≠ 0#16
    rw [Ne, ofNat_eq_zero (by omega)]
    omega
  have hnelem : (scanDesc s.cfg b p k .pix1).nelem.toNat = s.cfg.half := ofNat_toNat (by omega)
  have hres : (scanDesc s.cfg b p k .pix1).sizeReserved = false := rfl
  have hint : (scanDesc s.cfg b p k .pix1).intmaj = false := rfl
  have hmap : ∀ j, j < s.cfg.half → mapped s.cfg (elementAddr (scanDesc s.cfg b p k .pix1) (0 + j)) = true := by
    intro j hj
    rw [elementAddr_pix1 s.cfg b hp hk (by omega)]
    exact chunkAddr_mapped s.cfg b hp hk (by omega)
  simp only [minor, State.desc, h, hen, hcount, hres, hnelem, moveElements_pixbus (d := scanDesc s.cfg b p k .pix1)
    rfl rfl _ _ _ hmap, finishMinor, afterMinor_pix1 s.cfg b p hk, hint, State.setDesc, if_true, if_false,
    Bool.false_eq_true, Bool.and_false, show ¬ s.cfg.half = 0 by omega]
  congr 2
  · rw [elementAddr_pix1 s.cfg b hp hk (by omega)]
    simp
  · congr 1
    refine List.map_congr_left fun j hj => ?_
    have hj := List.mem_range.1 hj
    rw [elementAddr_pix1 s.cfg b hp hk (by omega)]
    simp

/-- A pixel channel that is done has no minor loop. -/
theorem minor_disabled {s : State} {k : Nat} {ch : Chan} (h : (s.desc ch).en = false) : minor k ch s = .ok s := by
  simp [minor, h]

/-! ### One slot -/

/-- The four channels k slots into a pass of page p of buffer b. -/
structure AtSlot (s : State) (b : BufferId) (p k : Nat) : Prop where
  addr : s.descAddr = scanDesc s.cfg b p k .addr
  pix0 : s.descPix0 = scanDesc s.cfg b p k .pix0
  pix1 : s.descPix1 = scanDesc s.cfg b p k .pix1
  tmr : s.descTmr = scanDesc s.cfg b p k .tmr

/-- The four minor loops of a data slot. -/
theorem scanSlot_data {s : State} {b : BufferId} {p k : Nat} (h : AtSlot s b p k) (hp : p < s.cfg.pages)
    (hk : k < s.cfg.nSlots) :
    scanSlot k s = .ok { s with
      rowsel := BitVec.ofNat 8 ((s.mem.readByte (s.cfg.addrtabBase + k)).toNat % 2 ^ s.cfg.addrWidth)
      period := s.mem.readHalf (s.cfg.tmrtabBase + 4 * k)
      duty := s.mem.readHalf (s.cfg.tmrtabBase + 4 * k + 2)
      pixbus := s.mem.readByte (chunkAddr s.cfg b p k (s.cfg.writesPerColumn - 1))
      portLog := s.portLog ++ slotLog s.cfg s.mem b p k
      descAddr := scanDesc s.cfg b p (k + 1) .addr, descPix0 := scanDesc s.cfg b p (k + 1) .pix0
      descPix1 := scanDesc s.cfg b p (k + 1) .pix1, descTmr := scanDesc s.cfg b p (k + 1) .tmr } := by
  obtain ⟨h0, h1, h2, h3⟩ := h
  have ht := s.cfg.tableLen_eq
  have hw := s.cfg.writesPerColumn_eq
  have hne : ¬ k + 1 = s.cfg.tableLen := by omega
  have hlast : s.cfg.half + (s.cfg.half - 1) = s.cfg.writesPerColumn - 1 := by omega
  unfold scanSlot
  rw [minor_addr h0 (by omega)]
  dsimp only
  rw [minor_tmr (b := b) (p := p) (k := k)]
  · dsimp only
    rw [minor_pix0 (b := b) (p := p) (k := k)]
    · dsimp only
      rw [minor_pix1 (b := b) (p := p) (k := k)]
      · simp only [slotLog, hk, hne, hlast, if_true, decide_false, Bool.or_false, List.append_assoc, List.cons_append,
          List.nil_append]
      · exact h2
      · exact hp
      · exact hk
    · exact h1
    · exact hp
    · exact hk
  · exact h3
  · show k < s.cfg.tableLen
    omega

/-- The four minor loops of the sentinel slot: the pixel channels are done. -/
theorem scanSlot_sentinel {s : State} {b : BufferId} {p : Nat} (h : AtSlot s b p s.cfg.nSlots) :
    scanSlot s.cfg.nSlots s = .ok { s with
      rowsel := BitVec.ofNat 8 ((s.mem.readByte (s.cfg.addrtabBase + s.cfg.nSlots)).toNat % 2 ^ s.cfg.addrWidth)
      period := s.mem.readHalf (s.cfg.tmrtabBase + 4 * s.cfg.nSlots)
      duty := s.mem.readHalf (s.cfg.tmrtabBase + 4 * s.cfg.nSlots + 2)
      portLog := s.portLog ++ slotLog s.cfg s.mem b p s.cfg.nSlots
      descAddr := scanDesc s.cfg b p s.cfg.tableLen .addr, descTmr := scanDesc s.cfg b p s.cfg.tableLen .tmr
      irq := true } := by
  obtain ⟨h0, h1, h2, h3⟩ := h
  have ht := s.cfg.tableLen_eq
  unfold scanSlot
  rw [minor_addr h0 (by omega)]
  dsimp only
  rw [minor_tmr (b := b) (p := p) (k := s.cfg.nSlots)]
  · dsimp only
    rw [minor_disabled (by simp [State.desc, h1, scanDesc])]
    dsimp only
    rw [minor_disabled (by simp [State.desc, h2, scanDesc])]
    simp [slotLog, ht]
  · exact h3
  · show s.cfg.nSlots < s.cfg.tableLen
    omega

/-! ### What every slot leaves alone -/

/-- What a minor loop may change, in any state: the outputs, the descriptors and IRQ; the log only grows. -/
def SlotFrame (s t : State) : Prop :=
  (∃ new, t.portLog = s.portLog ++ new)
    ∧ t = { s with
        rowsel := t.rowsel, pixbus := t.pixbus, period := t.period, duty := t.duty, irq := t.irq
        descAddr := t.descAddr, descPix0 := t.descPix0, descPix1 := t.descPix1, descTmr := t.descTmr
        portLog := t.portLog }

theorem SlotFrame.refl (s : State) : SlotFrame s s := ⟨⟨[], by simp⟩, rfl⟩

theorem SlotFrame.trans {s t u : State} (h : SlotFrame s t) (h' : SlotFrame t u) : SlotFrame s u := by
  obtain ⟨⟨new, hnew⟩, ht⟩ := h
  obtain ⟨⟨new', hnew'⟩, hu⟩ := h'
  refine ⟨⟨new ++ new', by rw [hnew', hnew, List.append_assoc]⟩, ?_⟩
  rw [hu, ht]

theorem portWrite_frame {k : Nat} {port : Port} {e : Nat} {v : BitVec 16} {s t : State}
    (h : portWrite k port e v s = .ok t) : SlotFrame s t := by
  simp only [portWrite, portRegister] at h
  cases port with
  | timer =>
    dsimp only at h
    by_cases h0 : e = 0
    · simp only [h0, if_true, Except.ok.injEq] at h
      subst h
      exact ⟨⟨_, rfl⟩, rfl⟩
    · by_cases h1 : e = 1
      · simp only [h1, Nat.one_ne_zero, if_true, if_false, Except.ok.injEq] at h
        subst h
        exact ⟨⟨_, rfl⟩, rfl⟩
      · simp [h0, h1] at h
  | _ =>
    simp only [Except.ok.injEq] at h
    subst h
    exact ⟨⟨_, rfl⟩, rfl⟩

theorem moveElements_frame {k : Nat} {d : Desc} {n e : Nat} {s t : State}
    (h : moveElements k d n e s = .ok t) : SlotFrame s t := by
  induction n generalizing e s with
  | zero =>
    cases h
    exact .refl _
  | succ n ih =>
    simp only [moveElements] at h
    split at h
    · split at h
      · rename_i hw
        exact (portWrite_frame hw).trans (ih h)
      · cases h
    · cases h

theorem finishMinor_frame (ch : Chan) (d : Desc) (s : State) : SlotFrame s (finishMinor ch d s) := by
  unfold finishMinor
  dsimp only
  split <;> cases ch <;> exact ⟨⟨[], by simp [State.setDesc, raiseIrq]⟩, rfl⟩

theorem minor_frame {k : Nat} {ch : Chan} {s t : State} (h : minor k ch s = .ok t) : SlotFrame s t := by
  simp only [minor] at h
  split at h
  · split at h
    · cases h
    · split at h
      · cases h
      · split at h
        · rename_i hm
          cases h
          exact (moveElements_frame hm).trans (finishMinor_frame _ _ _)
        · cases h
  · cases h
    exact .refl _

theorem scanSlot_frame {k : Nat} {s t : State} (h : scanSlot k s = .ok t) : SlotFrame s t := by
  simp only [scanSlot] at h
  split at h
  · cases h
  · rename_i h1
    split at h
    · cases h
    · rename_i h2
      split at h
      · cases h
      · rename_i h3
        exact (minor_frame h1).trans ((minor_frame h2).trans ((minor_frame h3).trans (minor_frame h)))

/-- Everything a TICK can do, in any state. -/
theorem tick_cases {s t : State} (h : tick s = .next t) :
    t = s ∨ (s.timerRun = true ∧ s.scanState = .run ∧ ∃ u, scanSlot s.slot s = .ok u
      ∧ t = if u.descAddr.done then enterWait u else u) := by
  simp only [tick] at h
  split at h
  · rename_i hrun
    simp only [Bool.and_eq_true, decide_eq_true_eq] at hrun
    split at h
    · rename_i u hu
      cases h
      exact .inr ⟨hrun.1, hrun.2, u, hu, rfl⟩
    · cases h
  · cases h
    exact .inl rfl

end Sys2Proof.Machine
end

