-- ==== Sys2Proof/Laws/State.lean ====
section
/-! SUPPORT. One lemma per field per update of State, so that no later proof unfolds a record update. -/

namespace Sys2Proof.Machine

/-! ### raiseHalt -/

@[simp] theorem raiseHalt_cfg (s : State) : (raiseHalt s).cfg = s.cfg := rfl
@[simp] theorem raiseHalt_bright (s : State) : (raiseHalt s).bright = s.bright := rfl
@[simp] theorem raiseHalt_resp (s : State) : (raiseHalt s).resp = s.resp := rfl
@[simp] theorem raiseHalt_rowsel (s : State) : (raiseHalt s).rowsel = s.rowsel := rfl
@[simp] theorem raiseHalt_pixbus (s : State) : (raiseHalt s).pixbus = s.pixbus := rfl
@[simp] theorem raiseHalt_period (s : State) : (raiseHalt s).period = s.period := rfl
@[simp] theorem raiseHalt_duty (s : State) : (raiseHalt s).duty = s.duty := rfl
@[simp] theorem raiseHalt_timerRun (s : State) : (raiseHalt s).timerRun = s.timerRun := rfl
@[simp] theorem raiseHalt_pending (s : State) : (raiseHalt s).pending = s.pending := rfl
@[simp] theorem raiseHalt_encBusy (s : State) : (raiseHalt s).encBusy = s.encBusy := rfl
@[simp] theorem raiseHalt_started (s : State) : (raiseHalt s).started = s.started := rfl
@[simp] theorem raiseHalt_halted (s : State) : (raiseHalt s).halted = true := rfl
@[simp] theorem raiseHalt_irq (s : State) : (raiseHalt s).irq = s.irq := rfl
@[simp] theorem raiseHalt_front (s : State) : (raiseHalt s).front = s.front := rfl
@[simp] theorem raiseHalt_page (s : State) : (raiseHalt s).page = s.page := rfl
@[simp] theorem raiseHalt_scanState (s : State) : (raiseHalt s).scanState = s.scanState := rfl
@[simp] theorem raiseHalt_encPos (s : State) : (raiseHalt s).encPos = s.encPos := rfl
@[simp] theorem raiseHalt_encBack (s : State) : (raiseHalt s).encBack = s.encBack := rfl
@[simp] theorem raiseHalt_descAddr (s : State) : (raiseHalt s).descAddr = s.descAddr := rfl
@[simp] theorem raiseHalt_descPix0 (s : State) : (raiseHalt s).descPix0 = s.descPix0 := rfl
@[simp] theorem raiseHalt_descPix1 (s : State) : (raiseHalt s).descPix1 = s.descPix1 := rfl
@[simp] theorem raiseHalt_descTmr (s : State) : (raiseHalt s).descTmr = s.descTmr := rfl
@[simp] theorem raiseHalt_mem (s : State) : (raiseHalt s).mem = s.mem := rfl
@[simp] theorem raiseHalt_portLog (s : State) : (raiseHalt s).portLog = s.portLog := rfl
@[simp] theorem raiseHalt_inputs (s : State) : (raiseHalt s).inputs = s.inputs := rfl

/-! ### raiseIrq -/

@[simp] theorem raiseIrq_cfg (s : State) : (raiseIrq s).cfg = s.cfg := rfl
@[simp] theorem raiseIrq_bright (s : State) : (raiseIrq s).bright = s.bright := rfl
@[simp] theorem raiseIrq_resp (s : State) : (raiseIrq s).resp = s.resp := rfl
@[simp] theorem raiseIrq_rowsel (s : State) : (raiseIrq s).rowsel = s.rowsel := rfl
@[simp] theorem raiseIrq_pixbus (s : State) : (raiseIrq s).pixbus = s.pixbus := rfl
@[simp] theorem raiseIrq_period (s : State) : (raiseIrq s).period = s.period := rfl
@[simp] theorem raiseIrq_duty (s : State) : (raiseIrq s).duty = s.duty := rfl
@[simp] theorem raiseIrq_timerRun (s : State) : (raiseIrq s).timerRun = s.timerRun := rfl
@[simp] theorem raiseIrq_pending (s : State) : (raiseIrq s).pending = s.pending := rfl
@[simp] theorem raiseIrq_encBusy (s : State) : (raiseIrq s).encBusy = s.encBusy := rfl
@[simp] theorem raiseIrq_started (s : State) : (raiseIrq s).started = s.started := rfl
@[simp] theorem raiseIrq_halted (s : State) : (raiseIrq s).halted = s.halted := rfl
@[simp] theorem raiseIrq_irq (s : State) : (raiseIrq s).irq = true := rfl
@[simp] theorem raiseIrq_front (s : State) : (raiseIrq s).front = s.front := rfl
@[simp] theorem raiseIrq_page (s : State) : (raiseIrq s).page = s.page := rfl
@[simp] theorem raiseIrq_scanState (s : State) : (raiseIrq s).scanState = s.scanState := rfl
@[simp] theorem raiseIrq_encPos (s : State) : (raiseIrq s).encPos = s.encPos := rfl
@[simp] theorem raiseIrq_encBack (s : State) : (raiseIrq s).encBack = s.encBack := rfl
@[simp] theorem raiseIrq_descAddr (s : State) : (raiseIrq s).descAddr = s.descAddr := rfl
@[simp] theorem raiseIrq_descPix0 (s : State) : (raiseIrq s).descPix0 = s.descPix0 := rfl
@[simp] theorem raiseIrq_descPix1 (s : State) : (raiseIrq s).descPix1 = s.descPix1 := rfl
@[simp] theorem raiseIrq_descTmr (s : State) : (raiseIrq s).descTmr = s.descTmr := rfl
@[simp] theorem raiseIrq_mem (s : State) : (raiseIrq s).mem = s.mem := rfl
@[simp] theorem raiseIrq_portLog (s : State) : (raiseIrq s).portLog = s.portLog := rfl
@[simp] theorem raiseIrq_inputs (s : State) : (raiseIrq s).inputs = s.inputs := rfl

/-! ### enterWait -/

@[simp] theorem enterWait_cfg (s : State) : (enterWait s).cfg = s.cfg := rfl
@[simp] theorem enterWait_bright (s : State) : (enterWait s).bright = s.bright := rfl
@[simp] theorem enterWait_resp (s : State) : (enterWait s).resp = s.resp := rfl
@[simp] theorem enterWait_rowsel (s : State) : (enterWait s).rowsel = s.rowsel := rfl
@[simp] theorem enterWait_pixbus (s : State) : (enterWait s).pixbus = s.pixbus := rfl
@[simp] theorem enterWait_period (s : State) : (enterWait s).period = s.period := rfl
@[simp] theorem enterWait_duty (s : State) : (enterWait s).duty = s.duty := rfl
@[simp] theorem enterWait_timerRun (s : State) : (enterWait s).timerRun = s.timerRun := rfl
@[simp] theorem enterWait_pending (s : State) : (enterWait s).pending = s.pending := rfl
@[simp] theorem enterWait_encBusy (s : State) : (enterWait s).encBusy = s.encBusy := rfl
@[simp] theorem enterWait_started (s : State) : (enterWait s).started = s.started := rfl
@[simp] theorem enterWait_halted (s : State) : (enterWait s).halted = s.halted := rfl
@[simp] theorem enterWait_irq (s : State) : (enterWait s).irq = s.irq := rfl
@[simp] theorem enterWait_front (s : State) : (enterWait s).front = s.front := rfl
@[simp] theorem enterWait_page (s : State) : (enterWait s).page = s.page := rfl
@[simp] theorem enterWait_scanState (s : State) : (enterWait s).scanState = .waitRefresh := rfl
@[simp] theorem enterWait_encPos (s : State) : (enterWait s).encPos = s.encPos := rfl
@[simp] theorem enterWait_encBack (s : State) : (enterWait s).encBack = s.encBack := rfl
@[simp] theorem enterWait_descAddr (s : State) : (enterWait s).descAddr = s.descAddr := rfl
@[simp] theorem enterWait_descPix0 (s : State) : (enterWait s).descPix0 = s.descPix0 := rfl
@[simp] theorem enterWait_descPix1 (s : State) : (enterWait s).descPix1 = s.descPix1 := rfl
@[simp] theorem enterWait_descTmr (s : State) : (enterWait s).descTmr = s.descTmr := rfl
@[simp] theorem enterWait_mem (s : State) : (enterWait s).mem = s.mem := rfl
@[simp] theorem enterWait_portLog (s : State) : (enterWait s).portLog = s.portLog := rfl
@[simp] theorem enterWait_inputs (s : State) : (enterWait s).inputs = s.inputs := rfl

/-! ### resumeScan -/

@[simp] theorem resumeScan_cfg (s : State) : (resumeScan s).cfg = s.cfg := rfl
@[simp] theorem resumeScan_bright (s : State) : (resumeScan s).bright = s.bright := rfl
@[simp] theorem resumeScan_resp (s : State) : (resumeScan s).resp = s.resp := rfl
@[simp] theorem resumeScan_rowsel (s : State) : (resumeScan s).rowsel = s.rowsel := rfl
@[simp] theorem resumeScan_pixbus (s : State) : (resumeScan s).pixbus = s.pixbus := rfl
@[simp] theorem resumeScan_period (s : State) : (resumeScan s).period = s.period := rfl
@[simp] theorem resumeScan_duty (s : State) : (resumeScan s).duty = s.duty := rfl
@[simp] theorem resumeScan_timerRun (s : State) : (resumeScan s).timerRun = s.timerRun := rfl
@[simp] theorem resumeScan_pending (s : State) : (resumeScan s).pending = s.pending := rfl
@[simp] theorem resumeScan_encBusy (s : State) : (resumeScan s).encBusy = s.encBusy := rfl
@[simp] theorem resumeScan_started (s : State) : (resumeScan s).started = s.started := rfl
@[simp] theorem resumeScan_halted (s : State) : (resumeScan s).halted = s.halted := rfl
@[simp] theorem resumeScan_irq (s : State) : (resumeScan s).irq = false := rfl
@[simp] theorem resumeScan_front (s : State) : (resumeScan s).front = s.front := rfl
@[simp] theorem resumeScan_page (s : State) : (resumeScan s).page = s.page := rfl
@[simp] theorem resumeScan_scanState (s : State) : (resumeScan s).scanState = .run := rfl
@[simp] theorem resumeScan_encPos (s : State) : (resumeScan s).encPos = s.encPos := rfl
@[simp] theorem resumeScan_encBack (s : State) : (resumeScan s).encBack = s.encBack := rfl
@[simp] theorem resumeScan_descAddr (s : State) : (resumeScan s).descAddr = s.descAddr := rfl
@[simp] theorem resumeScan_descPix0 (s : State) : (resumeScan s).descPix0 = s.descPix0 := rfl
@[simp] theorem resumeScan_descPix1 (s : State) : (resumeScan s).descPix1 = s.descPix1 := rfl
@[simp] theorem resumeScan_descTmr (s : State) : (resumeScan s).descTmr = s.descTmr := rfl
@[simp] theorem resumeScan_mem (s : State) : (resumeScan s).mem = s.mem := rfl
@[simp] theorem resumeScan_portLog (s : State) : (resumeScan s).portLog = s.portLog := rfl
@[simp] theorem resumeScan_inputs (s : State) : (resumeScan s).inputs = s.inputs := rfl

/-! ### startPublish -/

@[simp] theorem startPublish_cfg (s : State) : (startPublish s).cfg = s.cfg := rfl
@[simp] theorem startPublish_bright (s : State) : (startPublish s).bright = s.bright := rfl
@[simp] theorem startPublish_resp (s : State) : (startPublish s).resp = s.resp := rfl
@[simp] theorem startPublish_rowsel (s : State) : (startPublish s).rowsel = s.rowsel := rfl
@[simp] theorem startPublish_pixbus (s : State) : (startPublish s).pixbus = s.pixbus := rfl
@[simp] theorem startPublish_period (s : State) : (startPublish s).period = s.period := rfl
@[simp] theorem startPublish_duty (s : State) : (startPublish s).duty = s.duty := rfl
@[simp] theorem startPublish_timerRun (s : State) : (startPublish s).timerRun = s.timerRun := rfl
@[simp] theorem startPublish_pending (s : State) : (startPublish s).pending = false := rfl
@[simp] theorem startPublish_encBusy (s : State) : (startPublish s).encBusy = true := rfl
@[simp] theorem startPublish_started (s : State) : (startPublish s).started = s.started := rfl
@[simp] theorem startPublish_halted (s : State) : (startPublish s).halted = s.halted := rfl
@[simp] theorem startPublish_irq (s : State) : (startPublish s).irq = s.irq := rfl
@[simp] theorem startPublish_front (s : State) : (startPublish s).front = s.front := rfl
@[simp] theorem startPublish_page (s : State) : (startPublish s).page = s.page := rfl
@[simp] theorem startPublish_scanState (s : State) : (startPublish s).scanState = s.scanState := rfl
@[simp] theorem startPublish_encPos (s : State) : (startPublish s).encPos = 0#32 := rfl
@[simp] theorem startPublish_encBack (s : State) : (startPublish s).encBack = s.front.other := rfl
@[simp] theorem startPublish_descAddr (s : State) : (startPublish s).descAddr = s.descAddr := rfl
@[simp] theorem startPublish_descPix0 (s : State) : (startPublish s).descPix0 = s.descPix0 := rfl
@[simp] theorem startPublish_descPix1 (s : State) : (startPublish s).descPix1 = s.descPix1 := rfl
@[simp] theorem startPublish_descTmr (s : State) : (startPublish s).descTmr = s.descTmr := rfl
@[simp] theorem startPublish_mem (s : State) : (startPublish s).mem = s.mem := rfl
@[simp] theorem startPublish_portLog (s : State) : (startPublish s).portLog = s.portLog := rfl
@[simp] theorem startPublish_inputs (s : State) : (startPublish s).inputs = s.inputs := rfl

/-! ### completePublish -/

@[simp] theorem completePublish_cfg (s : State) : (completePublish s).cfg = s.cfg := rfl
@[simp] theorem completePublish_bright (s : State) : (completePublish s).bright = s.bright := rfl
@[simp] theorem completePublish_resp (s : State) : (completePublish s).resp = s.resp := rfl
@[simp] theorem completePublish_rowsel (s : State) : (completePublish s).rowsel = s.rowsel := rfl
@[simp] theorem completePublish_pixbus (s : State) : (completePublish s).pixbus = s.pixbus := rfl
@[simp] theorem completePublish_period (s : State) : (completePublish s).period = s.period := rfl
@[simp] theorem completePublish_duty (s : State) : (completePublish s).duty = s.duty := rfl
@[simp] theorem completePublish_timerRun (s : State) : (completePublish s).timerRun = s.timerRun := rfl
@[simp] theorem completePublish_pending (s : State) : (completePublish s).pending = true := rfl
@[simp] theorem completePublish_encBusy (s : State) : (completePublish s).encBusy = false := rfl
@[simp] theorem completePublish_started (s : State) : (completePublish s).started = s.started := rfl
@[simp] theorem completePublish_halted (s : State) : (completePublish s).halted = s.halted := rfl
@[simp] theorem completePublish_irq (s : State) : (completePublish s).irq = s.irq := rfl
@[simp] theorem completePublish_front (s : State) : (completePublish s).front = s.front := rfl
@[simp] theorem completePublish_page (s : State) : (completePublish s).page = s.page := rfl
@[simp] theorem completePublish_scanState (s : State) : (completePublish s).scanState = s.scanState := rfl
@[simp] theorem completePublish_encPos (s : State) : (completePublish s).encPos = s.encPos := rfl
@[simp] theorem completePublish_encBack (s : State) : (completePublish s).encBack = s.encBack := rfl
@[simp] theorem completePublish_descAddr (s : State) : (completePublish s).descAddr = s.descAddr := rfl
@[simp] theorem completePublish_descPix0 (s : State) : (completePublish s).descPix0 = s.descPix0 := rfl
@[simp] theorem completePublish_descPix1 (s : State) : (completePublish s).descPix1 = s.descPix1 := rfl
@[simp] theorem completePublish_descTmr (s : State) : (completePublish s).descTmr = s.descTmr := rfl
@[simp] theorem completePublish_mem (s : State) : (completePublish s).mem = s.mem := rfl
@[simp] theorem completePublish_portLog (s : State) : (completePublish s).portLog = s.portLog := rfl
@[simp] theorem completePublish_inputs (s : State) : (completePublish s).inputs = s.inputs := rfl

/-! ### startTimer -/

@[simp] theorem startTimer_cfg (s : State) : (startTimer s).cfg = s.cfg := rfl
@[simp] theorem startTimer_bright (s : State) : (startTimer s).bright = s.bright := rfl
@[simp] theorem startTimer_resp (s : State) : (startTimer s).resp = s.resp := rfl
@[simp] theorem startTimer_rowsel (s : State) : (startTimer s).rowsel = s.rowsel := rfl
@[simp] theorem startTimer_pixbus (s : State) : (startTimer s).pixbus = s.pixbus := rfl
@[simp] theorem startTimer_period (s : State) : (startTimer s).period = s.period := rfl
@[simp] theorem startTimer_duty (s : State) : (startTimer s).duty = s.duty := rfl
@[simp] theorem startTimer_timerRun (s : State) : (startTimer s).timerRun = true := rfl
@[simp] theorem startTimer_pending (s : State) : (startTimer s).pending = s.pending := rfl
@[simp] theorem startTimer_encBusy (s : State) : (startTimer s).encBusy = s.encBusy := rfl
@[simp] theorem startTimer_started (s : State) : (startTimer s).started = true := rfl
@[simp] theorem startTimer_halted (s : State) : (startTimer s).halted = s.halted := rfl
@[simp] theorem startTimer_irq (s : State) : (startTimer s).irq = s.irq := rfl
@[simp] theorem startTimer_front (s : State) : (startTimer s).front = s.front := rfl
@[simp] theorem startTimer_page (s : State) : (startTimer s).page = s.page := rfl
@[simp] theorem startTimer_scanState (s : State) : (startTimer s).scanState = s.scanState := rfl
@[simp] theorem startTimer_encPos (s : State) : (startTimer s).encPos = s.encPos := rfl
@[simp] theorem startTimer_encBack (s : State) : (startTimer s).encBack = s.encBack := rfl
@[simp] theorem startTimer_descAddr (s : State) : (startTimer s).descAddr = s.descAddr := rfl
@[simp] theorem startTimer_descPix0 (s : State) : (startTimer s).descPix0 = s.descPix0 := rfl
@[simp] theorem startTimer_descPix1 (s : State) : (startTimer s).descPix1 = s.descPix1 := rfl
@[simp] theorem startTimer_descTmr (s : State) : (startTimer s).descTmr = s.descTmr := rfl
@[simp] theorem startTimer_mem (s : State) : (startTimer s).mem = s.mem := rfl
@[simp] theorem startTimer_portLog (s : State) : (startTimer s).portLog = s.portLog := rfl
@[simp] theorem startTimer_inputs (s : State) : (startTimer s).inputs = s.inputs := rfl

/-! ### advancePage -/

@[simp] theorem advancePage_cfg (s : State) : (advancePage s).cfg = s.cfg := rfl
@[simp] theorem advancePage_bright (s : State) : (advancePage s).bright = s.bright := rfl
@[simp] theorem advancePage_resp (s : State) : (advancePage s).resp = s.resp := rfl
@[simp] theorem advancePage_rowsel (s : State) : (advancePage s).rowsel = s.rowsel := rfl
@[simp] theorem advancePage_pixbus (s : State) : (advancePage s).pixbus = s.pixbus := rfl
@[simp] theorem advancePage_period (s : State) : (advancePage s).period = s.period := rfl
@[simp] theorem advancePage_duty (s : State) : (advancePage s).duty = s.duty := rfl
@[simp] theorem advancePage_timerRun (s : State) : (advancePage s).timerRun = s.timerRun := rfl
@[simp] theorem advancePage_pending (s : State) : (advancePage s).pending = s.pending := rfl
@[simp] theorem advancePage_encBusy (s : State) : (advancePage s).encBusy = s.encBusy := rfl
@[simp] theorem advancePage_started (s : State) : (advancePage s).started = s.started := rfl
@[simp] theorem advancePage_halted (s : State) : (advancePage s).halted = s.halted := rfl
@[simp] theorem advancePage_irq (s : State) : (advancePage s).irq = s.irq := rfl
@[simp] theorem advancePage_front (s : State) : (advancePage s).front = s.front := rfl
@[simp] theorem advancePage_page (s : State) : (advancePage s).page = (s.page + 1) % s.cfg.pages := rfl
@[simp] theorem advancePage_scanState (s : State) : (advancePage s).scanState = s.scanState := rfl
@[simp] theorem advancePage_encPos (s : State) : (advancePage s).encPos = s.encPos := rfl
@[simp] theorem advancePage_encBack (s : State) : (advancePage s).encBack = s.encBack := rfl
@[simp] theorem advancePage_descAddr (s : State) : (advancePage s).descAddr = s.descAddr := rfl
@[simp] theorem advancePage_descPix0 (s : State) : (advancePage s).descPix0 = s.descPix0 := rfl
@[simp] theorem advancePage_descPix1 (s : State) : (advancePage s).descPix1 = s.descPix1 := rfl
@[simp] theorem advancePage_descTmr (s : State) : (advancePage s).descTmr = s.descTmr := rfl
@[simp] theorem advancePage_mem (s : State) : (advancePage s).mem = s.mem := rfl
@[simp] theorem advancePage_portLog (s : State) : (advancePage s).portLog = s.portLog := rfl
@[simp] theorem advancePage_inputs (s : State) : (advancePage s).inputs = s.inputs := rfl

/-! ### arm -/

@[simp] theorem arm_cfg (b : BufferId) (p : Nat) (s : State) : (arm b p s).cfg = s.cfg := rfl
@[simp] theorem arm_bright (b : BufferId) (p : Nat) (s : State) : (arm b p s).bright = s.bright := rfl
@[simp] theorem arm_resp (b : BufferId) (p : Nat) (s : State) : (arm b p s).resp = s.resp := rfl
@[simp] theorem arm_rowsel (b : BufferId) (p : Nat) (s : State) : (arm b p s).rowsel = s.rowsel := rfl
@[simp] theorem arm_pixbus (b : BufferId) (p : Nat) (s : State) : (arm b p s).pixbus = s.pixbus := rfl
@[simp] theorem arm_period (b : BufferId) (p : Nat) (s : State) : (arm b p s).period = s.period := rfl
@[simp] theorem arm_duty (b : BufferId) (p : Nat) (s : State) : (arm b p s).duty = s.duty := rfl
@[simp] theorem arm_timerRun (b : BufferId) (p : Nat) (s : State) : (arm b p s).timerRun = s.timerRun := rfl
@[simp] theorem arm_pending (b : BufferId) (p : Nat) (s : State) : (arm b p s).pending = s.pending := rfl
@[simp] theorem arm_encBusy (b : BufferId) (p : Nat) (s : State) : (arm b p s).encBusy = s.encBusy := rfl
@[simp] theorem arm_started (b : BufferId) (p : Nat) (s : State) : (arm b p s).started = s.started := rfl
@[simp] theorem arm_halted (b : BufferId) (p : Nat) (s : State) : (arm b p s).halted = s.halted := rfl
@[simp] theorem arm_irq (b : BufferId) (p : Nat) (s : State) : (arm b p s).irq = s.irq := rfl
@[simp] theorem arm_front (b : BufferId) (p : Nat) (s : State) : (arm b p s).front = s.front := rfl
@[simp] theorem arm_page (b : BufferId) (p : Nat) (s : State) : (arm b p s).page = s.page := rfl
@[simp] theorem arm_scanState (b : BufferId) (p : Nat) (s : State) : (arm b p s).scanState = s.scanState := rfl
@[simp] theorem arm_encPos (b : BufferId) (p : Nat) (s : State) : (arm b p s).encPos = s.encPos := rfl
@[simp] theorem arm_encBack (b : BufferId) (p : Nat) (s : State) : (arm b p s).encBack = s.encBack := rfl
@[simp] theorem arm_descAddr (b : BufferId) (p : Nat) (s : State) : (arm b p s).descAddr = armedDesc s.cfg b p .addr := rfl
@[simp] theorem arm_descPix0 (b : BufferId) (p : Nat) (s : State) : (arm b p s).descPix0 = armedDesc s.cfg b p .pix0 := rfl
@[simp] theorem arm_descPix1 (b : BufferId) (p : Nat) (s : State) : (arm b p s).descPix1 = armedDesc s.cfg b p .pix1 := rfl
@[simp] theorem arm_descTmr (b : BufferId) (p : Nat) (s : State) : (arm b p s).descTmr = armedDesc s.cfg b p .tmr := rfl
@[simp] theorem arm_mem (b : BufferId) (p : Nat) (s : State) : (arm b p s).mem = s.mem := rfl
@[simp] theorem arm_portLog (b : BufferId) (p : Nat) (s : State) : (arm b p s).portLog = s.portLog := rfl
@[simp] theorem arm_inputs (b : BufferId) (p : Nat) (s : State) : (arm b p s).inputs = s.inputs := rfl

/-! ### rearm -/

@[simp] theorem rearm_cfg (s : State) : (rearm s).cfg = s.cfg := rfl
@[simp] theorem rearm_bright (s : State) : (rearm s).bright = s.bright := rfl
@[simp] theorem rearm_resp (s : State) : (rearm s).resp = s.resp := rfl
@[simp] theorem rearm_rowsel (s : State) : (rearm s).rowsel = s.rowsel := rfl
@[simp] theorem rearm_pixbus (s : State) : (rearm s).pixbus = s.pixbus := rfl
@[simp] theorem rearm_period (s : State) : (rearm s).period = s.period := rfl
@[simp] theorem rearm_duty (s : State) : (rearm s).duty = s.duty := rfl
@[simp] theorem rearm_timerRun (s : State) : (rearm s).timerRun = s.timerRun := rfl
@[simp] theorem rearm_pending (s : State) : (rearm s).pending = s.pending := rfl
@[simp] theorem rearm_encBusy (s : State) : (rearm s).encBusy = s.encBusy := rfl
@[simp] theorem rearm_started (s : State) : (rearm s).started = s.started := rfl
@[simp] theorem rearm_halted (s : State) : (rearm s).halted = s.halted := rfl
@[simp] theorem rearm_irq (s : State) : (rearm s).irq = s.irq := rfl
@[simp] theorem rearm_front (s : State) : (rearm s).front = s.front := rfl
@[simp] theorem rearm_page (s : State) : (rearm s).page = s.page := rfl
@[simp] theorem rearm_scanState (s : State) : (rearm s).scanState = s.scanState := rfl
@[simp] theorem rearm_encPos (s : State) : (rearm s).encPos = s.encPos := rfl
@[simp] theorem rearm_encBack (s : State) : (rearm s).encBack = s.encBack := rfl
@[simp] theorem rearm_descAddr (s : State) : (rearm s).descAddr = armedDesc s.cfg s.front s.page .addr := rfl
@[simp] theorem rearm_descPix0 (s : State) : (rearm s).descPix0 = armedDesc s.cfg s.front s.page .pix0 := rfl
@[simp] theorem rearm_descPix1 (s : State) : (rearm s).descPix1 = armedDesc s.cfg s.front s.page .pix1 := rfl
@[simp] theorem rearm_descTmr (s : State) : (rearm s).descTmr = armedDesc s.cfg s.front s.page .tmr := rfl
@[simp] theorem rearm_mem (s : State) : (rearm s).mem = s.mem := rfl
@[simp] theorem rearm_portLog (s : State) : (rearm s).portLog = s.portLog := rfl
@[simp] theorem rearm_inputs (s : State) : (rearm s).inputs = s.inputs := rfl

/-! ### swapIfPending -/

@[simp] theorem swapIfPending_cfg (s : State) : (swapIfPending s).cfg = s.cfg := by
  unfold swapIfPending; split <;> simp_all
@[simp] theorem swapIfPending_bright (s : State) : (swapIfPending s).bright = s.bright := by
  unfold swapIfPending; split <;> simp_all
@[simp] theorem swapIfPending_resp (s : State) : (swapIfPending s).resp = s.resp := by
  unfold swapIfPending; split <;> simp_all
@[simp] theorem swapIfPending_rowsel (s : State) : (swapIfPending s).rowsel = s.rowsel := by
  unfold swapIfPending; split <;> simp_all
@[simp] theorem swapIfPending_pixbus (s : State) : (swapIfPending s).pixbus = s.pixbus := by
  unfold swapIfPending; split <;> simp_all
@[simp] theorem swapIfPending_period (s : State) : (swapIfPending s).period = s.period := by
  unfold swapIfPending; split <;> simp_all
@[simp] theorem swapIfPending_duty (s : State) : (swapIfPending s).duty = s.duty := by
  unfold swapIfPending; split <;> simp_all
@[simp] theorem swapIfPending_timerRun (s : State) : (swapIfPending s).timerRun = s.timerRun := by
  unfold swapIfPending; split <;> simp_all
@[simp] theorem swapIfPending_pending (s : State) : (swapIfPending s).pending = false := by
  unfold swapIfPending; split <;> simp_all
@[simp] theorem swapIfPending_encBusy (s : State) : (swapIfPending s).encBusy = s.encBusy := by
  unfold swapIfPending; split <;> simp_all
@[simp] theorem swapIfPending_started (s : State) : (swapIfPending s).started = s.started := by
  unfold swapIfPending; split <;> simp_all
@[simp] theorem swapIfPending_halted (s : State) : (swapIfPending s).halted = s.halted := by
  unfold swapIfPending; split <;> simp_all
@[simp] theorem swapIfPending_irq (s : State) : (swapIfPending s).irq = s.irq := by
  unfold swapIfPending; split <;> simp_all
@[simp] theorem swapIfPending_front (s : State) : (swapIfPending s).front = if s.pending then s.front.other else s.front := by
  unfold swapIfPending; split <;> simp_all
@[simp] theorem swapIfPending_page (s : State) : (swapIfPending s).page = s.page := by
  unfold swapIfPending; split <;> simp_all
@[simp] theorem swapIfPending_scanState (s : State) : (swapIfPending s).scanState = s.scanState := by
  unfold swapIfPending; split <;> simp_all
@[simp] theorem swapIfPending_encPos (s : State) : (swapIfPending s).encPos = s.encPos := by
  unfold swapIfPending; split <;> simp_all
@[simp] theorem swapIfPending_encBack (s : State) : (swapIfPending s).encBack = s.encBack := by
  unfold swapIfPending; split <;> simp_all
@[simp] theorem swapIfPending_descAddr (s : State) : (swapIfPending s).descAddr = s.descAddr := by
  unfold swapIfPending; split <;> simp_all
@[simp] theorem swapIfPending_descPix0 (s : State) : (swapIfPending s).descPix0 = s.descPix0 := by
  unfold swapIfPending; split <;> simp_all
@[simp] theorem swapIfPending_descPix1 (s : State) : (swapIfPending s).descPix1 = s.descPix1 := by
  unfold swapIfPending; split <;> simp_all
@[simp] theorem swapIfPending_descTmr (s : State) : (swapIfPending s).descTmr = s.descTmr := by
  unfold swapIfPending; split <;> simp_all
@[simp] theorem swapIfPending_mem (s : State) : (swapIfPending s).mem = s.mem := by
  unfold swapIfPending; split <;> simp_all
@[simp] theorem swapIfPending_portLog (s : State) : (swapIfPending s).portLog = s.portLog := by
  unfold swapIfPending; split <;> simp_all
@[simp] theorem swapIfPending_inputs (s : State) : (swapIfPending s).inputs = s.inputs := by
  unfold swapIfPending; split <;> simp_all

/-! ### setDesc -/

@[simp] theorem setDesc_cfg (s : State) (ch : Chan) (d : Desc) : (s.setDesc ch d).cfg = s.cfg := by
  cases ch <;> rfl
@[simp] theorem setDesc_bright (s : State) (ch : Chan) (d : Desc) : (s.setDesc ch d).bright = s.bright := by
  cases ch <;> rfl
@[simp] theorem setDesc_resp (s : State) (ch : Chan) (d : Desc) : (s.setDesc ch d).resp = s.resp := by
  cases ch <;> rfl
@[simp] theorem setDesc_rowsel (s : State) (ch : Chan) (d : Desc) : (s.setDesc ch d).rowsel = s.rowsel := by
  cases ch <;> rfl
@[simp] theorem setDesc_pixbus (s : State) (ch : Chan) (d : Desc) : (s.setDesc ch d).pixbus = s.pixbus := by
  cases ch <;> rfl
@[simp] theorem setDesc_period (s : State) (ch : Chan) (d : Desc) : (s.setDesc ch d).period = s.period := by
  cases ch <;> rfl
@[simp] theorem setDesc_duty (s : State) (ch : Chan) (d : Desc) : (s.setDesc ch d).duty = s.duty := by
  cases ch <;> rfl
@[simp] theorem setDesc_timerRun (s : State) (ch : Chan) (d : Desc) : (s.setDesc ch d).timerRun = s.timerRun := by
  cases ch <;> rfl
@[simp] theorem setDesc_pending (s : State) (ch : Chan) (d : Desc) : (s.setDesc ch d).pending = s.pending := by
  cases ch <;> rfl
@[simp] theorem setDesc_encBusy (s : State) (ch : Chan) (d : Desc) : (s.setDesc ch d).encBusy = s.encBusy := by
  cases ch <;> rfl
@[simp] theorem setDesc_started (s : State) (ch : Chan) (d : Desc) : (s.setDesc ch d).started = s.started := by
  cases ch <;> rfl
@[simp] theorem setDesc_halted (s : State) (ch : Chan) (d : Desc) : (s.setDesc ch d).halted = s.halted := by
  cases ch <;> rfl
@[simp] theorem setDesc_irq (s : State) (ch : Chan) (d : Desc) : (s.setDesc ch d).irq = s.irq := by
  cases ch <;> rfl
@[simp] theorem setDesc_front (s : State) (ch : Chan) (d : Desc) : (s.setDesc ch d).front = s.front := by
  cases ch <;> rfl
@[simp] theorem setDesc_page (s : State) (ch : Chan) (d : Desc) : (s.setDesc ch d).page = s.page := by
  cases ch <;> rfl
@[simp] theorem setDesc_scanState (s : State) (ch : Chan) (d : Desc) : (s.setDesc ch d).scanState = s.scanState := by
  cases ch <;> rfl
@[simp] theorem setDesc_encPos (s : State) (ch : Chan) (d : Desc) : (s.setDesc ch d).encPos = s.encPos := by
  cases ch <;> rfl
@[simp] theorem setDesc_encBack (s : State) (ch : Chan) (d : Desc) : (s.setDesc ch d).encBack = s.encBack := by
  cases ch <;> rfl
@[simp] theorem setDesc_mem (s : State) (ch : Chan) (d : Desc) : (s.setDesc ch d).mem = s.mem := by
  cases ch <;> rfl
@[simp] theorem setDesc_portLog (s : State) (ch : Chan) (d : Desc) : (s.setDesc ch d).portLog = s.portLog := by
  cases ch <;> rfl
@[simp] theorem setDesc_inputs (s : State) (ch : Chan) (d : Desc) : (s.setDesc ch d).inputs = s.inputs := by
  cases ch <;> rfl

@[simp] theorem setDesc_desc (s : State) (ch ch' : Chan) (d : Desc) :
    (s.setDesc ch d).desc ch' = if ch' = ch then d else s.desc ch' := by
  cases ch <;> cases ch' <;> rfl

/-! ### resetStep -/

@[simp] theorem resetStep_cfg (s : State) : (resetStep s).cfg = s.cfg := rfl
@[simp] theorem resetStep_inputs (s : State) : (resetStep s).inputs = s.inputs := rfl

theorem resetStep_eq (s : State) : resetStep s = { State.resetOf s.cfg with inputs := s.inputs } := rfl

/-! ### Buffer identities -/

@[simp] theorem BufferId.other_other (b : BufferId) : b.other.other = b := by cases b <;> rfl

theorem BufferId.other_ne (b : BufferId) : b.other ≠ b := by cases b <;> decide

theorem BufferId.eq_other_of_ne {a b : BufferId} (h : a ≠ b) : a = b.other := by
  cases a <;> cases b <;> simp_all [BufferId.other]

/-! ### Offering an event -/

theorem step_cons {s : State} {e : Event} {rest : List Event} (h : s.inputs = e :: rest) :
    step s = perform e { s with inputs := rest } := by simp [step, h]

theorem step_nil {s : State} (h : s.inputs = []) : step s = .next s := by simp [step, h]

end Sys2Proof.Machine
end

