-- ==== Sys2Proof/Laws/Step.lean ====
section
/-! SUPPORT. What each command, each event and the step can do: one equation per command, the cases of a step. -/

namespace Sys2Proof.Machine

/-! ### Commands -/

theorem accept_halted {s : State} (h : s.halted = true) (effect : Result) : accept s effect = .next s := by
  simp [accept, h, dropped]

theorem accept_running {s : State} (h : s.halted = false) (effect : Result) : accept s effect = effect := by
  simp [accept, h]

theorem execGetbright_eq {s : State} (h : s.halted = false) :
    execGetbright s = .next { s with resp := s.bright.setWidth 32 } := accept_running h _

theorem execGetpixels_eq {s : State} (h : s.halted = false) :
    execGetpixels s = .next { s with resp := BitVec.ofNat 32 s.cfg.pixbufBase } := accept_running h _

theorem execShowStart_eq {s : State} (h : s.halted = false) :
    execShowStart s = if s.encBusy then .next s else .next (startPublish s) := accept_running h _

theorem execRefresh_eq {s : State} (h : s.halted = false) :
    execRefresh s =
      if s.scanState = .waitRefresh then .next (resumeScan (rearm (advancePage (swapIfPending s)))) else .next s :=
  accept_running h _

theorem execMemrd_value {off : BitVec 24} {val : BitVec 8} (h : val ≠ 0#8) (s : State) :
    execMemrd off val s = .next s := by
  simp [execMemrd, accept, h, dropped]

theorem exec_halted (i : Instr) {s : State} (h : s.halted = true) : exec i s = .next s := by
  cases i <;> exact accept_halted h _

/-! ### Events and the step -/

theorem perform_command (w : CommandWord) (s : State) : perform (.command w) s = acceptWord w s := rfl

theorem perform_reset (s : State) : perform .reset s = .next (resetStep s) := rfl

theorem perform_tick (s : State) : perform .tick s = if s.timerRun then tick s else .next s := rfl

theorem perform_encstep (s : State) : perform .encstep s = if s.encBusy then encStep s else .next s := rfl

theorem acceptWord_cases {w : CommandWord} {s t : State} (h : acceptWord w s = .next t) :
    t = s ∨ ∃ i, decode w = .ok i ∧ exec i s = .next t := by
  simp only [acceptWord] at h
  split at h
  · rename_i i hi
    exact .inr ⟨i, hi, h⟩
  · cases h
    exact .inl rfl

/-- Everything a step can do. -/
theorem step_cases {s t : State} (h : step s = .next t) :
    (s.inputs = [] ∧ t = s)
      ∨ ∃ e rest, s.inputs = e :: rest ∧ perform e { s with inputs := rest } = .next t := by
  simp only [step] at h
  split at h
  · rename_i hnil
    cases h
    exact .inl ⟨hnil, rfl⟩
  · rename_i e rest hcons
    exact .inr ⟨e, rest, hcons, h⟩

/-! ### Runs -/

/-- A run goes on after a step that answers a next state. -/
theorem run_succ {s t : State} (h : step s = .next t) (k : Nat) :
    Sys2Proof.core.run (k + 1) s = Sys2Proof.core.run k t := by
  have general : ∀ (M : Host.Core) (a b : M.State), M.step a = .next b → M.run (k + 1) a = M.run k b := by
    intro M a b hab
    simp only [Host.Core.run, hab]
  exact general Sys2Proof.core s t h

end Sys2Proof.Machine
end

