-- ==== Sys2Proof/Tests/Slice0.lean ====
section
/-! SUPPORT. Tests: expected values from spec/95_test_vectors.md (the vector is named at each test), and for every
obligation with hypotheses a witness that meets them. -/

-- One theorem after another: a kernel evaluation waits for all theorems before it, and elaborating them side by
-- side holds a thread for each one that waits.
set_option Elab.async false


namespace Sys2Proof.Tests

open Sys2Proof.Machine

/-! ### States -/

/-- TINY right after reset. -/
def tiny : State := State.resetOf Config.tiny

/-- TINY with resources unavailable (spec/00_scope.md R10, RES_OK). -/
def tinyNoResources : State :=
  State.resetOf
    { toParams := { Params.reference 2 2 2 1 6 3 4 with resOk := false }, isValid := by decide +kernel }

/-- The state one event later; the same state if the event stops. -/
def after (e : Event) (s : State) : State :=
  match perform e s with
  | .next t => t
  | .fault _ => s
  | .refused _ => s

/-- The state one command later. -/
def afterCommand (i : Instr) (s : State) : State := after (.command (encode i)) s

/-- TINY right after BEGIN. -/
def begun : State := afterCommand .begin tiny

/-- TINY, scanning, k slots into page 0 of buffer 0. -/
def atSlot (k : Nat) : State :=
  { begun with
    descAddr := scanDesc Config.tiny .buf0 0 k .addr, descPix0 := scanDesc Config.tiny .buf0 0 k .pix0
    descPix1 := scanDesc Config.tiny .buf0 0 k .pix1, descTmr := scanDesc Config.tiny .buf0 0 k .tmr }

/-- TINY waiting for REFRESH. -/
def waiting : State := { atSlot 5 with scanState := .waitRefresh, irq := true }

/-- TINY waiting for REFRESH with a publish complete. -/
def swapReady : State := { waiting with pending := true }

/-- TINY with a publish just started. -/
def publishing : State := startPublish tiny

/-- The memory 31 words into a publish of an all-black panel: the clock bit in every second word (V40). -/
def blackMemory : Memory := (List.range 15).map fun j => (0x20000001 + 2 * j, 8#8)

/-- TINY one ENCSTEP before the end of a publish of an all-black panel. -/
def lastWord : State := { publishing with encPos := 31#32, mem := blackMemory }

/-- TINY halted, with a publish complete. -/
def haltedPending : State := { tinyNoResources with halted := true, pending := true }

/-- The event offered next. -/
def offer (e : Event) (s : State) : State := { s with inputs := [e] }

/-- The five bytes of the AddressTable of TINY. -/
def addrBytes (s : State) : List Byte := (List.range 5).map fun k => s.mem.readByte (0x40000 + k)

/-- The ten elements of the TimerTable of TINY: (period, duty) five times. -/
def timerHalves (s : State) : List (BitVec 16) := (List.range 10).map fun k => s.mem.readHalf (0x50000 + 2 * k)

/-- A result is the next state t. -/
def reaches (r : Result) (t : State) : Bool :=
  match r with
  | .next u => decide (u = t)
  | .fault _ => false
  | .refused _ => false

theorem eq_of_reaches {r : Result} {t : State} (h : reaches r t = true) : r = .next t := by
  cases r with
  | next u => exact congrArg _ (of_decide_eq_true h)
  | fault f => cases h
  | refused f => cases h

/-! ### WellFormed: the check refuses the ill-formed term -/

theorem test_wellformed_memrd_value : (Instr.memrd 10#24 1#8).wellFormed = false := by decide

theorem test_wellformed_others :
    (Instr.memrd 10#24 0#8).wellFormed = true ∧ (Instr.setpix 255#8 255#8 0#8 0#8 0#8).wellFormed = true := by decide

/-! ### Decoding: words written out from spec/30_encoding.md R90 to R96 (V1 to V9b) -/

theorem test_decode_begin : decode 0x0100000000000000#64 = .ok .begin := by decide

theorem test_decode_setbright :
    decode 0x020000000000012C#64 = .ok (.setbright 300#32)
      ∧ decode 0x02000000FFFFFFFF#64 = .ok (.setbright 0xFFFFFFFF#32) := by decide

theorem test_decode_getbright : decode 0x0300000000000000#64 = .ok .getbright := by decide

theorem test_decode_setpix :
    decode 0x0400000000FF0000#64 = .ok (.setpix 0#8 0#8 255#8 0#8 0#8)
      ∧ decode 0x04000003024080C0#64 = .ok (.setpix 3#8 2#8 64#8 128#8 192#8) := by decide

theorem test_decode_getpixels : decode 0x0500000000000000#64 = .ok .getpixels := by decide

theorem test_decode_show : decode 0x0600000000000000#64 = .ok .showStart := by decide

theorem test_decode_refresh : decode 0x0700000000000000#64 = .ok .refresh := by decide

theorem test_decode_memwr : decode 0x0800000000000B25#64 = .ok (.memwr 11#24 0x25#8) := by decide

theorem test_decode_memrd : decode 0x0900000000000A00#64 = .ok (.memrd 10#24 0#8) := by decide

/-- The invalid words of spec/95_test_vectors.md section 2.1. -/
theorem test_decode_invalid :
    decode 0x0000000000000000#64 = .error .unassignedOpcode ∧ decode 0x0A00000000000000#64 = .error .unassignedOpcode
      ∧ decode 0xFF00000000000000#64 = .error .unassignedOpcode
      ∧ decode 0x0100000000000001#64 = .error .nonzeroZeroField
      ∧ decode 0x0300010000000000#64 = .error .nonzeroZeroField
      ∧ decode 0x0200000100000000#64 = .error .nonzeroZeroField
      ∧ decode 0x0400010000000000#64 = .error .nonzeroZeroField
      ∧ decode 0x0800000100000000#64 = .error .nonzeroZeroField
      ∧ decode 0x0900000000000A01#64 = .error .memrdValue
      ∧ decode 0x0680000000000000#64 = .error .nonzeroZeroField := by decide

theorem test_encode_words :
    encode (.setpix 1#8 1#8 128#8 255#8 37#8) = 0x040000010180FF25#64
      ∧ encode (.setbright 128#32) = 0x0200000000000080#64 ∧ encode (.memwr 11#24 0x25#8) = 0x0800000000000B25#64
      ∧ encode (.memrd 10#24 0#8) = 0x0900000000000A00#64 := by decide

/-! ### One step of each command -/

/-- V50: the registers after BEGIN. -/
theorem test_begin_registers :
    begun.scanState = .run ∧ begun.timerRun = true ∧ begun.started = true ∧ begun.irq = false ∧ begun.slot = 0
      ∧ begun.rowsel = 2#8 ∧ begun.period = 4#16 := by decide +kernel

/-- V10, V20: the two tables after BEGIN. -/
theorem test_begin_tables :
    addrBytes begun = [0#8, 0#8, 1#8, 1#8, 2#8]
      ∧ timerHalves begun = [4#16, 4#16, 8#16, 8#16, 4#16, 4#16, 8#16, 8#16, 4#16, 0#16] := by decide +kernel

/-- V25: rounding down once. -/
theorem test_setbright_rounds_once :
    timerHalves (afterCommand (.setbright 255#32) tiny)
      = [4#16, 3#16, 8#16, 6#16, 4#16, 3#16, 8#16, 6#16, 4#16, 0#16] := by decide +kernel

/-- V26, V27, V28, V29: the clamp at both ends. -/
theorem test_setbright_clamps :
    (afterCommand (.setbright 300#32) tiny).bright = 256#17 ∧ (afterCommand (.setbright 0xFFFFFFFF#32) tiny).bright = 0#17
      ∧ (afterCommand (.setbright 0x80000000#32) tiny).bright = 0#17
      ∧ (afterCommand (.setbright 0x7FFFFFFF#32) tiny).bright = 256#17 := by decide +kernel

/-- V20: GETBRIGHT after reset. -/
theorem test_getbright_reset : (afterCommand .getbright tiny).resp = 0x100#32 := by decide +kernel

/-- V36: the last pixel of TINY. -/
theorem test_setpix_last_pixel :
    (afterCommand (.setpix 1#8 1#8 128#8 255#8 37#8) tiny).mem = [(9, 0x80#8), (10, 0xFF#8), (11, 0x25#8)] := by
  decide +kernel

/-- V38, V38a: a column or a row out of range. -/
theorem test_setpix_out_of_range :
    afterCommand (.setpix 2#8 0#8 1#8 2#8 3#8) tiny = tiny ∧ afterCommand (.setpix 0#8 2#8 1#8 2#8 3#8) tiny = tiny := by
  decide +kernel

/-- V38f. -/
theorem test_getpixels_base : (afterCommand .getpixels { tiny with resp := 7#32 }).resp = 0#32 := by decide +kernel

/-- V38b, V38c: the last byte and the first past the end. -/
theorem test_memwr_edge :
    (afterCommand (.memwr 11#24 0x25#8) tiny).mem = [(11, 0x25#8)] ∧ afterCommand (.memwr 12#24 1#8) tiny = tiny := by
  decide +kernel

/-- V37: MEMRD of the green byte of pixel (1, 1). -/
theorem test_memrd_byte :
    (afterCommand (.memrd 10#24 0#8) { tiny with mem := [(9, 0x80#8), (10, 0xFF#8), (11, 0x25#8)] }).resp = 0xFF#32 := by
  decide +kernel

/-- V38d: out of range, RESP stays. -/
theorem test_memrd_out_of_range : (afterCommand (.memrd 12#24 0#8) { tiny with resp := 0xFF#32 }).resp = 0xFF#32 := by
  decide +kernel

/-- V45: SHOW start, and a second SHOW dropped. -/
theorem test_show_start :
    afterCommand .showStart tiny = publishing ∧ publishing.encBack = .buf1 ∧ publishing.encPos = 0#32
      ∧ publishing.encBusy = true ∧ afterCommand .showStart publishing = publishing := by decide +kernel

/-- V55: REFRESH without a pending publish. -/
theorem test_refresh_page :
    (afterCommand .refresh waiting).front = .buf0 ∧ (afterCommand .refresh waiting).page = 1
      ∧ (afterCommand .refresh waiting).irq = false ∧ (afterCommand .refresh waiting).slot = 0
      ∧ (afterCommand .refresh waiting).descPix0.src = 0x10000010#32
      ∧ (afterCommand .refresh waiting).descPix1.src = 0x10000012#32 := by decide +kernel

/-- P1 step 6: REFRESH with a pending publish swaps the buffers; V56: dropped from reset. -/
theorem test_refresh_swap :
    (afterCommand .refresh swapReady).front = .buf1 ∧ (afterCommand .refresh swapReady).pending = false
      ∧ (afterCommand .refresh swapReady).descPix0.src = 0x20000010#32 ∧ afterCommand .refresh tiny = tiny := by
  decide +kernel

/-! ### One internal event -/

/-- V51: the first TICK. -/
theorem test_tick_first :
    (after .tick begun).portLog
        = [⟨0, .addr, 0, 0#16⟩, ⟨0, .timer, 0, 4#16⟩, ⟨0, .timer, 1, 4#16⟩, ⟨0, .pixbus, 0, 0#16⟩,
          ⟨0, .pixbus, 1, 0#16⟩, ⟨0, .pixbus, 0, 0#16⟩, ⟨0, .pixbus, 1, 0#16⟩]
      ∧ (after .tick begun).descPix1.src = 0x10000006#32 ∧ (after .tick begun).slot = 1 := by decide +kernel

/-- V53: the completing TICK; V54: a TICK while waiting. -/
theorem test_tick_completing :
    (after .tick (atSlot 4)).portLog = [⟨4, .addr, 0, 2#16⟩, ⟨4, .timer, 0, 4#16⟩, ⟨4, .timer, 1, 0#16⟩]
      ∧ (after .tick (atSlot 4)).irq = true ∧ (after .tick (atSlot 4)).scanState = .waitRefresh
      ∧ (after .tick (atSlot 4)).descTmr.src = 0x50014#32 ∧ after .tick waiting = waiting := by decide +kernel

/-- V42: the word at position 1 of a publish of one red pixel. -/
theorem test_encstep_word :
    (after .encstep { publishing with encPos := 1#32, mem := [(0, 0xFF#8)] }).mem = [(0, 0xFF#8), (0x20000001, 9#8)] := by
  decide +kernel

/-- V40, R170: the last word of a publish sets PENDING and clears ENC_BUSY. -/
theorem test_encstep_completes :
    (after .encstep lastWord).pending = true ∧ (after .encstep lastWord).encBusy = false
      ∧ (after .encstep lastWord).mem.readByte 0x2000001F = 8#8 := by decide +kernel

/-- V60: RESET. -/
theorem test_reset_any : after .reset swapReady = tiny := by decide +kernel

/-- V61 (P4): BEGIN without resources. -/
theorem test_begin_halts : afterCommand .begin tinyNoResources = { tinyNoResources with halted := true } := by
  decide +kernel

/-- V50: the packed image of CH_ADDR and CH_PIX1. -/
theorem test_packed_image :
    begun.descAddr.packed = [0x00040000#32, 0x00010000#32, 0x00050005#32, 0x00000030#32]
      ∧ begun.descPix1.packed = [0x10000002#32, 0x00020002#32, 0x00040004#32, 0x00000029#32] := by decide +kernel

/-- V50 in the register window at DESC_BASE = 0x0009_0000 (R61): the flags word of CH_PIX1, channel 2, is 0x29, its
lowest byte first, and the word of NELEM and SKIP of CH_TMR, channel 3, is 0x00020000. -/
theorem test_packed_window :
    begun.descWindowWord 0x0009002C = some 0x29#32 ∧ begun.descWindowByte 0x0009002C = some 0x29#8
      ∧ begun.descWindowWord 0x00090034 = some 0x00020000#32 ∧ begun.descWindowByte 0x00090036 = some 2#8 := by
  decide +kernel

/-- The reset state's memory is in canonical form. -/
theorem test_reset_memory_wf : State.reset.mem.wf = true := by decide

/-- The first step after reset runs the command offered. -/
theorem test_step_runs_offered_word :
    step (State.reset.withFetchWord 64 0x0300000000000000) = .next { State.reset with resp := 0x100#32 } := by
  rfl

/-! ### Witnesses: states and operands that meet the hypotheses of each obligation -/

/-- The invariant holds in the states the witnesses use. -/
theorem inv_tiny : Inv tiny := by constructor <;> decide +kernel

theorem inv_begun : Inv begun := by constructor <;> decide +kernel

theorem inv_atSlot_3 : Inv (atSlot 3) := by constructor <;> decide +kernel

theorem inv_atSlot_4 : Inv (atSlot 4) := by constructor <;> decide +kernel

theorem inv_waiting : Inv waiting := by constructor <;> decide +kernel

theorem inv_swapReady : Inv swapReady := by constructor <;> decide +kernel

theorem inv_publishing : Inv publishing := by constructor <;> decide +kernel

theorem inv_lastWord : Inv lastWord := by constructor <;> decide +kernel

theorem inv_haltedPending : Inv haltedPending := by constructor <;> decide +kernel

theorem witness_DecodeOfEncodeIsTheCommand :
    (Instr.setpix 255#8 255#8 255#8 255#8 255#8).wellFormed = true ∧ (Instr.memrd 0xFFFFFF#24 0#8).wellFormed = true := by
  decide

theorem witness_EncodeOfDecodedWordIsTheWord :
    decode 0x040000010180FF25#64 = .ok (.setpix 1#8 1#8 128#8 255#8 37#8) := by decide

theorem witness_WordIsCommandOfRowIffMatch :
    Instr.opcodeRow (.memrd 0#24 0#8) ∈ opcodeTable
      ∧ (Instr.opcodeRow (.memrd 0#24 0#8)).matches 0x0900000000000A00#64 = true
      ∧ (Instr.opcodeRow (.memrd 0#24 0#8)).matches 0x0900000000000A01#64 = false := by decide

/-- The invalid words of the spec, the boundaries of the unassigned opcodes among them; a valid word is none. -/
theorem witness_InvalidWordsAreExactlyReservedAndDropped :
    reservedWord 0x0000000000000000#64 = true ∧ reservedWord 0x0A00000000000000#64 = true
      ∧ reservedWord 0xFF00000000000000#64 = true ∧ reservedWord 0x0100000000000001#64 = true
      ∧ reservedWord 0x0200000100000000#64 = true ∧ reservedWord 0x0400010000000000#64 = true
      ∧ reservedWord 0x0900000000000A01#64 = true ∧ reservedWord 0x0900000000000A00#64 = false := by decide

theorem witness_StepRunsDecodedCommand :
    (offer (.command 0x0700000000000000#64) waiting).inputs = .command 0x0700000000000000#64 :: []
      ∧ decode 0x0700000000000000#64 = .ok .refresh := by decide +kernel

theorem witness_OfferedCommandWordIsRunNext : (Instr.memwr 11#24 0x25#8).wellFormed = true := by decide

theorem witness_StepPerformsOfferedEvent :
    tiny.inputs = [] ∧ (offer .tick begun).inputs = .tick :: [] ∧ (offer .encstep publishing).inputs = .encstep :: []
      ∧ (offer .reset begun).inputs = .reset :: [] := by decide +kernel

/-- Every way a command can be ineffective, at the edges of the ranges. -/
theorem witness_IneffectiveStepChangesNothing :
    effective .begin begun = false ∧ effective (.setpix 2#8 0#8 0#8 0#8 0#8) tiny = false
      ∧ effective (.setpix 0#8 2#8 0#8 0#8 0#8) tiny = false ∧ effective .showStart publishing = false
      ∧ effective .refresh begun = false ∧ effective (.memwr 12#24 0#8) tiny = false
      ∧ effective (.memrd 12#24 0#8) tiny = false ∧ effective .getbright haltedPending = false
      ∧ waiting.scanState ≠ .run := by decide +kernel

theorem witness_MemoryIsLittleEndian :
    begun.mem.wf = true ∧ mapped begun.cfg 0x50000 = true ∧ 0x50000 % 2 = 0 ∧ mapped begun.cfg 0x50001 = true := by
  decide +kernel

/-- Each clause at a boundary: the last address of PIXBUF and the first past it, the ends of the descriptor window, an
odd address, and an even address whose second byte is past the end of ADDRTAB (its size is 5). -/
theorem witness_UnmappedAndMisalignedAccessesHaveNoStep :
    mapped Config.tiny 11 = true ∧ mapped Config.tiny 12 = false ∧ mapped Config.tiny 0x90000 = false
      ∧ mapped Config.tiny 0x9003F = false ∧ 0x50001 % 2 = 1 ∧ 0x40004 % 2 = 0 ∧ mapped Config.tiny 0x40004 = true
      ∧ mapped Config.tiny 0x40005 = false := by decide +kernel

theorem witness_SetbrightStoresClampAndRebuildsTable :
    begun.halted = false ∧ begun.mem.wf = true ∧ 3 < begun.cfg.nSlots ∧ inTmrtab begun.cfg 0x5FFFF = false
      ∧ inTmrtab begun.cfg 0x50013 = true ∧ haltedPending.halted = true := by decide +kernel

theorem witness_GetbrightAnswersStoredBrightness :
    begun.halted = false ∧ exec (.setbright 300#32) tiny = .next (afterCommand (.setbright 300#32) tiny) := by
  exact ⟨by decide +kernel, rfl⟩

/-- Plane 1 of the last row, two planes of one row, the sentinel, two rows, a UNIT_TIME × BRIGHT just below
BRIGHT_ONE (4 × 63 < 256). -/
theorem witness_BuiltTimerTableProperties :
    tiny.halted = false ∧ tiny.mem.wf = true
      ∧ exec (.setbright 63#32) tiny = .next (afterCommand (.setbright 63#32) tiny) ∧ 3 < tiny.cfg.nSlots
      ∧ 1 ≤ 3 % tiny.cfg.pwmBits ∧ 2 / tiny.cfg.pwmBits = 3 / tiny.cfg.pwmBits ∧ 4 < tiny.cfg.tableLen
      ∧ 1 + tiny.cfg.pwmBits < tiny.cfg.nSlots ∧ tiny.cfg.unitTime * 63 < tiny.cfg.brightOne
      ∧ (afterCommand (.setbright 63#32) tiny).bright.toNat = 63 := by
  exact ⟨by decide +kernel, by decide +kernel, rfl, by decide +kernel, by decide +kernel, by decide +kernel,
    by decide +kernel, by decide +kernel, by decide +kernel, by decide +kernel⟩

theorem witness_SettingStoredBrightnessChangesNothing :
    Inv begun ∧ begun.started = true ∧ brightOperand begun.cfg 256#32 = begun.bright
      ∧ brightOperand begun.cfg 0x7FFFFFFF#32 = begun.bright :=
  ⟨inv_begun, by decide +kernel, by decide +kernel, by decide +kernel⟩

theorem witness_SetpixWritesThePixelOrIsDropped :
    tiny.halted = false ∧ tiny.mem.wf = true ∧ (1#8).toNat < tiny.cfg.columns ∧ (1#8).toNat < tiny.cfg.rows
      ∧ tiny.cfg.columns ≤ (2#8).toNat ∧ tiny.cfg.rows ≤ (2#8).toNat ∧ haltedPending.halted = true := by decide +kernel

theorem witness_GetpixelsAnswersPixbufBase : tiny.halted = false := by decide +kernel

theorem witness_MemwrWritesOneByteOrIsDropped :
    tiny.halted = false ∧ tiny.mem.wf = true ∧ (11#24).toNat < 3 * tiny.cfg.rows * tiny.cfg.columns
      ∧ 3 * tiny.cfg.rows * tiny.cfg.columns ≤ (12#24).toNat ∧ (1#8).toNat < tiny.cfg.columns
      ∧ (1#8).toNat < tiny.cfg.rows := by decide +kernel

theorem witness_MemrdAnswersPixelByteOrIsDropped :
    tiny.halted = false ∧ (11#24).toNat < 3 * tiny.cfg.rows * tiny.cfg.columns
      ∧ 3 * tiny.cfg.rows * tiny.cfg.columns ≤ (12#24).toNat := by decide +kernel

theorem witness_MemrdReadsWhatMemwrWrote :
    tiny.halted = false ∧ tiny.mem.wf = true ∧ (11#24).toNat < 3 * tiny.cfg.rows * tiny.cfg.columns := by decide +kernel

theorem witness_MemrdWithValueHasNoEffect : 1#8 ≠ 0#8 := by decide

theorem witness_ShowStartsAPublishOrIsDropped :
    tiny.halted = false ∧ tiny.encBusy = false ∧ publishing.encBusy = true ∧ haltedPending.halted = true := by
  decide +kernel

/-- The first word and the last. -/
theorem witness_EncstepWritesOneWord :
    publishing.encBusy = true ∧ publishing.encPos.toNat + 1 < publishing.cfg.bufSize ∧ publishing.mem.wf = true
      ∧ lastWord.encBusy = true ∧ lastWord.encPos.toNat < lastWord.cfg.bufSize ∧ lastWord.mem.wf = true
      ∧ lastWord.encPos.toNat + 1 = lastWord.cfg.bufSize ∧ publishing.encBack ≠ publishing.front
      ∧ tiny.encBusy = false := by decide +kernel

/-- Every index at its last value; REF8 has columns in all its lanes, TINY's lanes are all columns. -/
theorem witness_BusWordHasLanesAndClock :
    1 < Config.tiny.pages ∧ 1 < Config.tiny.rows ∧ 1 < Config.tiny.pwmBits ∧ 1 < Config.tiny.groups
      ∧ 1 < Config.tiny.clkPhases ∧ 2 < Config.tiny.bitsPerWrite
      ∧ Config.tiny.laneMap[1 * Config.tiny.bitsPerWrite + 2]? = some (.led 1 .blue) := by decide +kernel

/-- A panel of one column on a driver of six bits has padding lanes. -/
theorem witness_BusWordHasLanesAndClock_pad :
    (Params.reference 2 1 2 1 6 3 4).valid = true ∧ (Params.reference 2 1 2 1 6 3 4).laneMap[5]? = some .pad := by
  decide +kernel

/-- The three ranks: below hi(D), equal, above (V33: D = 3 has hi 0, D = 7 has hi 1, in TINY). -/
theorem witness_DitheredBitByRank :
    1 < Config.tiny.pages ∧ 1 < Config.tiny.pwmBits
      ∧ Config.tiny.pageRanks.getD 0 0 < Config.tiny.driveCodes.getD 255 0 / 2 ^ Config.tiny.pwmBits
      ∧ Config.tiny.pageRanks.getD 1 0 = Config.tiny.driveCodes.getD 255 0 / 2 ^ Config.tiny.pwmBits
      ∧ Config.tiny.driveCodes.getD 128 0 / 2 ^ Config.tiny.pwmBits < Config.tiny.pageRanks.getD 1 0
      ∧ (Params.reference 2 2 2 0 6 3 4).valid = true := by decide +kernel

theorem witness_PageCycleShowsTheDriveCode : driveCode Config.tiny 37#8 ≤ driveCode Config.tiny 128#8 := by decide +kernel

/-- Two pixel buffers that differ in row 0 only, and a position of row 1; two positions that differ in the clock
phase only. -/
theorem witness_EncodeProperties :
    31 < Config.tiny.bufSize ∧ laneOf Config.tiny 0 0 ≠ .pad ∧ tiny.cfg = begun.cfg ∧ tiny.encPos = begun.encPos
      ∧ (∀ o, o < Config.tiny.pixbufSize → o / (3 * Config.tiny.columns) ≠ 0 →
          pixels Config.tiny [(0, 255#8)] o = pixels Config.tiny [] o)
      ∧ posRow Config.tiny 31 ≠ 0 ∧ posPage Config.tiny 30 = posPage Config.tiny 31
      ∧ posSlot Config.tiny 30 = posSlot Config.tiny 31
      ∧ posWord Config.tiny 30 / Config.tiny.clkPhases = posWord Config.tiny 31 / Config.tiny.clkPhases := by
  decide +kernel

theorem witness_WholePublishIsEncodeOfThePixels :
    let s := { tiny with inputs := .command (encode .showStart) :: List.replicate tiny.cfg.bufSize .encstep }
    s.halted = false ∧ s.encBusy = false ∧ s.mem.wf = true
      ∧ s.inputs = .command (encode .showStart) :: List.replicate s.cfg.bufSize .encstep := by decide +kernel

theorem witness_EncodedPrefixSurvivesInterleaving :
    Inv (offer (.command (encode .begin)) publishing) ∧ (offer (.command (encode .begin)) publishing).encBusy = true
      ∧ EncodedSoFar (offer (.command (encode .begin)) publishing)
      ∧ Event.writesPixels (.command (encode .begin)) = false
      ∧ ∃ t, step (offer (.command (encode .begin)) publishing) = .next t :=
  ⟨by constructor <;> decide +kernel, by decide +kernel, by decide +kernel, by decide +kernel, _, rfl⟩

/-- The last word: the publish completes. -/
theorem witness_EncodedPrefixSurvivesInterleaving_last :
    Inv (offer .encstep lastWord) ∧ (offer .encstep lastWord).encBusy = true ∧ EncodedSoFar (offer .encstep lastWord)
      ∧ step (offer .encstep lastWord) = .next (after .encstep lastWord) ∧ (after .encstep lastWord).encBusy = false :=
  ⟨by constructor <;> decide +kernel,
    by decide +kernel,
    by decide +kernel,
    eq_of_reaches (by decide +kernel),
    by decide +kernel⟩

theorem witness_ArmLoadsTheDescriptorTable : 1 < tiny.cfg.pages := by decide +kernel

theorem witness_BeginBuildsArmsAndStarts :
    tiny.started = false ∧ tiny.halted = false ∧ tiny.cfg.resOk = true ∧ tiny.mem.wf = true ∧ 4 < tiny.cfg.tableLen
      ∧ inAddrtab tiny.cfg 0x40005 = false ∧ inTmrtab tiny.cfg 0x40005 = false := by decide +kernel

theorem witness_BuiltAddressTableIsRunsAndSentinel :
    tiny.started = false ∧ tiny.halted = false ∧ tiny.cfg.resOk = true ∧ tiny.mem.wf = true
      ∧ exec .begin tiny = .next begun :=
  ⟨by decide +kernel, by decide +kernel, by decide +kernel, by decide +kernel, rfl⟩

theorem witness_BeginWithoutResourcesHalts :
    tinyNoResources.started = false ∧ tinyNoResources.halted = false ∧ tinyNoResources.cfg.resOk = false := by
  decide +kernel

theorem witness_BeginIsOneTime : begun.started = true := by decide +kernel

theorem witness_RefreshSwapsRearmsAndResumes :
    swapReady.halted = false ∧ swapReady.scanState = .waitRefresh ∧ swapReady.pending = true
      ∧ waiting.halted = false ∧ waiting.scanState = .waitRefresh ∧ waiting.pending = false := by decide +kernel

theorem witness_RefreshAtAnyOtherTimeIsDropped :
    begun.scanState ≠ .waitRefresh ∧ tiny.scanState ≠ .waitRefresh := by decide +kernel

/-- The first data slot and the last. -/
theorem witness_TickMovesOneDataSlot :
    (Inv begun ∧ begun.scanState = .run ∧ begun.slot = 0 ∧ 0 < begun.cfg.nSlots)
      ∧ Inv (atSlot 3) ∧ (atSlot 3).scanState = .run ∧ (atSlot 3).slot = 3 ∧ 3 < (atSlot 3).cfg.nSlots :=
  ⟨⟨inv_begun, by decide +kernel, by decide +kernel, by decide +kernel⟩, inv_atSlot_3, by decide +kernel,
    by decide +kernel, by decide +kernel⟩

theorem witness_CompletingTickRaisesIrqAndWaits :
    Inv (atSlot 4) ∧ (atSlot 4).scanState = .run ∧ (atSlot 4).slot = (atSlot 4).cfg.nSlots :=
  ⟨inv_atSlot_4, by decide +kernel, by decide +kernel⟩

theorem witness_TickWhileWaitingChangesNothing : waiting.scanState = .waitRefresh := by decide +kernel

theorem witness_PassLogsOnePageInOrder :
    let s := { begun with inputs := List.replicate begun.cfg.tableLen .tick }
    Inv s ∧ s.scanState = .run ∧ s.slot = 0 ∧ s.inputs = List.replicate s.cfg.tableLen .tick :=
  ⟨by constructor <;> decide +kernel, by decide +kernel, by decide +kernel, by decide +kernel⟩

theorem witness_InvariantKeptByEveryStep :
    Inv (offer .tick begun) ∧ step (offer .tick begun) = .next (after .tick begun) :=
  ⟨by constructor <;> decide +kernel,
    eq_of_reaches (by decide +kernel)⟩

theorem witness_NoStepStopsFromTheInvariant : Inv (offer .encstep lastWord) := by constructor <;> decide +kernel

/-- Both scan states, the last slot and the end of a pass. -/
theorem witness_FourChannelsAreInLockStep :
    Inv (atSlot 4) ∧ (atSlot 4).scanState ≠ .stopped ∧ Inv waiting ∧ waiting.scanState ≠ .stopped :=
  ⟨inv_atSlot_4, by decide +kernel, inv_waiting, by decide +kernel⟩

theorem witness_LinkedChannelRunsWithItsLeader :
    Inv (atSlot 3) ∧ (atSlot 3).descPix0.en = true ∧ Inv (atSlot 4) ∧ (atSlot 4).descPix0.en = false :=
  ⟨inv_atSlot_3, by decide +kernel, inv_atSlot_4, by decide +kernel⟩

theorem witness_NoStepWritesTheFrontBuffer :
    Inv (offer .encstep lastWord) ∧ (offer .encstep lastWord).inputs.head? ≠ some .reset
      ∧ step (offer .encstep lastWord) = .next (after .encstep lastWord) ∧ 31 < lastWord.cfg.bufSize :=
  ⟨by constructor <;> decide +kernel,
    by decide +kernel,
    eq_of_reaches (by decide +kernel),
    by decide +kernel⟩

theorem witness_FrontChangesOnlyAtASwap :
    let s := offer (.command (encode .refresh)) swapReady
    Inv s ∧ s.inputs.head? ≠ some .reset ∧ step s = .next (afterCommand .refresh swapReady)
      ∧ (afterCommand .refresh swapReady).front ≠ s.front :=
  ⟨by constructor <;> decide +kernel,
    by decide +kernel,
    eq_of_reaches (by decide +kernel),
    by decide +kernel⟩

/-- IRQ rises at the completing TICK and falls at REFRESH. -/
theorem witness_IrqRisesAtPassEndAndFallsByRefresh :
    (Inv (offer .tick (atSlot 4)) ∧ step (offer .tick (atSlot 4)) = .next (after .tick (atSlot 4))
        ∧ (atSlot 4).irq = false ∧ (after .tick (atSlot 4)).irq = true)
      ∧ Inv (offer (.command (encode .refresh)) waiting)
      ∧ step (offer (.command (encode .refresh)) waiting) = .next (afterCommand .refresh waiting)
      ∧ waiting.irq = true ∧ (afterCommand .refresh waiting).irq = false :=
  ⟨⟨by constructor <;> decide +kernel, eq_of_reaches (by decide +kernel), by decide +kernel, by decide +kernel⟩,
    by constructor <;> decide +kernel,
    eq_of_reaches (by decide +kernel),
    by decide +kernel,
    by decide +kernel⟩

theorem witness_HaltedBlockDropsEveryCommand :
    Inv haltedPending ∧ haltedPending.halted = true ∧ haltedPending.pending = true
      ∧ perform (.command (encode .showStart)) haltedPending = .next haltedPending :=
  ⟨inv_haltedPending,
    by decide +kernel,
    by decide +kernel,
    eq_of_reaches (by decide +kernel)⟩

theorem witness_OnlyResetStopsTheScan :
    (offer .tick begun).inputs.head? ≠ some .reset ∧ step (offer .tick begun) = .next (after .tick begun)
      ∧ begun.timerRun = true ∧ begun.started = true ∧ begun.scanState ≠ .stopped ∧ haltedPending.halted = true
      ∧ (offer .tick haltedPending).inputs.head? ≠ some .reset
      ∧ step (offer .tick haltedPending) = .next haltedPending :=
  ⟨by decide +kernel,
    eq_of_reaches (by decide +kernel),
    by decide +kernel,
    by decide +kernel,
    by decide +kernel,
    by decide +kernel,
    by decide +kernel,
    eq_of_reaches (by decide +kernel)⟩

theorem witness_BrightAndRespHaveOneKindOfWriter :
    let s := offer (.command (encode (.setbright 128#32))) tiny
    let r := offer (.command (encode .getbright)) tiny
    s.inputs.head? ≠ some .reset ∧ step s = .next (afterCommand (.setbright 128#32) tiny)
      ∧ (afterCommand (.setbright 128#32) tiny).bright ≠ s.bright ∧ r.inputs.head? ≠ some .reset
      ∧ step r = .next (afterCommand .getbright tiny) ∧ (afterCommand .getbright tiny).resp ≠ r.resp :=
  ⟨by decide +kernel,
    eq_of_reaches (by decide +kernel),
    by decide +kernel,
    by decide +kernel,
    eq_of_reaches (by decide +kernel),
    by decide +kernel⟩

theorem witness_OnlyTicksDriveTheOutputs :
    let s := offer (.command (encode .begin)) tiny
    s.inputs.head? ≠ some .reset ∧ step s = .next begun ∧ s.inputs.head? ≠ some .tick :=
  ⟨by decide +kernel,
    eq_of_reaches (by decide +kernel),
    by decide +kernel⟩

theorem witness_DescriptorsHaveNoOtherWriter :
    let s := offer (.command (encode .showStart)) begun
    s.inputs.head? ≠ some .reset ∧ s.inputs.head? ≠ some .tick
      ∧ carries (encode .showStart) .begin = false ∧ carries (encode .showStart) .refresh = false
      ∧ step s = .next (afterCommand .showStart begun) :=
  ⟨by decide +kernel,
    by decide +kernel,
    by decide +kernel,
    by decide +kernel,
    eq_of_reaches (by decide +kernel)⟩

/-- One changed byte for each command that writes memory. -/
theorem witness_CommandsWriteOnlyTheirRegions :
    tiny.mem.wf = true ∧ exec .begin tiny = .next begun ∧ begun.mem.readByte 0x40004 ≠ tiny.mem.readByte 0x40004
      ∧ exec (.setbright 0#32) tiny = .next (afterCommand (.setbright 0#32) tiny)
      ∧ (afterCommand (.setbright 0#32) tiny).mem.readByte 0x50010 ≠ tiny.mem.readByte 0x50010
      ∧ exec (.setpix 1#8 1#8 0#8 0#8 9#8) tiny = .next (afterCommand (.setpix 1#8 1#8 0#8 0#8 9#8) tiny)
      ∧ (afterCommand (.setpix 1#8 1#8 0#8 0#8 9#8) tiny).mem.readByte 11 ≠ tiny.mem.readByte 11
      ∧ exec (.memwr 0#24 9#8) tiny = .next (afterCommand (.memwr 0#24 9#8) tiny)
      ∧ (afterCommand (.memwr 0#24 9#8) tiny).mem.readByte 0 ≠ tiny.mem.readByte 0 := by
  exact ⟨by decide +kernel, rfl, by decide +kernel, rfl, by decide +kernel, rfl, by decide +kernel, rfl,
    by decide +kernel⟩

theorem witness_AddressTableIsNeverRewritten :
    let s := offer (.command (encode (.setbright 0#32))) begun
    Inv s ∧ s.started = true ∧ s.inputs.head? ≠ some .reset ∧ step s = .next (afterCommand (.setbright 0#32) begun)
      ∧ 4 < s.cfg.tableLen :=
  ⟨by constructor <;> decide +kernel,
    by decide +kernel,
    by decide +kernel,
    eq_of_reaches (by decide +kernel),
    by decide +kernel⟩

theorem witness_ConfigurationNeverChanges : step (offer .reset begun) = .next tiny :=
  eq_of_reaches (by decide +kernel)

/-- The first and the last byte of the window, and the addresses on either side of it. -/
theorem witness_PackedImageStandsAtDescBase :
    begun.cfg.descBase = 0x00090000 ∧ begun.descWindowByte 0x00090000 = some 0#8
      ∧ (3 < 4 ∧ 0x00090000 + 16 * Chan.tmr.number + 4 * 3 + 3 = 0x0009003F)
      ∧ begun.descWindowByte 0x0009003F = some 0#8 ∧ begun.descWindowByte 0x0008FFFF = none
      ∧ begun.descWindowByte 0x00090040 = none := by decide +kernel

end Sys2Proof.Tests
end

/-! SUPPORT. The configuration and the offered events: what every command and every event leaves of them
(spec/00_scope.md R7, R10; log entries 1 and 5). -/

namespace Sys2Proof.Machine

/-! ### A command answers its effect, or the state it found -/

/-- The state after an effective command; `exec_eq_effect` ties it to `exec`. -/
def effect (i : Instr) (s : State) : State :=
  match i with
  | .begin => if s.cfg.resOk then startScan (builtTables s) s else raiseHalt s
  | .setbright raw =>
    { s with
      bright := brightOperand s.cfg raw
      mem := writeCells s.mem (tmrCells s.cfg (brightOperand s.cfg raw).toNat) }
  | .getbright => { s with resp := s.bright.setWidth 32 }
  | .setpix col row r g b => { s with mem := writeCells s.mem (pixelCells s.cfg col row r g b) }
  | .getpixels => { s with resp := BitVec.ofNat 32 s.cfg.pixbufBase }
  | .showStart => startPublish s
  | .refresh => resumeScan (rearm (advancePage (swapIfPending s)))
  | .memwr off val => { s with mem := s.mem.writeByte (windowAddr s.cfg off) val }
  | .memrd off _ => { s with resp := (s.mem.readByte (windowAddr s.cfg off)).setWidth 32 }

theorem effective_halted (i : Instr) {s : State} (h : s.halted = true) : effective i s = false := by
  simp [effective, h]

/-- Everything a command can do, in any state: it never stops, and one that is not effective is dropped
(spec/60_exceptions.md R246). -/
theorem exec_eq_effect (i : Instr) (s : State) :
    exec i s = .next (if effective i s then effect i s else s) := by
  cases hh : s.halted with
  | true => simp [exec_halted i hh, effective_halted i hh]
  | false =>
    cases i with
    | begin =>
      refine (execBegin_eq hh).trans ?_
      cases hs : s.started <;> cases hr : s.cfg.resOk <;> simp [effective, effect, hh, hs, hr]
    | setbright raw => exact (execSetbright_eq raw hh).trans (by simp [effective, effect, hh])
    | getbright => exact (execGetbright_eq hh).trans (by simp [effective, effect, hh])
    | setpix col row r g b =>
      refine (execSetpix_eq col row r g b hh).trans ?_
      cases hr : pixelInRange s.cfg col row <;> simp [effective, effect, hh, hr]
    | getpixels => exact (execGetpixels_eq hh).trans (by simp [effective, effect, hh])
    | showStart =>
      refine (execShowStart_eq hh).trans ?_
      cases hb : s.encBusy <;> simp [effective, effect, hh, hb]
    | refresh =>
      refine (execRefresh_eq hh).trans ?_
      by_cases hw : s.scanState = .waitRefresh <;> simp [effective, effect, hh, hw]
    | memwr off val =>
      refine (execMemwr_eq off val hh).trans ?_
      cases hr : offsetInRange s.cfg off <;> simp [effective, effect, hh, hr]
    | memrd off val =>
      by_cases hv : val = 0#8
      · subst hv
        refine (execMemrd_eq off hh).trans ?_
        cases hr : offsetInRange s.cfg off <;> simp [effective, effect, hh, hr]
      · exact (execMemrd_value hv s).trans (by simp [effective, hv])

/-! ### What each operation leaves of the configuration and the offered events -/

/-- The configuration and the list of offered events are those of `s`. -/
def SameOffers (s t : State) : Prop := t.cfg = s.cfg ∧ t.inputs = s.inputs

theorem SameOffers.refl (s : State) : SameOffers s s := ⟨rfl, rfl⟩

theorem effect_sameOffers (i : Instr) (s : State) : SameOffers s (effect i s) := by
  cases i with
  | begin =>
    simp only [effect]
    split <;> exact ⟨rfl, rfl⟩
  | refresh => constructor <;> simp [effect]
  | _ => exact ⟨rfl, rfl⟩

theorem exec_sameOffers {i : Instr} {s t : State} (h : exec i s = .next t) : SameOffers s t := by
  rw [exec_eq_effect] at h
  cases h
  split
  · exact effect_sameOffers i s
  · exact .refl s

theorem acceptWord_sameOffers {w : CommandWord} {s t : State} (h : acceptWord w s = .next t) :
    SameOffers s t := by
  obtain rfl | ⟨i, -, hi⟩ := acceptWord_cases h
  · exact .refl _
  · exact exec_sameOffers hi

theorem SlotFrame.sameOffers {s t : State} (h : SlotFrame s t) : SameOffers s t := by
  obtain ⟨-, ht⟩ := h
  constructor <;> rw [ht]

theorem tick_sameOffers {s t : State} (h : tick s = .next t) : SameOffers s t := by
  obtain rfl | ⟨-, -, u, hu, rfl⟩ := tick_cases h
  · exact .refl _
  · have hframe := (scanSlot_frame hu).sameOffers
    split <;> exact hframe

/-- Everything an ENCSTEP can do, in any state (spec/42_pixel_encoder.md R169). -/
theorem encStep_cases {s t : State} (h : encStep s = .next t) :
    s.encPos.toNat < s.cfg.bufSize
      ∧ t = advanceEncoder { s with mem := s.mem.writeByte (encoderAddr s) (encoderWord s) } := by
  by_cases hpos : s.encPos.toNat < s.cfg.bufSize
  · rw [encStep_eq hpos] at h
    cases h
    exact ⟨hpos, rfl⟩
  · simp [encStep, hpos] at h

theorem advanceEncoder_sameOffers (s : State) : SameOffers s (advanceEncoder s) := by
  simp only [advanceEncoder]
  split <;> exact ⟨rfl, rfl⟩

theorem encStep_sameOffers {s t : State} (h : encStep s = .next t) : SameOffers s t := by
  obtain ⟨-, rfl⟩ := encStep_cases h
  exact advanceEncoder_sameOffers { s with mem := s.mem.writeByte (encoderAddr s) (encoderWord s) }

theorem perform_sameOffers {e : Event} {s t : State} (h : perform e s = .next t) : SameOffers s t := by
  cases e with
  | command w => exact acceptWord_sameOffers h
  | tick =>
    rw [perform_tick] at h
    split at h
    · exact tick_sameOffers h
    · cases h
      exact .refl s
  | encstep =>
    rw [perform_encstep] at h
    split at h
    · exact encStep_sameOffers h
    · cases h
      exact .refl s
  | reset =>
    cases h
    exact ⟨resetStep_cfg s, resetStep_inputs s⟩

/-- Settles O58: a step takes the first event off the list, and no event touches the configuration or the rest
of the list. -/
theorem configurationNeverChanges : Obligations.ConfigurationNeverChanges := by
  intro s t h
  obtain ⟨hnil, rfl⟩ | ⟨e, rest, hcons, hperform⟩ := step_cases h
  · simp [hnil]
  · obtain ⟨hcfg, hinputs⟩ := perform_sameOffers hperform
    exact ⟨hcfg, by simpa [hcons] using hinputs⟩

end Sys2Proof.Machine

/-! SUPPORT. What one step can do, as a relation with one constructor per kind of step, and which bytes of memory
it may write (spec/00_scope.md R15, spec/20_memory.md R61, R71). -/

namespace Sys2Proof.Machine

/-! ### The moves of the block -/

/-- The block after the four minor loops of a slot: it waits for REFRESH when CH_ADDR is done
(spec/43_scan_controller.md R201). -/
def afterSlot (u : State) : State := if u.descAddr.done then enterWait u else u

/-- The state with the encoder's word stored (spec/42_pixel_encoder.md R169). -/
def encoderStored (s : State) : State := { s with mem := s.mem.writeByte (encoderAddr s) (encoderWord s) }

/-- What the event `e`, or the absence of one, makes of `s`; `happens_of_step` ties it to `step`. -/
inductive Happens (s : State) : Option Event → State → Prop where
  /-- nothing is offered, or what is offered is dropped or not enabled -/
  | nothing (e : Option Event) : Happens s e s
  | command {w : CommandWord} {i : Instr} (hdec : decode w = .ok i) (heff : effective i s = true) :
      Happens s (some (.command w)) (effect i s)
  | tick {u : State} (hrun : s.scanState = .run) (hu : scanSlot s.slot s = .ok u) :
      Happens s (some .tick) (afterSlot u)
  | encstep (hbusy : s.encBusy = true) (hpos : s.encPos.toNat < s.cfg.bufSize) :
      Happens s (some .encstep) (advanceEncoder (encoderStored s))
  | reset : Happens s (some .reset) (resetStep s)

theorem happens_of_acceptWord {w : CommandWord} {s t : State} (h : acceptWord w s = .next t) :
    Happens s (some (.command w)) t := by
  obtain rfl | ⟨i, hdec, hi⟩ := acceptWord_cases h
  · exact .nothing _
  · rw [exec_eq_effect] at hi
    cases hi
    split
    · rename_i heff
      exact .command hdec heff
    · exact .nothing _

theorem happens_of_perform {e : Event} {s t : State} (h : perform e s = .next t) : Happens s (some e) t := by
  cases e with
  | command w => exact happens_of_acceptWord h
  | tick =>
    rw [perform_tick] at h
    split at h
    · obtain rfl | ⟨-, hrun, u, hu, rfl⟩ := tick_cases h
      · exact .nothing _
      · exact .tick hrun hu
    · cases h
      exact .nothing _
  | encstep =>
    rw [perform_encstep] at h
    split at h
    · rename_i hbusy
      obtain ⟨hpos, rfl⟩ := encStep_cases h
      exact .encstep hbusy hpos
    · cases h
      exact .nothing _
  | reset =>
    cases h
    exact .reset

/-- Everything a step can do: it takes the first event off the list, and that event happens. -/
theorem happens_of_step {s t : State} (h : step s = .next t) :
    Happens { s with inputs := s.inputs.tail } s.inputs.head? t := by
  obtain ⟨hnil, rfl⟩ | ⟨e, rest, hcons, hperform⟩ := step_cases h
  · have hself : { t with inputs := t.inputs.tail } = t := by
      rw [hnil, List.tail_nil, ← hnil]
    rw [hself]
    exact .nothing _
  · rw [hcons]
    exact happens_of_perform hperform

/-! ### What a TICK and an ENCSTEP leave alone -/

/-- What a TICK may change: the outputs, the log, the descriptors, IRQ and, to WAIT_REFRESH, the scan state. -/
theorem afterSlot_frame {k : Nat} {s u : State} (h : scanSlot k s = .ok u) :
    ((afterSlot u).scanState = s.scanState ∨ (afterSlot u).scanState = .waitRefresh)
      ∧ (∃ new, (afterSlot u).portLog = s.portLog ++ new)
      ∧ afterSlot u = { s with
          rowsel := u.rowsel, pixbus := u.pixbus, period := u.period, duty := u.duty, irq := u.irq
          descAddr := u.descAddr, descPix0 := u.descPix0, descPix1 := u.descPix1, descTmr := u.descTmr
          portLog := u.portLog, scanState := (afterSlot u).scanState } := by
  obtain ⟨hlog, hu⟩ := scanSlot_frame h
  have hscan : u.scanState = s.scanState := by rw [hu]
  cases hdone : u.descAddr.done with
  | true =>
    have hwait : afterSlot u = enterWait u := by simp [afterSlot, hdone]
    rw [hwait]
    exact ⟨.inr rfl, hlog, congrArg enterWait hu⟩
  | false =>
    have hstay : afterSlot u = u := by simp [afterSlot, hdone]
    rw [hstay, hscan]
    exact ⟨.inl rfl, hlog, hu⟩

/-- The move of the encoder changes ENC_POS, PENDING and ENC_BUSY only. -/
theorem advanceEncoder_frame (s : State) :
    advanceEncoder s = { s with
      encPos := (advanceEncoder s).encPos, pending := (advanceEncoder s).pending
      encBusy := (advanceEncoder s).encBusy } := by
  simp only [advanceEncoder]
  split <;> rfl

/-! ### The regions of the memory -/

/-- One of the five regions a MemWrite may go to (spec/20_memory.md R61). -/
inductive Region where
  | pixbuf
  | addrtab
  | tmrtab
  | outbuf (b : BufferId)

/-- The address lies in the region. -/
def Region.has (c : Config) : Region → Nat → Bool
  | .pixbuf => inPixbuf c
  | .addrtab => inAddrtab c
  | .tmrtab => inTmrtab c
  | .outbuf b => inOutbuf c b

/-- No address lies in two regions (spec/00_scope.md R11): each pair of different ones is apart by
`Config.disjoint`. -/
theorem Region.eq_of_has {c : Config} {r r' : Region} {a : Nat} (h : r.has c a = true) (h' : r'.has c a = true) :
    r = r' := by
  have hdisj := c.disjoint
  by_contra hne
  rcases r with _ | _ | _ | (_ | _) <;> rcases r' with _ | _ | _ | (_ | _) <;>
    simp only [Region.has, inPixbuf, inAddrtab, inTmrtab, inOutbuf, outbufBase, inRegion_iff, Region.outbuf.injEq,
      reduceCtorEq, not_true_eq_false, not_false_eq_true] at h h' hne <;> omega

theorem Region.mapped_of_has {c : Config} {r : Region} {a : Nat} (h : r.has c a = true) : mapped c a = true := by
  rw [mapped_iff]
  cases r with
  | outbuf b =>
    have hb := inRegion_iff.1 h
    cases b <;> simp only [outbufBase] at hb <;> omega
  | _ =>
    have ha := inRegion_iff.1 h
    omega

/-! ### Writing a list of bytes into one region -/

/-- A byte that changed is one of those written. -/
theorem mem_of_readByte_writeCells_ne {m : Memory} (hm : m.wf = true) {cells : List Host.Cell} {a : Nat}
    (h : (writeCells m cells).readByte a ≠ m.readByte a) : ∃ cell ∈ cells, cell.1 = a := by
  by_contra hnot
  exact h (readByte_writeCells_other hm fun cell hc e => hnot ⟨cell, hc, e⟩)

theorem pixelCells_in {c : Config} {col row : BitVec 8} (h : pixelInRange c col row = true) (r g b : BitVec 8) :
    ∀ cell ∈ pixelCells c col row r g b, inPixbuf c cell.1 = true := by
  simp only [pixelInRange, Bool.and_eq_true, decide_eq_true_eq] at h
  have hlt := pixelOffset_lt c .blue h.1 h.2
  simp only [Colour.index] at hlt
  intro cell hc
  simp only [pixelCells, pixelAddr, List.mem_cons, List.not_mem_nil, or_false] at hc
  rw [inPixbuf, inRegion_iff]
  rcases hc with rfl | rfl | rfl <;> dsimp only <;> omega

theorem windowAddr_in {c : Config} {off : BitVec 24} (h : offsetInRange c off = true) :
    inPixbuf c (windowAddr c off) = true := by
  simp only [offsetInRange, decide_eq_true_eq] at h
  rw [inPixbuf, inRegion_iff, windowAddr]
  omega

theorem encoderAddr_in {s : State} (h : s.encPos.toNat < s.cfg.bufSize) :
    inOutbuf s.cfg s.encBack (encoderAddr s) = true := by
  rw [inOutbuf, inRegion_iff, encoderAddr]
  omega

/-! ### The bytes a command writes -/

/-- The bytes an effective command writes, in order; `effect_mem` ties them to `effect`. -/
def effectCells (i : Instr) (s : State) : List Host.Cell :=
  match i with
  | .begin => if s.cfg.resOk then addrCells s.cfg ++ tmrCells s.cfg s.bright.toNat else []
  | .setbright raw => tmrCells s.cfg (brightOperand s.cfg raw).toNat
  | .setpix col row r g b => pixelCells s.cfg col row r g b
  | .memwr off val => [(windowAddr s.cfg off, val)]
  | _ => []

theorem effect_mem (i : Instr) (s : State) : (effect i s).mem = writeCells s.mem (effectCells i s) := by
  cases i with
  | begin =>
    cases hres : s.cfg.resOk with
    | true =>
      simp only [effect, effectCells, hres, if_true, writeCells_append]
      rfl
    | false => simp [effect, effectCells, hres]
  | refresh => simp [effect, effectCells]
  | _ => rfl

/-- The regions a command may write (spec/20_memory.md R71). -/
def writtenRegions : Instr → List Region
  | .begin => [.addrtab, .tmrtab]
  | .setbright _ => [.tmrtab]
  | .setpix _ _ _ _ _ => [.pixbuf]
  | .memwr _ _ => [.pixbuf]
  | _ => []

theorem effectCells_in {i : Instr} {s : State} (heff : effective i s = true) {cell : Host.Cell}
    (hc : cell ∈ effectCells i s) : ∃ r ∈ writtenRegions i, r.has s.cfg cell.1 = true := by
  cases i with
  | begin =>
    cases hres : s.cfg.resOk with
    | true =>
      simp only [effectCells, hres, if_true, List.mem_append] at hc
      rcases hc with hc | hc
      · exact ⟨.addrtab, by simp [writtenRegions], inRegion_iff.2 (addrCells_addr hc)⟩
      · exact ⟨.tmrtab, by simp [writtenRegions], inRegion_iff.2 (tmrCells_addr hc)⟩
    | false => simp [effectCells, hres] at hc
  | setbright raw => exact ⟨.tmrtab, by simp [writtenRegions], inRegion_iff.2 (tmrCells_addr hc)⟩
  | setpix col row r g b =>
    simp only [effective, Bool.and_eq_true] at heff
    exact ⟨.pixbuf, by simp [writtenRegions], pixelCells_in heff.2 r g b cell hc⟩
  | memwr off val =>
    simp only [effective, Bool.and_eq_true] at heff
    rw [List.mem_singleton.1 hc]
    exact ⟨.pixbuf, by simp [writtenRegions], windowAddr_in heff.2⟩
  | _ => cases hc

/-- A byte that an effective command changes lies in a region it may write. -/
theorem effect_readByte_ne {i : Instr} {s : State} (hm : s.mem.wf = true) (heff : effective i s = true) {a : Nat}
    (h : (effect i s).mem.readByte a ≠ s.mem.readByte a) : ∃ r ∈ writtenRegions i, r.has s.cfg a = true := by
  rw [effect_mem] at h
  obtain ⟨cell, hc, rfl⟩ := mem_of_readByte_writeCells_ne hm h
  exact effectCells_in heff hc

/-- A command leaves the bytes of every other region as they are. -/
theorem effect_readByte_other {i : Instr} {s : State} (hm : s.mem.wf = true) (heff : effective i s = true)
    {r : Region} (hr : r ∉ writtenRegions i) {a : Nat} (ha : r.has s.cfg a = true) :
    (effect i s).mem.readByte a = s.mem.readByte a := by
  by_contra h
  obtain ⟨r', hr', ha'⟩ := effect_readByte_ne hm heff h
  exact hr (Region.eq_of_has ha ha' ▸ hr')

/-- Settles O56: the bytes a command changes are among those it writes, and each of those lies in its region. -/
theorem commandsWriteOnlyTheirRegions : Obligations.CommandsWriteOnlyTheirRegions := by
  intro i s t hm h a hne
  rw [exec_eq_effect] at h
  cases h
  split at hne
  · rename_i heff
    obtain ⟨r, hr, ha⟩ := effect_readByte_ne hm heff hne
    cases i <;> simp only [writtenRegions, List.mem_cons, List.not_mem_nil, or_false] at hr
    case begin =>
      rcases hr with rfl | rfl
      · exact .inl ha
      · exact .inr ha
    all_goals
      subst hr
      exact ha
  · exact absurd rfl hne

/-! ### Which fields a command writes -/

/-- The flags that RESET alone clears are not cleared, and the scan does not return to STOPPED. -/
def KeepsRunning (s t : State) : Prop :=
  (s.timerRun = true → t.timerRun = true) ∧ (s.started = true → t.started = true)
    ∧ (s.halted = true → t.halted = true) ∧ (s.scanState ≠ .stopped → t.scanState ≠ .stopped)

theorem KeepsRunning.of_same {s t : State} (htimer : t.timerRun = s.timerRun) (hstarted : t.started = s.started)
    (hhalted : t.halted = s.halted) (hscan : t.scanState = s.scanState ∨ t.scanState ≠ .stopped) :
    KeepsRunning s t := by
  refine ⟨htimer.trans, hstarted.trans, hhalted.trans, fun h => ?_⟩
  rcases hscan with hsame | hne
  · rwa [hsame]
  · exact hne

theorem effect_keepsRunning (i : Instr) (s : State) : KeepsRunning s (effect i s) := by
  cases i with
  | begin =>
    cases hres : s.cfg.resOk <;> simp [effect, hres, KeepsRunning, startScan]
  | refresh => simp [effect, KeepsRunning]
  | _ => exact .of_same rfl rfl rfl (.inl rfl)

/-- The output registers and the log are the same. -/
def SameOutputs (s t : State) : Prop :=
  t.rowsel = s.rowsel ∧ t.pixbus = s.pixbus ∧ t.period = s.period ∧ t.duty = s.duty ∧ t.portLog = s.portLog

theorem effect_sameOutputs (i : Instr) (s : State) : SameOutputs s (effect i s) := by
  cases i with
  | begin => cases hres : s.cfg.resOk <;> simp [effect, hres, SameOutputs, startScan]
  | refresh => simp [effect, SameOutputs]
  | _ => exact ⟨rfl, rfl, rfl, rfl, rfl⟩

/-- The descriptors and where the scan stands are the same. -/
def SameScan (s t : State) : Prop :=
  (∀ ch, t.desc ch = s.desc ch) ∧ t.front = s.front ∧ t.page = s.page ∧ t.scanState = s.scanState

theorem SameScan.refl (s : State) : SameScan s s := ⟨fun _ => rfl, rfl, rfl, rfl⟩

theorem effect_sameScan {i : Instr} (hbegin : i ≠ .begin) (hrefresh : i ≠ .refresh) (s : State) :
    SameScan s (effect i s) := by
  cases i with
  | begin => exact absurd rfl hbegin
  | refresh => exact absurd rfl hrefresh
  | _ => exact ⟨fun ch => by cases ch <;> rfl, rfl, rfl, rfl⟩

theorem effect_bright {i : Instr} {s : State} (h : (effect i s).bright ≠ s.bright) : ∃ raw, i = .setbright raw := by
  cases i with
  | setbright raw => exact ⟨raw, rfl⟩
  | begin => cases hres : s.cfg.resOk <;> simp [effect, hres, startScan] at h
  | refresh => simp [effect] at h
  | _ => exact absurd rfl h

theorem effect_resp {i : Instr} {s : State} (h : (effect i s).resp ≠ s.resp) :
    i = .getbright ∨ i = .getpixels ∨ ∃ off val, i = .memrd off val := by
  cases i with
  | getbright => exact .inl rfl
  | getpixels => exact .inr (.inl rfl)
  | memrd off val => exact .inr (.inr ⟨off, val, rfl⟩)
  | begin => cases hres : s.cfg.resOk <;> simp [effect, hres, startScan] at h
  | refresh => simp [effect] at h
  | _ => exact absurd rfl h

/-! ### Which fields an event writes -/

theorem Happens.keepsRunning {e : Option Event} {s t : State} (h : Happens s e t) (hreset : e ≠ some .reset) :
    KeepsRunning s t := by
  cases h with
  | nothing => exact .of_same rfl rfl rfl (.inl rfl)
  | command hdec heff => exact effect_keepsRunning _ s
  | tick hrun hu =>
    obtain ⟨hscan, -, hframe⟩ := afterSlot_frame hu
    refine .of_same (by rw [hframe]) (by rw [hframe]) (by rw [hframe]) (hscan.imp_right fun hwait => ?_)
    simp [hwait]
  | encstep hbusy hpos =>
    have hframe := advanceEncoder_frame (encoderStored s)
    exact .of_same (by rw [hframe]; rfl) (by rw [hframe]; rfl) (by rw [hframe]; rfl) (.inl (by rw [hframe]; rfl))
  | reset => exact absurd rfl hreset

theorem Happens.bright_changed {e : Option Event} {s t : State} (h : Happens s e t) (hreset : e ≠ some .reset)
    (hne : t.bright ≠ s.bright) : ∃ w, e = some (.command w) ∧ carriesSetbright w = true := by
  cases h with
  | nothing => exact absurd rfl hne
  | @command w i hdec heff =>
    obtain ⟨raw, rfl⟩ := effect_bright hne
    exact ⟨w, rfl, by simp [carriesSetbright, hdec]⟩
  | tick hrun hu => exact absurd (by rw [(afterSlot_frame hu).2.2]) hne
  | encstep hbusy hpos => exact absurd (by rw [advanceEncoder_frame]; rfl) hne
  | reset => exact absurd rfl hreset

theorem Happens.resp_changed {e : Option Event} {s t : State} (h : Happens s e t) (hreset : e ≠ some .reset)
    (hne : t.resp ≠ s.resp) : ∃ w, e = some (.command w) ∧ carriesQuery w = true := by
  cases h with
  | nothing => exact absurd rfl hne
  | @command w i hdec heff =>
    refine ⟨w, rfl, ?_⟩
    obtain rfl | rfl | ⟨off, val, rfl⟩ := effect_resp hne <;> simp [carriesQuery, hdec]
  | tick hrun hu => exact absurd (by rw [(afterSlot_frame hu).2.2]) hne
  | encstep hbusy hpos => exact absurd (by rw [advanceEncoder_frame]; rfl) hne
  | reset => exact absurd rfl hreset

theorem Happens.sameOutputs {e : Option Event} {s t : State} (h : Happens s e t) (hreset : e ≠ some .reset)
    (htick : e ≠ some .tick) : SameOutputs s t := by
  cases h with
  | nothing => exact ⟨rfl, rfl, rfl, rfl, rfl⟩
  | command hdec heff => exact effect_sameOutputs _ s
  | tick hrun hu => exact absurd rfl htick
  | encstep hbusy hpos =>
    rw [advanceEncoder_frame]
    exact ⟨rfl, rfl, rfl, rfl, rfl⟩
  | reset => exact absurd rfl hreset

theorem Happens.portLog_grows {e : Option Event} {s t : State} (h : Happens s e t) (hreset : e ≠ some .reset) :
    ∃ new, t.portLog = s.portLog ++ new := by
  by_cases htick : e = some .tick
  · subst htick
    cases h with
    | nothing => exact ⟨[], by simp⟩
    | tick hrun hu => exact (afterSlot_frame hu).2.1
  · obtain ⟨-, -, -, -, hlog⟩ := h.sameOutputs hreset htick
    exact ⟨[], by simp [hlog]⟩

theorem Happens.sameScan {e : Option Event} {s t : State} (h : Happens s e t) (hreset : e ≠ some .reset)
    (htick : e ≠ some .tick)
    (hword : ∀ w, e = some (.command w) → carries w .begin = false ∧ carries w .refresh = false) :
    SameScan s t := by
  cases h with
  | nothing => exact .refl s
  | @command w i hdec heff =>
    obtain ⟨hbegin, hrefresh⟩ := hword w rfl
    simp only [carries, hdec, decide_eq_false_iff_not] at hbegin hrefresh
    exact effect_sameScan hbegin hrefresh s
  | tick hrun hu => exact absurd rfl htick
  | encstep hbusy hpos =>
    rw [advanceEncoder_frame]
    exact ⟨fun ch => by cases ch <;> rfl, rfl, rfl, rfl⟩
  | reset => exact absurd rfl hreset

/-! ### The rules about writers -/

/-- Settles O52: no command, TICK or ENCSTEP clears one of the flags or stops the scan. -/
theorem onlyResetStopsTheScan : Obligations.OnlyResetStopsTheScan :=
  fun _ _ hreset h => (happens_of_step h).keepsRunning hreset

/-- Settles O53: of the commands only SETBRIGHT writes BRIGHT and only the queries RESP; no other event does. -/
theorem brightAndRespHaveOneKindOfWriter : Obligations.BrightAndRespHaveOneKindOfWriter :=
  fun _ _ hreset h =>
    ⟨(happens_of_step h).bright_changed hreset, (happens_of_step h).resp_changed hreset⟩

/-- Settles O54: no command and no ENCSTEP writes an output or the log, and a TICK appends to the log. -/
theorem onlyTicksDriveTheOutputs : Obligations.OnlyTicksDriveTheOutputs :=
  fun _ _ hreset h =>
    ⟨(happens_of_step h).sameOutputs hreset, (happens_of_step h).portLog_grows hreset⟩

/-- Settles O55: of the commands only BEGIN and REFRESH write a descriptor, and an ENCSTEP writes none. -/
theorem descriptorsHaveNoOtherWriter : Obligations.DescriptorsHaveNoOtherWriter :=
  fun _ _ hreset htick hword h => (happens_of_step h).sameScan hreset htick hword

end Sys2Proof.Machine

/-! SUPPORT. The invariant of the reachable states (spec/10_state.md R30, R40, spec/20_memory.md R74,
spec/30_encoding.md R110, spec/40_address_table.md R136, spec/41_timer_table.md R142): it holds after RESET and every
step keeps it. -/

namespace Sys2Proof.Machine

/-! ### Reset -/

theorem resetOf_bright (c : Config) : (State.resetOf c).bright.toNat = c.brightOne := by
  have := c.brightOne_le
  simp only [State.resetOf, BitVec.toNat_ofNat]
  omega

theorem resetOf_rowsel (c : Config) : (State.resetOf c).rowsel.toNat = c.idleCode := by
  have hpow := c.addrWidth_pow_le
  obtain ⟨-, -, -, -, hidle, -, -⟩ := c.codes
  simp only [State.resetOf, BitVec.toNat_ofNat]
  omega

theorem resetOf_period (c : Config) : (State.resetOf c).period.toNat = c.sentinelPeriod := by
  obtain ⟨-, -, -, hmax, -, -⟩ := c.timing
  exact ofNat_toNat hmax

/-- Settles O11: RESET loads the reset state of the configuration, whose numbers fit their registers. -/
theorem resetLoadsTheResetTable : Obligations.ResetLoadsTheResetTable := fun s =>
  ⟨resetStep s, rfl, rfl, resetOf_bright s.cfg, rfl, resetOf_rowsel s.cfg, rfl, resetOf_period s.cfg, rfl, rfl, rfl,
    rfl, rfl, rfl, rfl, rfl, rfl, rfl, rfl, rfl, fun ch => by cases ch <;> rfl, fun _ => rfl, rfl⟩

theorem inv_resetOf (c : Config) : Inv (State.resetOf c) where
  memory := ⟨rfl, rfl⟩
  registers :=
    ⟨(resetOf_bright c).le, by rw [resetOf_rowsel]; simp [State.resetOf], Nat.two_pow_pos _, Nat.zero_le _,
      c.pages_pos⟩
  flags := by simp [FlagsOk, State.resetOf]
  encoder := ⟨Nat.zero_le _, by simp [State.resetOf]⟩
  stopped := fun _ => ⟨rfl, rfl, rfl, rfl, rfl, rfl, rfl⟩
  lockStep := by simp [LockStepOk, State.resetOf]
  tables := by simp [State.resetOf]
  busWords := fun _ _ => ⟨Nat.two_pow_pos _, Nat.two_pow_pos _⟩

/-- Settles O44: in the reset state nothing is armed, encoding or stored, and the registers are in range. -/
theorem invariantHoldsAtReset : Obligations.InvariantHoldsAtReset :=
  ⟨inv_resetOf Config.ref8, inv_resetOf⟩

/-! ### What the invariant says of the channels -/

theorem Inv.atSlot {s : State} (h : Inv s) (hscan : s.scanState ≠ .stopped) : AtSlot s s.front s.page s.slot := by
  obtain ⟨haddr, hpix0, hpix1, htmr⟩ := h.lockStep.1 hscan
  exact ⟨haddr, hpix0, hpix1, htmr⟩

/-- Channels k slots into the pass that FRONT and PAGE name are in lock-step (spec/10_state.md R40). -/
theorem AtSlot.lockStepOk {t : State} {k : Nat} (h : AtSlot t t.front t.page k) (hk : k ≤ t.cfg.tableLen)
    (hrun : t.scanState = .run → k ≤ t.cfg.nSlots) (hwait : t.scanState = .waitRefresh → k = t.cfg.tableLen) :
    LockStepOk t := by
  have hslot : t.slot = k := slot_of_scanDesc h.addr hk
  rw [LockStepOk, hslot]
  exact ⟨fun _ => ⟨h.addr, h.pix0, h.pix1, h.tmr⟩, hrun, hwait⟩

/-- Settles O46: the descriptors of SLOT slots into a pass hold the numbers of R40. -/
theorem fourChannelsAreInLockStep : Obligations.FourChannelsAreInLockStep := by
  intro s h hscan
  have hat := h.atSlot hscan
  have hlen := s.cfg.geometry
  have ht := s.cfg.tableLen_eq
  have hcount : (BitVec.ofNat 16 (s.cfg.nSlots - s.slot)).toNat = s.cfg.nSlots - s.slot := ofNat_toNat (by omega)
  change s.descAddr.src = BitVec.ofNat 32 (s.cfg.addrtabBase + s.slot) ∧ _
  refine ⟨by rw [hat.addr]; rfl, by rw [hat.addr, hat.tmr]; rfl, by rw [hat.tmr]; rfl, ?_, ?_,
    by rw [hat.pix0]; rfl, ?_⟩
  · rw [hat.pix0]
    exact hcount
  · rw [hat.pix1]
    exact hcount
  · rw [hat.pix0, hat.pix1]
    exact (ofNat_add_ofNat _ _).symm

/-- Settles O47: the two pixel channels are both at reset, or both as many slots into the pass. -/
theorem linkedChannelRunsWithItsLeader : Obligations.LinkedChannelRunsWithItsLeader := by
  intro s h
  by_cases hscan : s.scanState = .stopped
  · obtain ⟨-, -, -, hpix0, hpix1, -, -⟩ := h.stopped hscan
    rw [hpix0, hpix1]
  · have hat := h.atSlot hscan
    rw [hat.pix0, hat.pix1]
    rfl

/-! ### The memory clauses, for a memory and a configuration -/

/-- The AddressTable holds the row codes. -/
def AddrTableBuilt (c : Config) (m : Memory) : Prop :=
  ∀ k, k < c.tableLen → m.readByte (c.addrtabBase + k) = BitVec.ofNat 8 (addrEntry c k)

/-- The TimerTable holds the entries of the brightness. -/
def TmrTableBuilt (c : Config) (bright : Nat) (m : Memory) : Prop :=
  ∀ k, k < c.tableLen → m.readHalf (c.tmrtabBase + 4 * k) = BitVec.ofNat 16 (periodEntry c k)
    ∧ m.readHalf (c.tmrtabBase + 4 * k + 2) = BitVec.ofNat 16 (dutyEntry c bright k)

/-- The words of both output buffers have no bit above the clock bit. -/
def BusWordsClean (c : Config) (m : Memory) : Prop :=
  ∀ b a, inOutbuf c b a = true → (m.readByte a).toNat < 2 ^ (c.bitsPerWrite + 1)

theorem tablesOk_iff (s : State) :
    TablesOk s ↔ (s.started = true → AddrTableBuilt s.cfg s.mem ∧ TmrTableBuilt s.cfg s.bright.toNat s.mem) :=
  Iff.rfl

theorem busWordsOk_iff (s : State) : BusWordsOk s ↔ BusWordsClean s.cfg s.mem := by
  constructor
  · intro h b a ha
    rw [inOutbuf, inRegion_iff] at ha
    obtain ⟨pos, rfl⟩ := Nat.exists_eq_add_of_le ha.1
    have hpos := h pos (by omega)
    cases b
    · exact hpos.1
    · exact hpos.2
  · intro h pos hpos
    refine ⟨h .buf0 _ ?_, h .buf1 _ ?_⟩ <;> rw [inOutbuf, inRegion_iff, outbufBase] <;> omega

section Unchanged
variable {c : Config} {m m' : Memory}

theorem AddrTableBuilt.congr (h : AddrTableBuilt c m)
    (hsame : ∀ a, inAddrtab c a = true → m'.readByte a = m.readByte a) : AddrTableBuilt c m' := by
  intro k hk
  rw [hsame _ (inRegion_iff.2 ⟨by omega, by omega⟩), h k hk]

theorem TmrTableBuilt.congr {bright : Nat} (h : TmrTableBuilt c bright m)
    (hsame : ∀ a, inTmrtab c a = true → m'.readByte a = m.readByte a) : TmrTableBuilt c bright m' := by
  intro k hk
  have hhalf : ∀ o, o + 1 < 4 * c.tableLen → m'.readHalf (c.tmrtabBase + o) = m.readHalf (c.tmrtabBase + o) := by
    intro o ho
    rw [Memory.readHalf, Memory.readHalf, hsame _ (inRegion_iff.2 ⟨by omega, by omega⟩),
      hsame _ (inRegion_iff.2 ⟨by omega, by omega⟩)]
  rw [hhalf _ (by omega), Nat.add_assoc, hhalf _ (by omega), ← Nat.add_assoc]
  exact h k hk

theorem BusWordsClean.congr (h : BusWordsClean c m)
    (hsame : ∀ b a, inOutbuf c b a = true → m'.readByte a = m.readByte a) : BusWordsClean c m' := by
  intro b a ha
  rw [hsame b a ha]
  exact h b a ha

end Unchanged

theorem tmrTableBuilt_build {c : Config} {bright : Nat} {m : Memory} (hm : m.wf = true) :
    TmrTableBuilt c bright (writeCells m (tmrCells c bright)) := fun _ hk => readHalf_buildTmr hm hk

/-- BUILD_TMR leaves the AddressTable as it is. -/
theorem AddrTableBuilt.buildTmr {c : Config} {bright : Nat} {m : Memory} (hm : m.wf = true)
    (h : AddrTableBuilt c m) : AddrTableBuilt c (writeCells m (tmrCells c bright)) := by
  refine h.congr fun a ha => readByte_writeCells_other hm fun cell hc hcell => ?_
  subst hcell
  have hin : Region.tmrtab.has c cell.1 = true := inRegion_iff.2 (tmrCells_addr hc)
  cases Region.eq_of_has (r := .addrtab) ha hin

theorem tablesBuilt_begin {s : State} (hm : s.mem.wf = true) :
    AddrTableBuilt s.cfg (builtTables s) ∧ TmrTableBuilt s.cfg s.bright.toNat (builtTables s) := by
  have hm' := wf_writeCells hm (addrCells s.cfg)
  have haddr : AddrTableBuilt s.cfg (writeCells s.mem (addrCells s.cfg)) := fun _ hk => readByte_buildAddr hm hk
  exact ⟨haddr.buildTmr hm', tmrTableBuilt_build hm'⟩

/-! ### Commands keep the memory clauses -/

theorem memoryOk_effect {i : Instr} {s : State} (h : MemoryOk s) (heff : effective i s = true) :
    MemoryOk (effect i s) := by
  rw [MemoryOk, (effect_sameOffers i s).1, effect_mem]
  refine ⟨wf_writeCells h.1 _, allMapped_writeCells h.2 fun cell hc => ?_⟩
  obtain ⟨r, -, hr⟩ := effectCells_in heff hc
  exact r.mapped_of_has hr

theorem busWordsOk_effect {i : Instr} {s : State} (h : Inv s) (heff : effective i s = true) :
    BusWordsOk (effect i s) := by
  have hclean := (busWordsOk_iff s).1 h.busWords
  rw [busWordsOk_iff, (effect_sameOffers i s).1]
  refine hclean.congr fun b a ha => effect_readByte_other h.memory.1 heff (r := .outbuf b) ?_ ha
  cases i <;> simp [writtenRegions]

/-- A command that writes neither table, BRIGHT nor STARTED keeps the tables. -/
theorem tablesOk_effect {i : Instr} {s : State} (h : Inv s) (heff : effective i s = true)
    (haddr : .addrtab ∉ writtenRegions i) (htmr : .tmrtab ∉ writtenRegions i)
    (hbright : (effect i s).bright = s.bright) (hstarted : (effect i s).started = s.started) :
    TablesOk (effect i s) := by
  rw [tablesOk_iff, (effect_sameOffers i s).1, hbright, hstarted]
  intro hs
  obtain ⟨ha, ht⟩ := (tablesOk_iff s).1 h.tables hs
  exact ⟨ha.congr fun a => effect_readByte_other h.memory.1 heff (r := .addrtab) haddr,
    ht.congr fun a => effect_readByte_other h.memory.1 heff (r := .tmrtab) htmr⟩

/-! ### Every command keeps the invariant -/

/-- ARM puts the channels at slot 0 of the page. -/
theorem atSlot_arm (b : BufferId) (p : Nat) (s : State) : AtSlot (arm b p s) b p 0 := by
  constructor <;> rw [scanDesc_zero] <;> rfl

/-- A BEGIN that finds no resources only halts, and it is not effective once the scan is started (R192). -/
theorem inv_raiseHalt {s : State} (h : Inv s) (hstarted : s.started = false) : Inv (raiseHalt s) := by
  obtain ⟨-, hirq, hstart, htimer, hpending⟩ := h.flags
  exact {
    memory := h.memory, busWords := h.busWords, tables := h.tables, registers := h.registers
    flags := ⟨by simp [hstarted], hirq, hstart, htimer, hpending⟩
    encoder := h.encoder, stopped := h.stopped, lockStep := h.lockStep }

/-- BEGIN keeps the invariant: before it FRONT is 0 already, so a publish in progress keeps its back buffer. -/
theorem inv_startScan {s : State} (h : Inv s) (hstarted : s.started = false) (hhalted : s.halted = false)
    (hmemory : MemoryOk (startScan (builtTables s) s)) (hbus : BusWordsOk (startScan (builtTables s) s)) :
    Inv (startScan (builtTables s) s) := by
  obtain ⟨hbright, hrow, hpix, hduty, -⟩ := h.registers
  obtain ⟨-, -, hstart, -, hpending⟩ := h.flags
  obtain ⟨hfront, -⟩ := h.stopped (by simpa [hstarted] using hstart)
  obtain ⟨hpos, hback⟩ := h.encoder
  rw [hfront] at hback
  have harm := atSlot_arm .buf0 0 s
  exact {
    memory := hmemory, busWords := hbus
    registers := ⟨hbright, hrow, hpix, hduty, s.cfg.pages_pos⟩
    flags := ⟨by simp [startScan, hhalted], by simp [startScan], by simp [startScan], rfl, hpending⟩
    encoder := ⟨hpos, hback⟩
    stopped := fun hscan => by cases hscan
    lockStep := AtSlot.lockStepOk (k := 0) ⟨harm.addr, harm.pix0, harm.pix1, harm.tmr⟩ (Nat.zero_le _)
      (fun _ => Nat.zero_le _) fun hscan => by cases hscan
    tables := fun _ => tablesBuilt_begin h.memory.1 }

theorem inv_effect_begin {s : State} (h : Inv s) (heff : effective .begin s = true) : Inv (effect .begin s) := by
  have hmemory := memoryOk_effect h.memory heff
  have hbus := busWordsOk_effect h heff
  simp only [effective, Bool.and_eq_true, Bool.not_eq_true'] at heff
  obtain ⟨hhalted, hstarted⟩ := heff
  cases hres : s.cfg.resOk with
  | true =>
    simp only [effect, hres, if_true] at hmemory hbus ⊢
    exact inv_startScan h hstarted hhalted hmemory hbus
  | false =>
    simp only [effect, hres, Bool.false_eq_true, if_false]
    exact inv_raiseHalt h hstarted

theorem inv_effect_setbright {raw : BitVec 32} {s : State} (h : Inv s) (heff : effective (.setbright raw) s = true) :
    Inv (effect (.setbright raw) s) where
  memory := memoryOk_effect h.memory heff
  busWords := busWordsOk_effect h heff
  registers := ⟨brightOperand_le s.cfg raw, h.registers.2⟩
  flags := h.flags
  encoder := h.encoder
  stopped := h.stopped
  lockStep := h.lockStep
  tables := fun hs =>
    ⟨(((tablesOk_iff s).1 h.tables hs).1).buildTmr h.memory.1, tmrTableBuilt_build h.memory.1⟩

/-- A command that changes RESP and PIXBUF at most keeps the invariant. -/
theorem inv_effect_pixels {i : Instr} {s : State} (h : Inv s) (heff : effective i s = true)
    (haddr : .addrtab ∉ writtenRegions i) (htmr : .tmrtab ∉ writtenRegions i)
    (hframe : effect i s = { s with resp := (effect i s).resp, mem := (effect i s).mem }) : Inv (effect i s) := by
  have hmemory := memoryOk_effect h.memory heff
  have hbus := busWordsOk_effect h heff
  have htables := tablesOk_effect h heff haddr htmr (by rw [hframe]) (by rw [hframe])
  rw [hframe] at hmemory hbus htables ⊢
  exact {
    memory := hmemory, busWords := hbus, tables := htables, registers := h.registers, flags := h.flags
    encoder := h.encoder, stopped := h.stopped, lockStep := h.lockStep }

theorem bufSize_pos (c : Config) : 0 < c.bufSize := Nat.mul_pos c.pages_pos c.panelDepthSize_pos

theorem inv_startPublish {s : State} (h : Inv s) : Inv (startPublish s) := by
  obtain ⟨hhalt, hirq, hstart, htimer, -⟩ := h.flags
  exact {
    memory := h.memory, busWords := h.busWords, tables := h.tables, registers := h.registers
    flags := ⟨hhalt, hirq, hstart, htimer, fun _ => rfl⟩
    encoder := ⟨Nat.zero_le _, fun _ => ⟨rfl, bufSize_pos s.cfg⟩⟩
    stopped := h.stopped, lockStep := h.lockStep }

/-- The swap check as one update: PENDING is 0 after it in both cases (spec/43_scan_controller.md R204). -/
theorem swapIfPending_eq (s : State) :
    swapIfPending s = { s with front := if s.pending then s.front.other else s.front, pending := false } := by
  cases hpending : s.pending with
  | true => simp [swapIfPending, hpending]
  | false =>
    have hkept : swapIfPending s = s := by simp [swapIfPending, hpending]
    exact hkept.trans (congrArg (fun b => { s with pending := b }) hpending)

/-- REFRESH keeps the invariant: while a publish encodes PENDING is 0, so the buffers are not exchanged under it
(spec/20_memory.md R74). -/
theorem inv_effect_refresh {s : State} (h : Inv s) (heff : effective .refresh s = true) :
    Inv (effect .refresh s) := by
  have hmemory := memoryOk_effect h.memory heff
  have hbus := busWordsOk_effect h heff
  have htables := tablesOk_effect h heff (by simp [writtenRegions]) (by simp [writtenRegions]) (by simp [effect])
    (by simp [effect])
  simp only [effective, Bool.and_eq_true, decide_eq_true_eq] at heff
  obtain ⟨hbright, hrow, hpix, hduty, -⟩ := h.registers
  obtain ⟨hhalt, -, hstart, htimer, hpending⟩ := h.flags
  have hstarted : s.started = true := hstart.2 (by simp [heff.2])
  have harm := atSlot_arm (if s.pending then s.front.other else s.front) ((s.page + 1) % s.cfg.pages) s
  simp only [effect, swapIfPending_eq] at hmemory hbus htables ⊢
  exact {
    memory := hmemory, busWords := hbus, tables := htables
    registers := ⟨hbright, hrow, hpix, hduty, Nat.mod_lt _ s.cfg.pages_pos⟩
    flags := ⟨hhalt, by simp, by simp [hstarted], htimer, fun _ => rfl⟩
    encoder := ⟨h.encoder.1, fun hbusy => by simpa [hpending hbusy] using h.encoder.2 hbusy⟩
    stopped := fun hscan => by cases hscan
    lockStep := AtSlot.lockStepOk (k := 0) ⟨harm.addr, harm.pix0, harm.pix1, harm.tmr⟩ (Nat.zero_le _)
      (fun _ => Nat.zero_le _) fun hscan => by cases hscan }

/-- Every effective command keeps the invariant. -/
theorem inv_effect {i : Instr} {s : State} (h : Inv s) (heff : effective i s = true) : Inv (effect i s) := by
  cases i with
  | begin => exact inv_effect_begin h heff
  | setbright raw => exact inv_effect_setbright h heff
  | showStart => exact inv_startPublish h
  | refresh => exact inv_effect_refresh h heff
  | _ => exact inv_effect_pixels h heff (by simp [writtenRegions]) (by simp [writtenRegions]) rfl

/-! ### An ENCSTEP keeps the invariant -/

/-- The encoder's word goes to the back buffer and is a clean bus word (spec/30_encoding.md R110). -/
theorem inv_encoderStored {s : State} (h : Inv s) (hpos : s.encPos.toNat < s.cfg.bufSize) :
    Inv (encoderStored s) := by
  have hin : (Region.outbuf s.encBack).has s.cfg (encoderAddr s) = true := encoderAddr_in hpos
  have hother : ∀ (r : Region) (a : Nat), r ≠ .outbuf s.encBack → r.has s.cfg a = true →
      (encoderStored s).mem.readByte a = s.mem.readByte a := fun r a hr ha =>
    Memory.readByte_writeByte_other h.memory.1 (fun e => hr (Region.eq_of_has ha (by rwa [e]))) _
  have hclean := (busWordsOk_iff s).1 h.busWords
  exact {
    memory := ⟨Memory.wf_writeByte h.memory.1 _ _, allMapped_writeCells (cells := [(encoderAddr s, encoderWord s)])
      h.memory.2 fun cell hc => List.mem_singleton.1 hc ▸ Region.mapped_of_has hin⟩
    registers := h.registers, flags := h.flags, encoder := h.encoder, stopped := h.stopped, lockStep := h.lockStep
    tables := (tablesOk_iff _).2 fun hs => by
      obtain ⟨haddr, htmr⟩ := (tablesOk_iff s).1 h.tables hs
      exact ⟨haddr.congr fun a => hother .addrtab a (by simp), htmr.congr fun a => hother .tmrtab a (by simp)⟩
    busWords := (busWordsOk_iff _).2 fun b a ha => by
      change ((s.mem.writeByte (encoderAddr s) (encoderWord s)).readByte a).toNat < _
      rw [Memory.readByte_writeByte h.memory.1]
      split
      · exact busWord_toNat_lt _ _ _
      · exact hclean b a ha }

theorem inv_advanceEncoder {s : State} (h : Inv s) (hbusy : s.encBusy = true)
    (hpos : s.encPos.toNat < s.cfg.bufSize) : Inv (advanceEncoder s) := by
  obtain ⟨hhalt, hirq, hstart, htimer, hpending⟩ := h.flags
  have hsucc := encPos_succ hpos
  have hback := (h.encoder.2 hbusy).1
  rw [advanceEncoder_eq hpos]
  split
  · exact {
      memory := h.memory, busWords := h.busWords, tables := h.tables, registers := h.registers
      flags := ⟨hhalt, hirq, hstart, htimer, fun hb => by cases hb⟩
      encoder := ⟨by dsimp only; omega, fun hb => by cases hb⟩
      stopped := h.stopped, lockStep := h.lockStep }
  · exact {
      memory := h.memory, busWords := h.busWords, tables := h.tables, registers := h.registers, flags := h.flags
      encoder := ⟨by dsimp only; omega, fun _ => ⟨hback, by dsimp only; omega⟩⟩
      stopped := h.stopped, lockStep := h.lockStep }

/-! ### A TICK keeps the invariant -/

theorem rowsel_of_table {c : Config} {m : Memory} (h : AddrTableBuilt c m) {k : Nat} (hk : k < c.tableLen) :
    (BitVec.ofNat 8 ((m.readByte (c.addrtabBase + k)).toNat % 2 ^ c.addrWidth)).toNat = addrEntry c k := by
  have hlt := addrEntry_lt c k
  have hpow := c.addrWidth_pow_le
  rw [h k hk, BitVec.toNat_ofNat, BitVec.toNat_ofNat, Nat.mod_eq_of_lt (show addrEntry c k < 2 ^ 8 by omega),
    Nat.mod_eq_of_lt hlt, Nat.mod_eq_of_lt (by omega)]

theorem duty_le_period_of_table {c : Config} {bright : Nat} {m : Memory} (hbright : bright ≤ c.brightOne)
    (h : TmrTableBuilt c bright m) {k : Nat} (hk : k < c.tableLen) :
    (m.readHalf (c.tmrtabBase + 4 * k + 2)).toNat ≤ (m.readHalf (c.tmrtabBase + 4 * k)).toNat := by
  obtain ⟨hperiod, hduty⟩ := h k hk
  have hle := dutyEntry_le_periodEntry c hbright k
  have hmax := periodEntry_le c k
  rw [hperiod, hduty, ofNat_toNat hmax, ofNat_toNat (by omega)]
  exact hle

/-- The outputs that slot k drives are in range, whatever bus word comes last (spec/10_state.md R24 to R27). -/
theorem registersOk_driven {s : State} {k : Nat} {pixbus : Byte} (h : Inv s) (hstarted : s.started = true)
    (hk : k < s.cfg.tableLen) (hpix : pixbus.toNat < 2 ^ (s.cfg.bitsPerWrite + 1)) :
    RegistersOk { s with
      rowsel := BitVec.ofNat 8 ((s.mem.readByte (s.cfg.addrtabBase + k)).toNat % 2 ^ s.cfg.addrWidth)
      period := s.mem.readHalf (s.cfg.tmrtabBase + 4 * k)
      duty := s.mem.readHalf (s.cfg.tmrtabBase + 4 * k + 2)
      pixbus := pixbus } := by
  obtain ⟨hbright, -, -, -, hpage⟩ := h.registers
  obtain ⟨haddr, htmr⟩ := (tablesOk_iff s).1 h.tables hstarted
  rw [RegistersOk, rowsel_of_table haddr hk]
  exact ⟨hbright, by simpa using addrEntry_mem s.cfg k, hpix, duty_le_period_of_table hbright htmr hk, hpage⟩

/-- A chunk of the front buffer is made of clean bus words. -/
theorem chunk_clean {s : State} (h : Inv s) {k w : Nat} (hk : k < s.cfg.nSlots) (hw : w < s.cfg.writesPerColumn) :
    (s.mem.readByte (chunkAddr s.cfg s.front s.page k w)).toNat < 2 ^ (s.cfg.bitsPerWrite + 1) := by
  obtain ⟨-, -, -, -, hpage⟩ := h.registers
  have hlt := s.cfg.word_lt_bufSize hpage hk hw
  refine (busWordsOk_iff s).1 h.busWords s.front _ (inRegion_iff.2 ?_)
  simp only [chunkAddr, pageBase]
  omega

theorem inv_tick_data {s u : State} (h : Inv s) (hrun : s.scanState = .run) (hk : s.slot < s.cfg.nSlots)
    (hu : scanSlot s.slot s = .ok u) : Inv (afterSlot u) := by
  have hat := h.atSlot (by simp [hrun])
  have ht := s.cfg.tableLen_eq
  have hw := s.cfg.writesPerColumn_eq
  obtain ⟨-, -, -, -, hpage⟩ := h.registers
  obtain ⟨-, -, hstart, -, -⟩ := h.flags
  have hregs := registersOk_driven h (hstart.2 (by simp [hrun])) (k := s.slot) (by omega)
    (chunk_clean h hk (w := s.cfg.writesPerColumn - 1) (by omega))
  rw [scanSlot_data hat hpage hk] at hu
  cases hu
  have hmore : ¬ s.cfg.tableLen ≤ s.slot + 1 := by omega
  rw [afterSlot, if_neg (by simpa [scanDesc] using hmore)]
  refine {
    memory := h.memory, busWords := h.busWords, tables := h.tables, flags := h.flags, encoder := h.encoder
    registers := hregs
    stopped := fun hscan => by simp [hrun] at hscan
    lockStep := AtSlot.lockStepOk (k := s.slot + 1) ⟨rfl, rfl, rfl, rfl⟩ ?_ (fun _ => hk) fun hscan => ?_ }
  · dsimp only; omega
  · simp [hrun] at hscan

/-- The sentinel slot moves neither pixel channel: their passes end at N_SLOTS (spec/10_state.md R40). -/
theorem scanDesc_pix_past (c : Config) (b : BufferId) (p : Nat) {ch : Chan} (hch : ch = .pix0 ∨ ch = .pix1) :
    scanDesc c b p (c.nSlots + 1) ch = scanDesc c b p c.nSlots ch := by
  rcases hch with rfl | rfl <;> simp [scanDesc]

theorem inv_tick_sentinel {s u : State} (h : Inv s) (hrun : s.scanState = .run) (hk : s.slot = s.cfg.nSlots)
    (hu : scanSlot s.slot s = .ok u) : Inv (afterSlot u) := by
  have hat := h.atSlot (by simp [hrun])
  have ht := s.cfg.tableLen_eq
  obtain ⟨-, -, hpix, -, -⟩ := h.registers
  obtain ⟨hhalt, -, hstart, htimer, hpending⟩ := h.flags
  have hstarted : s.started = true := hstart.2 (by simp [hrun])
  rw [hk] at hu hat
  have hregs := registersOk_driven h hstarted (k := s.cfg.nSlots) (by omega) hpix
  have hpix0 : s.descPix0 = scanDesc s.cfg s.front s.page s.cfg.tableLen .pix0 := by
    rw [hat.pix0, ht, scanDesc_pix_past _ _ _ (.inl rfl)]
  have hpix1 : s.descPix1 = scanDesc s.cfg s.front s.page s.cfg.tableLen .pix1 := by
    rw [hat.pix1, ht, scanDesc_pix_past _ _ _ (.inr rfl)]
  rw [scanSlot_sentinel hat] at hu
  cases hu
  rw [afterSlot, if_pos (by simp [scanDesc])]
  exact {
    memory := h.memory, busWords := h.busWords, tables := h.tables, encoder := h.encoder
    flags := ⟨hhalt, by simp, by simp [hstarted], htimer, hpending⟩
    registers := hregs
    stopped := fun hscan => by cases hscan
    lockStep := AtSlot.lockStepOk (k := s.cfg.tableLen) ⟨rfl, hpix0, hpix1, rfl⟩ (Nat.le_refl _)
      (fun hscan => by cases hscan) fun _ => rfl }

theorem inv_tick {s u : State} (h : Inv s) (hrun : s.scanState = .run) (hu : scanSlot s.slot s = .ok u) :
    Inv (afterSlot u) := by
  rcases Nat.lt_or_eq_of_le (h.lockStep.2.1 hrun) with hk | hk
  · exact inv_tick_data h hrun hk hu
  · exact inv_tick_sentinel h hrun hk hu

/-! ### Every step keeps the invariant -/

/-- The events still to come are no matter of the invariant. -/
theorem Inv.withInputs {s : State} (h : Inv s) (inputs : List Event) : Inv { s with inputs := inputs } :=
  ⟨h.memory, h.registers, h.flags, h.encoder, h.stopped, h.lockStep, h.tables, h.busWords⟩

theorem Happens.inv {e : Option Event} {s t : State} (hap : Happens s e t) (h : Inv s) : Inv t := by
  cases hap with
  | nothing => exact h
  | command hdec heff => exact inv_effect h heff
  | tick hrun hu => exact inv_tick h hrun hu
  | encstep hbusy hpos => exact inv_advanceEncoder (inv_encoderStored h hpos) hbusy hpos
  | reset => exact (inv_resetOf s.cfg).withInputs s.inputs

/-- Settles O43: each event that can happen keeps the invariant. -/
theorem invariantKeptByEveryStep : Obligations.InvariantKeptByEveryStep :=
  fun s _ h hstep => (happens_of_step hstep).inv (h.withInputs s.inputs.tail)

end Sys2Proof.Machine

/-! SUPPORT. The statements on the memory (spec/20_memory.md): its map, what an access does, and that the buffer being
shown is not written and not exchanged under the scan. -/

namespace Sys2Proof.Machine

/-! ### The front buffer is not written (spec/20_memory.md R69, R74) -/

/-- No command may write an output buffer: that is left to the encoder (spec/20_memory.md R71). -/
theorem outbuf_notMem_writtenRegions (i : Instr) (b : BufferId) : .outbuf b ∉ writtenRegions i := by
  cases i <;> simp [writtenRegions]

/-- The encoder's store leaves the bytes outside its back buffer as they are. -/
theorem encoderStored_readByte_other {s : State} (hm : s.mem.wf = true) (hpos : s.encPos.toNat < s.cfg.bufSize)
    {b : BufferId} (hb : b ≠ s.encBack) {a : Nat} (ha : inOutbuf s.cfg b a = true) :
    (encoderStored s).mem.readByte a = s.mem.readByte a := by
  refine Memory.readByte_writeByte_other hm (fun haddr => hb ?_) _
  have hback : (Region.outbuf s.encBack).has s.cfg a = true := by
    rw [haddr]
    exact encoderAddr_in hpos
  exact Region.outbuf.inj (Region.eq_of_has (r := .outbuf b) ha hback)

@[simp] theorem advanceEncoder_mem (s : State) : (advanceEncoder s).mem = s.mem := by
  rw [advanceEncoder_frame]

@[simp] theorem advanceEncoder_front (s : State) : (advanceEncoder s).front = s.front := by
  rw [advanceEncoder_frame]

/-- No event but RESET changes a byte of the front buffer: commands do not reach it, a TICK stores nothing, and the
encoder's back buffer is the other one. -/
theorem Happens.readByte_front {e : Option Event} {s t : State} (hap : Happens s e t) (h : Inv s)
    (hreset : e ≠ some .reset) {a : Nat} (ha : inOutbuf s.cfg s.front a = true) :
    t.mem.readByte a = s.mem.readByte a := by
  cases hap with
  | nothing => rfl
  | command hdec heff =>
    exact effect_readByte_other h.memory.1 heff (outbuf_notMem_writtenRegions _ s.front) ha
  | tick hrun hu => rw [(afterSlot_frame hu).2.2]
  | encstep hbusy hpos =>
    have hback : s.front ≠ s.encBack := by
      rw [(h.encoder.2 hbusy).1]
      exact (BufferId.other_ne s.front).symm
    rw [advanceEncoder_mem]
    exact encoderStored_readByte_other h.memory.1 hpos hback ha
  | reset => exact absurd rfl hreset

/-- Settles O48: the event of the step changes no byte of the front buffer. -/
theorem noStepWritesTheFrontBuffer : Obligations.NoStepWritesTheFrontBuffer := by
  intro s t h hreset hstep pos hpos
  exact (happens_of_step hstep).readByte_front (h.withInputs s.inputs.tail) hreset
    (inRegion_iff.2 ⟨Nat.le_add_right _ _, Nat.add_lt_add_left hpos _⟩)

/-! ### FRONT changes at a swap only (spec/20_memory.md R74, spec/43_scan_controller.md R204) -/

/-- An effective BEGIN finds FRONT = 0 already, so it leaves FRONT as it is. -/
theorem effect_begin_front {s : State} (h : Inv s) (heff : effective .begin s = true) :
    (effect .begin s).front = s.front := by
  simp only [effective, Bool.and_eq_true, Bool.not_eq_true'] at heff
  obtain ⟨-, -, hstart, -, -⟩ := h.flags
  obtain ⟨hfront, -⟩ := h.stopped (by simpa [heff.2] using hstart)
  cases hres : s.cfg.resOk with
  | true => simp [effect, hres, startScan, hfront]
  | false => simp [effect, hres]

/-- A REFRESH that changes FRONT found PENDING = 1, and it leaves PENDING = 0. -/
theorem effect_refresh_front {s : State} (hne : (effect .refresh s).front ≠ s.front) :
    (effect .refresh s).front = s.front.other ∧ s.pending = true ∧ (effect .refresh s).pending = false := by
  cases hpending : s.pending with
  | true => simp [effect, hpending]
  | false => simp [effect, hpending] at hne

theorem Happens.front_changed {e : Option Event} {s t : State} (hap : Happens s e t) (h : Inv s)
    (hreset : e ≠ some .reset) (hne : t.front ≠ s.front) :
    t.front = s.front.other ∧ s.pending = true ∧ s.scanState = .waitRefresh ∧ t.pending = false
      ∧ ∃ w, e = some (.command w) ∧ decode w = .ok .refresh := by
  cases hap with
  | nothing => exact absurd rfl hne
  | @command w i hdec heff =>
    by_cases hrefresh : i = .refresh
    · subst hrefresh
      obtain ⟨hother, hpending, hcleared⟩ := effect_refresh_front hne
      simp only [effective, Bool.and_eq_true, decide_eq_true_eq] at heff
      exact ⟨hother, hpending, heff.2, hcleared, w, rfl, hdec⟩
    · by_cases hbegin : i = .begin
      · subst hbegin
        exact absurd (effect_begin_front h heff) hne
      · exact absurd (effect_sameScan hbegin hrefresh s).2.1 hne
  | tick hrun hu => exact absurd (by rw [(afterSlot_frame hu).2.2]) hne
  | encstep hbusy hpos => exact absurd (advanceEncoder_front _) hne
  | reset => exact absurd rfl hreset

/-- Settles O49: the only event that changes FRONT is a REFRESH that swaps. -/
theorem frontChangesOnlyAtASwap : Obligations.FrontChangesOnlyAtASwap := fun s _ h hreset hstep =>
  (happens_of_step hstep).front_changed (h.withInputs s.inputs.tail) hreset

/-! ### MemRead and MemWrite are little-endian (spec/20_memory.md R62) -/

/-- A half is its low byte and 256 times its high byte. -/
theorem Memory.toNat_readHalf (m : Memory) (a : Nat) :
    (m.readHalf a).toNat = (m.readByte a).toNat + (m.readByte (a + 1)).toNat * 256 := by
  rw [Memory.readHalf, BitVec.toNat_append, ← Nat.shiftLeft_add_eq_or_of_lt (m.readByte a).isLt, Nat.shiftLeft_eq]
  omega

/-- What a two-byte store leaves at every address. -/
theorem Memory.readByte_writeHalf {m : Memory} (hm : m.wf = true) (a x : Nat) (lo hi : Byte) :
    ((m.writeByte a lo).writeByte (a + 1) hi).readByte x
      = if x = a + 1 then hi else if x = a then lo else m.readByte x := by
  rw [Memory.readByte_writeByte (Memory.wf_writeByte hm _ _), Memory.readByte_writeByte hm]

/-- A half just stored is the half read. -/
theorem Memory.readHalf_writeHalf {m : Memory} (hm : m.wf = true) (a : Nat) (v : BitVec 16) :
    ((m.writeByte a (v.extractLsb' 0 8)).writeByte (a + 1) (v.extractLsb' 8 8)).readHalf a = v := by
  simp [Memory.readHalf, Memory.readByte_writeHalf hm, extract_append_halves]

/-- Settles O12: a store of n bytes is n writes of one byte, and a load puts the n bytes together. -/
theorem memoryIsLittleEndian : Obligations.MemoryIsLittleEndian := by
  intro c m a v hm ha
  refine ⟨⟨⟨_, memRead_one ha, ?_⟩, _, memWrite_one ha, Memory.wf_writeByte hm _ _,
      Memory.readByte_writeByte_same hm _ _, fun x hx => Memory.readByte_writeByte_other hm hx _⟩,
    fun hal ha' => ⟨⟨_, memRead_two hal ha ha', Memory.toNat_readHalf m a⟩, _, memWrite_two hal ha ha',
      Memory.wf_writeByte (Memory.wf_writeByte hm _ _) _ _, ?_, ?_, ?_, fun x hx hx' => ?_⟩⟩
  · exact BitVec.toNat_setWidth_of_le (by decide)
  · simp [Memory.readByte_writeHalf hm]
  · simp [Memory.readByte_writeHalf hm]
  · rw [memRead_two hal ha ha', Memory.readHalf_writeHalf hm]
  · rw [Memory.readByte_writeHalf hm, if_neg hx', if_neg hx]

/-! ### The map, and the accesses that have no step (spec/20_memory.md R61, R63) -/

/-- The descriptor window is apart from the five memory regions (spec/00_scope.md R11). -/
theorem descWindow_disjoint (c : Config) :
    (c.pixbufBase + c.pixbufSize ≤ c.descBase ∨ c.descBase + 64 ≤ c.pixbufBase)
      ∧ (c.addrtabBase + c.tableLen ≤ c.descBase ∨ c.descBase + 64 ≤ c.addrtabBase)
      ∧ (c.tmrtabBase + 4 * c.tableLen ≤ c.descBase ∨ c.descBase + 64 ≤ c.tmrtabBase)
      ∧ (c.descBase + 64 ≤ c.outbuf0Base ∨ c.outbuf0Base + c.bufSize ≤ c.descBase)
      ∧ (c.descBase + 64 ≤ c.outbuf1Base ∨ c.outbuf1Base + c.bufSize ≤ c.descBase) := by
  obtain ⟨h, -, -, -⟩ := c.map
  simp only [Params.regions, List.pairwise_cons, List.mem_cons, List.not_mem_nil, or_false,
    forall_eq_or_imp, forall_eq] at h
  obtain ⟨⟨-, -, hpix, -, -⟩, ⟨-, haddr, -, -⟩, ⟨htmr, -, -⟩, ⟨hbuf0, hbuf1⟩, -, -⟩ := h
  exact ⟨hpix, haddr, htmr, hbuf0, hbuf1⟩

theorem mapped_descWindow (c : Config) {a : Nat} (hlo : c.descBase ≤ a) (hhi : a < c.descBase + 64) :
    mapped c a = false := by
  have hdisj := descWindow_disjoint c
  rw [← Bool.not_eq_true, mapped_iff]
  omega

section NoStep
variable {c : Config} {m : Memory} {a : Nat} {v : BitVec 16}

theorem memAccess_unmapped_one (h : mapped c a = false) :
    memRead c m a .one = .error (.unmapped a) ∧ memWrite c m a v .one = .error (.unmapped a) := by
  simp [memRead, memWrite, h]

theorem memAccess_misaligned (h : a % 2 = 1) :
    memRead c m a .two = .error (.misaligned a) ∧ memWrite c m a v .two = .error (.misaligned a) := by
  simp [memRead, memWrite, h]

theorem memAccess_unmapped_two (hal : a % 2 = 0) (h : mapped c a = false ∨ mapped c (a + 1) = false) :
    memRead c m a .two = .error (.unmapped a) ∧ memWrite c m a v .two = .error (.unmapped a) := by
  have hboth : (mapped c a && mapped c (a + 1)) = false := Bool.and_eq_false_iff.2 h
  simp [memRead, memWrite, hal, hboth]

end NoStep

/-- Settles O13: `mapped` is the map of R61, and an access checks its alignment, then the address of each byte. -/
theorem unmappedAndMisalignedAccessesHaveNoStep : Obligations.UnmappedAndMisalignedAccessesHaveNoStep :=
  ⟨mapped_iff, fun c _ => mapped_descWindow c, fun _ _ _ _ =>
    ⟨memAccess_unmapped_one, memAccess_misaligned, memAccess_unmapped_two⟩⟩

end Sys2Proof.Machine

/-! SUPPORT. Command words (spec/30_encoding.md R90 to R100): the fields of a word and the word of its fields, one
equation of the decoder per opcode, and that decoder and encoder are inverse to each other. -/

namespace Sys2Proof

/-! ### A word and its fields (R91 to R94) -/

/-- A field that is two fields side by side holds `hi ++ lo` when the upper one holds `hi` and the lower one `lo`. -/
theorem extract_eq_append_iff {width start n m : Nat} {x : BitVec width} {hi : BitVec n} {lo : BitVec m} :
    x.extractLsb' start (n + m) = hi ++ lo
      ↔ x.extractLsb' (start + m) n = hi ∧ x.extractLsb' start m = lo := by
  rw [← BitVec.extractLsb'_append_extractLsb'_eq_extractLsb' rfl]
  constructor
  · intro h
    have hhi := congrArg (BitVec.extractLsb' m n) h
    have hlo := congrArg (BitVec.extractLsb' 0 m) h
    rw [BitVec.extractLsb'_append_eq_left, BitVec.extractLsb'_append_eq_left] at hhi
    rw [BitVec.extractLsb'_append_eq_right, BitVec.extractLsb'_append_eq_right] at hlo
    exact ⟨hhi, hlo⟩
  · rintro ⟨rfl, rfl⟩
    rfl

section Fields
variable {w : CommandWord}

/-- The word of a command is the one with its opcode and its operand bits. -/
theorem encode_eq_iff {i : Instr} : encode i = w ↔ opField w = i.opcode ∧ zeroFieldN w = i.operandBits := by
  have h := extract_eq_append_iff (x := w) (start := 0) (hi := i.opcode) (lo := i.operandBits)
  rw [BitVec.extractLsb'_eq_self] at h
  exact eq_comm.trans h

theorem operands_formatB_iff {raw : BitVec 32} :
    zeroFieldN w = 0#24 ++ raw ↔ zeroFieldBM w = 0#24 ∧ rawField w = raw :=
  extract_eq_append_iff (n := 24) (m := 32)

theorem operands_formatP_iff {col row r g b : BitVec 8} :
    zeroFieldN w = 0#16 ++ col ++ row ++ r ++ g ++ b
      ↔ ((((zeroFieldP w = 0#16 ∧ colField w = col) ∧ rowField w = row) ∧ redField w = r) ∧ greenField w = g)
        ∧ blueField w = b := by
  unfold zeroFieldN
  rw [extract_eq_append_iff (n := 48) (m := 8), extract_eq_append_iff (n := 40) (m := 8),
    extract_eq_append_iff (n := 32) (m := 8), extract_eq_append_iff (n := 24) (m := 8),
    extract_eq_append_iff (n := 16) (m := 8)]
  rfl

theorem operands_formatM_iff {off : BitVec 24} {val : BitVec 8} :
    zeroFieldN w = 0#24 ++ off ++ val ↔ (zeroFieldBM w = 0#24 ∧ offField w = off) ∧ valField w = val := by
  unfold zeroFieldN
  rw [extract_eq_append_iff (n := 48) (m := 8), extract_eq_append_iff (n := 24) (m := 24)]
  rfl

end Fields

/-! ### The decoder by opcode (R96) -/

section Decode
variable {w : CommandWord}

/-- The commands of format N, which have no operand (R91, R96). -/
def commandsN : List Instr := [.begin, .getbright, .getpixels, .showStart, .refresh]

theorem decode_formatN {j : Instr} (hj : j ∈ commandsN) (h : opField w = j.opcode) : decode w = decodeN w j := by
  simp only [commandsN, List.mem_cons, List.not_mem_nil, or_false] at hj
  obtain rfl | rfl | rfl | rfl | rfl := hj <;> simp [decode, h, Instr.opcode]

theorem decode_setbright (h : opField w = 0x02#8) : decode w = decodeB w := by simp [decode, h]

theorem decode_setpix (h : opField w = 0x04#8) : decode w = decodeP w := by simp [decode, h]

theorem decode_memwr (h : opField w = 0x08#8) : decode w = decodeMemwr w := by simp [decode, h]

theorem decode_memrd (h : opField w = 0x09#8) : decode w = decodeMemrd w := by simp [decode, h]

/-- The opcodes no command has (R96, R98). -/
def unassignedOpcode (op : BitVec 8) : Prop := op = 0x00#8 ∨ 0x0A ≤ op.toNat

theorem decode_unassigned (h : unassignedOpcode (opField w)) : decode w = .error .unassignedOpcode := by
  have hne : ∀ op : BitVec 8, op ≠ 0x00#8 → op.toNat < 0x0A → opField w ≠ op := by
    rintro op hzero hlt rfl
    exact h.elim hzero (by omega)
  simp [decode, hne]

/-- Every word has the opcode of a command, or one that no command has (R96). -/
theorem opField_cases (w : CommandWord) :
    (∃ j ∈ commandsN, opField w = j.opcode) ∨ opField w = 0x02#8 ∨ opField w = 0x04#8 ∨ opField w = 0x08#8
      ∨ opField w = 0x09#8 ∨ unassignedOpcode (opField w) := by
  simp only [commandsN, List.mem_cons, List.not_mem_nil, or_false, exists_eq_or_imp, exists_eq_left, Instr.opcode,
    unassignedOpcode, ← BitVec.toNat_inj, BitVec.toNat_ofNat]
  omega

/-! ### The decoder by format (R91 to R94, R98) -/

theorem decodeN_ok {i j : Instr} : decodeN w j = .ok i ↔ zeroFieldN w = 0#56 ∧ j = i := by
  unfold decodeN
  split <;> simp [*]

theorem decodeB_ok {i : Instr} : decodeB w = .ok i ↔ zeroFieldBM w = 0#24 ∧ .setbright (rawField w) = i := by
  unfold decodeB
  split <;> simp [*]

theorem decodeP_ok {i : Instr} :
    decodeP w = .ok i ↔ zeroFieldP w = 0#16
      ∧ .setpix (colField w) (rowField w) (redField w) (greenField w) (blueField w) = i := by
  unfold decodeP
  split <;> simp [*]

theorem decodeMemwr_ok {i : Instr} :
    decodeMemwr w = .ok i ↔ zeroFieldBM w = 0#24 ∧ .memwr (offField w) (valField w) = i := by
  unfold decodeMemwr
  split <;> simp [*]

theorem decodeMemrd_ok {i : Instr} :
    decodeMemrd w = .ok i ↔ (zeroFieldBM w = 0#24 ∧ valField w = 0#8) ∧ .memrd (offField w) (valField w) = i := by
  unfold decodeMemrd
  split
  · split <;> simp [*]
  · simp [*]

theorem decodeMemrd_value (h : zeroFieldBM w = 0#24) (hval : valField w ≠ 0#8) :
    decodeMemrd w = .error .memrdValue := (if_pos h).trans (if_neg hval)

theorem decodeN_error {i : Instr} : (∃ e, decodeN w i = .error e) ↔ zeroFieldN w ≠ 0#56 := by
  unfold decodeN
  split <;> simp [*]

theorem decodeB_error : (∃ e, decodeB w = .error e) ↔ zeroFieldBM w ≠ 0#24 := by
  unfold decodeB
  split <;> simp [*]

theorem decodeP_error : (∃ e, decodeP w = .error e) ↔ zeroFieldP w ≠ 0#16 := by
  unfold decodeP
  split <;> simp [*]

theorem decodeMemwr_error : (∃ e, decodeMemwr w = .error e) ↔ zeroFieldBM w ≠ 0#24 := by
  unfold decodeMemwr
  split <;> simp [*]

theorem decodeMemrd_error : (∃ e, decodeMemrd w = .error e) ↔ zeroFieldBM w ≠ 0#24 ∨ valField w ≠ 0#8 := by
  unfold decodeMemrd
  split
  · split <;> simp [*]
  · simp [*]

end Decode

/-! ### Decoder and encoder are inverse to each other -/

theorem opField_encode (i : Instr) : opField (encode i) = i.opcode := (encode_eq_iff.1 rfl).1

theorem zeroFieldN_encode (i : Instr) : zeroFieldN (encode i) = i.operandBits := (encode_eq_iff.1 rfl).2

section FormatN
variable {j : Instr} (hj : j ∈ commandsN)
include hj

theorem formatN_operandBits : j.operandBits = 0#56 := by
  revert j
  decide

theorem formatN_wellFormed : j.wellFormed = true := by
  revert j
  decide

theorem decode_encode_formatN : decode (encode j) = .ok j := by
  rw [decode_formatN hj (opField_encode j), decodeN_ok]
  exact ⟨(zeroFieldN_encode j).trans (formatN_operandBits hj), rfl⟩

end FormatN

/-- Settles O1: the opcode picks the command's format, and the operand bits give each field of the format. -/
theorem decodeOfEncodeIsTheCommand : Obligations.DecodeOfEncodeIsTheCommand := by
  intro i hwf
  have hop := opField_encode i
  have hbits := zeroFieldN_encode i
  cases i with
  | begin | getbright | getpixels | showStart | refresh => exact decode_encode_formatN (by decide)
  | setbright raw =>
    obtain ⟨hzero, hraw⟩ := operands_formatB_iff.1 hbits
    rw [decode_setbright hop, decodeB_ok.2 ⟨hzero, rfl⟩, hraw]
  | setpix col row r g b =>
    obtain ⟨⟨⟨⟨⟨hzero, hcol⟩, hrow⟩, hr⟩, hg⟩, hb⟩ := operands_formatP_iff.1 hbits
    rw [decode_setpix hop, decodeP_ok.2 ⟨hzero, rfl⟩, hcol, hrow, hr, hg, hb]
  | memwr off val =>
    obtain ⟨⟨hzero, hoff⟩, hval⟩ := operands_formatM_iff.1 hbits
    rw [decode_memwr hop, decodeMemwr_ok.2 ⟨hzero, rfl⟩, hoff, hval]
  | memrd off val =>
    obtain ⟨⟨hzero, hoff⟩, hval⟩ := operands_formatM_iff.1 hbits
    have hval0 : val = 0#8 := of_decide_eq_true hwf
    rw [decode_memrd hop, decodeMemrd_ok.2 ⟨⟨hzero, hval.trans hval0⟩, rfl⟩, hoff, hval]

/-- Settles O2: the opcode picks the format, and a format's decoder answers a command only when its zero field is 0,
with the fields it found. -/
theorem encodeOfDecodedWordIsTheWord : Obligations.EncodeOfDecodedWordIsTheWord := by
  intro w i h
  obtain ⟨j, hj, hop⟩ | hop | hop | hop | hop | hop := opField_cases w
  · rw [decode_formatN hj hop, decodeN_ok] at h
    obtain ⟨hzero, rfl⟩ := h
    exact ⟨formatN_wellFormed hj, encode_eq_iff.2 ⟨hop, hzero.trans (formatN_operandBits hj).symm⟩⟩
  · rw [decode_setbright hop, decodeB_ok] at h
    obtain ⟨hzero, rfl⟩ := h
    exact ⟨rfl, encode_eq_iff.2 ⟨hop, operands_formatB_iff.2 ⟨hzero, rfl⟩⟩⟩
  · rw [decode_setpix hop, decodeP_ok] at h
    obtain ⟨hzero, rfl⟩ := h
    exact ⟨rfl, encode_eq_iff.2 ⟨hop, operands_formatP_iff.2 ⟨⟨⟨⟨⟨hzero, rfl⟩, rfl⟩, rfl⟩, rfl⟩, rfl⟩⟩⟩
  · rw [decode_memwr hop, decodeMemwr_ok] at h
    obtain ⟨hzero, rfl⟩ := h
    exact ⟨rfl, encode_eq_iff.2 ⟨hop, operands_formatM_iff.2 ⟨⟨hzero, rfl⟩, rfl⟩⟩⟩
  · rw [decode_memrd hop, decodeMemrd_ok] at h
    obtain ⟨⟨hzero, hval⟩, rfl⟩ := h
    exact ⟨decide_eq_true hval, encode_eq_iff.2 ⟨hop, operands_formatM_iff.2 ⟨⟨hzero, rfl⟩, rfl⟩⟩⟩
  · rw [decode_unassigned hop] at h
    cases h

/-! ### The table of match and mask (R97) -/

/-- A field all of whose bits the mask keeps is that field of the match. -/
theorem field_of_match {w mask fixed : CommandWord} {start len : Nat} (h : w &&& mask = fixed)
    (hmask : mask.extractLsb' start len = BitVec.allOnes len) :
    w.extractLsb' start len = fixed.extractLsb' start len := by
  rw [← h, BitVec.extractLsb'_and, hmask, BitVec.and_allOnes]

theorem matches_encode (i : Instr) : Laws.RowMatch.Statement i := by
  cases i with
  | begin => exact Laws.RowMatch.begin
  | setbright raw => exact Laws.RowMatch.setbright raw
  | getbright => exact Laws.RowMatch.getbright
  | setpix col row r g b => exact Laws.RowMatch.setpix col row r g b
  | getpixels => exact Laws.RowMatch.getpixels
  | showStart => exact Laws.RowMatch.showStart
  | refresh => exact Laws.RowMatch.refresh
  | memwr off val => exact Laws.RowMatch.memwr off val
  | memrd off val => exact Laws.RowMatch.memrd off val

/-- A word that decodes matches the row of its command. -/
theorem match_of_decode {w : CommandWord} {i : Instr} (h : decode w = .ok i) :
    w &&& i.opcodeRow.mask = i.opcodeRow.fixed := by
  obtain ⟨hwf, rfl⟩ := encodeOfDecodedWordIsTheWord w i h
  exact of_decide_eq_true (matches_encode i hwf)

/-- The row of a command of format N has the command's word as its match, and a mask that keeps every bit. -/
theorem formatN_row {j : Instr} (hj : j ∈ commandsN) :
    j.opcodeRow.mask = BitVec.allOnes 64 ∧ j.opcodeRow.fixed = encode j := by
  revert j
  decide

theorem decode_of_match_formatN {w : CommandWord} {j : Instr} (hj : j ∈ commandsN)
    (h : w &&& j.opcodeRow.mask = j.opcodeRow.fixed) : decode w = .ok j := by
  obtain ⟨hmask, hfixed⟩ := formatN_row hj
  rw [hmask, BitVec.and_allOnes, hfixed] at h
  rw [h, decode_encode_formatN hj]

theorem opcodeTable_cases {row : OpcodeRow} (h : row ∈ opcodeTable) :
    (∃ j ∈ commandsN, row = j.opcodeRow) ∨ row = (Instr.setbright 0#32).opcodeRow
      ∨ row = (Instr.setpix 0#8 0#8 0#8 0#8 0#8).opcodeRow ∨ row = (Instr.memwr 0#24 0#8).opcodeRow
      ∨ row = (Instr.memrd 0#24 0#8).opcodeRow := by
  revert row
  decide

theorem decode_of_match {w : CommandWord} {row : OpcodeRow} (hrow : row ∈ opcodeTable)
    (h : w &&& row.mask = row.fixed) : ∃ i, decode w = .ok i ∧ i.opcodeRow = row := by
  obtain ⟨j, hj, rfl⟩ | rfl | rfl | rfl | rfl := opcodeTable_cases hrow
  · exact ⟨j, decode_of_match_formatN hj h, rfl⟩
  · have hop : opField w = 0x02#8 := field_of_match h (by decide)
    have hzero : zeroFieldBM w = 0#24 := field_of_match h (by decide)
    exact ⟨_, (decode_setbright hop).trans (decodeB_ok.2 ⟨hzero, rfl⟩), rfl⟩
  · have hop : opField w = 0x04#8 := field_of_match h (by decide)
    have hzero : zeroFieldP w = 0#16 := field_of_match h (by decide)
    exact ⟨_, (decode_setpix hop).trans (decodeP_ok.2 ⟨hzero, rfl⟩), rfl⟩
  · have hop : opField w = 0x08#8 := field_of_match h (by decide)
    have hzero : zeroFieldBM w = 0#24 := field_of_match h (by decide)
    exact ⟨_, (decode_memwr hop).trans (decodeMemwr_ok.2 ⟨hzero, rfl⟩), rfl⟩
  · have hop : opField w = 0x09#8 := field_of_match h (by decide)
    have hzero : zeroFieldBM w = 0#24 := field_of_match h (by decide)
    have hval : valField w = 0#8 := field_of_match h (by decide)
    exact ⟨_, (decode_memrd hop).trans (decodeMemrd_ok.2 ⟨⟨hzero, hval⟩, rfl⟩), rfl⟩

/-- Settles O3: the word of a command matches the command's row, and a match fixes the opcode and the zero field. -/
theorem wordIsCommandOfRowIffMatch : Obligations.WordIsCommandOfRowIffMatch := by
  refine ⟨rfl, fun w row hrow => ⟨?_, decode_of_match hrow⟩⟩
  rintro ⟨i, hi, rfl⟩
  exact match_of_decode hi

end Sys2Proof

namespace Sys2Proof.Machine

/-! ### Invalid words (R98) -/

section Reserved
variable {w : CommandWord}

theorem reservedWord_formatN {j : Instr} (hj : j ∈ commandsN) (h : opField w = j.opcode) :
    reservedWord w = true ↔ zeroFieldN w ≠ 0#56 := by
  simp only [commandsN, List.mem_cons, List.not_mem_nil, or_false] at hj
  obtain rfl | rfl | rfl | rfl | rfl := hj <;> simp [reservedWord, h, Instr.opcode]

theorem reservedWord_setbright (h : opField w = 0x02#8) : reservedWord w = true ↔ zeroFieldBM w ≠ 0#24 := by
  simp [reservedWord, h]

theorem reservedWord_setpix (h : opField w = 0x04#8) : reservedWord w = true ↔ zeroFieldP w ≠ 0#16 := by
  simp [reservedWord, h]

theorem reservedWord_memwr (h : opField w = 0x08#8) : reservedWord w = true ↔ zeroFieldBM w ≠ 0#24 := by
  simp [reservedWord, h]

theorem reservedWord_memrd (h : opField w = 0x09#8) :
    reservedWord w = true ↔ zeroFieldBM w ≠ 0#24 ∨ valField w ≠ 0#8 := by
  simp [reservedWord, h]

theorem reservedWord_unassigned (h : unassignedOpcode (opField w)) : reservedWord w = true := by
  obtain h | h := h <;> simp [reservedWord, h]

theorem reservedWord_iff_error : reservedWord w = true ↔ ∃ e, decode w = .error e := by
  obtain ⟨j, hj, hop⟩ | hop | hop | hop | hop | hop := opField_cases w
  · rw [reservedWord_formatN hj hop, decode_formatN hj hop, decodeN_error]
  · rw [reservedWord_setbright hop, decode_setbright hop, decodeB_error]
  · rw [reservedWord_setpix hop, decode_setpix hop, decodeP_error]
  · rw [reservedWord_memwr hop, decode_memwr hop, decodeMemwr_error]
  · rw [reservedWord_memrd hop, decode_memrd hop, decodeMemrd_error]
  · exact iff_of_true (reservedWord_unassigned hop) ⟨_, decode_unassigned hop⟩

end Reserved

/-! ### Words at the port (R90, R98) -/

theorem acceptWord_of_decode {w : CommandWord} {i : Instr} (h : decode w = .ok i) (s : State) :
    acceptWord w s = exec i s := by
  simp [acceptWord, h]

theorem acceptWord_of_error {w : CommandWord} {e : DecodeError} (h : decode w = .error e) (s : State) :
    acceptWord w s = .next s := by
  simp [acceptWord, h, dropped]

/-- Settles O4: opcode by opcode, the words the decoder rejects are the reserved ones, and the port drops them. -/
theorem invalidWordsAreExactlyReservedAndDropped : Obligations.InvalidWordsAreExactlyReservedAndDropped := by
  refine ⟨fun w => reservedWord_iff_error, fun w s h => ?_⟩
  obtain ⟨e, he⟩ := reservedWord_iff_error.1 h
  exact acceptWord_of_error he s

/-- Settles O6: the step takes the word off the list and the port runs its command. -/
theorem stepRunsDecodedCommand : Obligations.StepRunsDecodedCommand := by
  intro s w rest i hinputs hdec
  simp only [step, hinputs]
  exact acceptWord_of_decode hdec _

/-- Settles O7: the 64 bits of the word are all of it, so what is offered is the word of the command. -/
theorem offeredCommandWordIsRunNext : Obligations.OfferedCommandWordIsRunNext := by
  intro s i hwf
  have hdec := decodeOfEncodeIsTheCommand i hwf
  have hword : BitVec.ofNat 64 ((encode i).toNat % 2 ^ 64) = encode i := by
    rw [Nat.mod_eq_of_lt (encode i).isLt, BitVec.ofNat_toNat, BitVec.setWidth_eq]
  constructor
  · rw [decodeTableWord, if_pos (Nat.le_refl 64), hword, hdec]
    rfl
  · refine stepRunsDecodedCommand (s.withFetchWord 64 (encode i).toNat) (encode i) s.inputs i ?_ hdec
    rw [State.withFetchWord, hword]

/-- Settles O23: VAL is not 0 in the word either, so the word is invalid and the term is dropped. -/
theorem memrdWithValueHasNoEffect : Obligations.MemrdWithValueHasNoEffect := by
  intro off val hval
  obtain ⟨⟨hzero, -⟩, hfield⟩ := operands_formatM_iff.1 (zeroFieldN_encode (.memrd off val))
  refine ⟨?_, execMemrd_value hval⟩
  rw [decode_memrd (opField_encode (.memrd off val)), decodeMemrd_value hzero (hfield.trans_ne hval)]

theorem decode_of_encode_eq {w : CommandWord} {i : Instr} (hwf : i.wellFormed = true) (h : encode i = w) :
    decode w = .ok i := by
  rw [← h, decodeOfEncodeIsTheCommand i hwf]

/-- Settles O5: each vector is the word of its command. -/
theorem specVectorWordsDecode : Obligations.SpecVectorWordsDecode := by
  refine ⟨?_, ?_, ?_, ?_, ?_, ?_, ?_, ?_, ?_, ?_, ?_, ?_, ?_⟩ <;> exact decode_of_encode_eq (by decide) (by decide)

end Sys2Proof.Machine

/-! SUPPORT. The word of the output bitstream, bit by bit (spec/30_encoding.md R107 to R115): the parts of a position,
the lanes and the clock, and the dithered bit by the rank of its page. -/

namespace Sys2Proof.Machine

/-! ### The parts of a position (R107) -/

/-- A number with the digits `a` and `b` is below the product of the bounds. -/
theorem digits_lt {a b m n : Nat} (ha : a < m) (hb : b < n) : a * n + b < m * n := by
  have hle : (a + 1) * n ≤ m * n := Nat.mul_le_mul_right n ha
  rw [Nat.add_one_mul] at hle
  omega

/-- The digits of `a * n + b` to the base `n`. -/
theorem digits_div_mod {a b n : Nat} (hb : b < n) : (a * n + b) / n = a ∧ (a * n + b) % n = b :=
  (Nat.div_mod_unique (Nat.zero_lt_of_lt hb)).2 ⟨by rw [Nat.add_comm, Nat.mul_comm], hb⟩

/-- The lane and the clock phase of the word at (page, row, bit-plane, shift step, phase). -/
theorem word_at_bufferPos (c : Config) (pix : Nat → Byte) {p r i g f : Nat} (hr : r < c.rows) (hi : i < c.pwmBits)
    (hg : g < c.groups) (hf : f < c.clkPhases) :
    (∀ l, wordLane c pix (bufferPos c p r i (g * c.clkPhases + f)) l = laneBit c pix r p i (laneOf c g l))
      ∧ posWord c (bufferPos c p r i (g * c.clkPhases + f)) % c.clkPhases = f := by
  obtain ⟨hslot, hword, hpage⟩ :=
    posSlot_of_parts c (p := p) (k := r * c.pwmBits + i) (digits_lt hr hi) (digits_lt hg hf)
  obtain ⟨hrow, hplane⟩ := digits_div_mod (a := r) hi
  obtain ⟨hstep, hphase⟩ := digits_div_mod (a := g) hf
  simp only [wordLane, posRow, posPlane, bufferPos, hslot, hword, hpage, hrow, hplane, hstep, hphase, implies_true,
    and_self]

theorem laneOf_eq {c : Config} {g l : Nat} {lane : Lane} (h : c.laneMap[g * c.bitsPerWrite + l]? = some lane) :
    laneOf c g l = lane := by
  rw [laneOf, List.getD_eq_getElem?_getD, h, Option.getD_some]

/-- Settles O26: the parts of the position name the lane and the phase, and each bit of the word is a lane, the clock
or 0. -/
theorem busWordHasLanesAndClock : Obligations.BusWordHasLanesAndClock := by
  intro c pix p r i g f _ hr hi hg hf word
  obtain ⟨hlane, hphase⟩ := word_at_bufferPos c pix (p := p) hr hi hg hf
  have hwidth : c.bitsPerWrite < 8 := by have := c.geometry; omega
  have hbit := fun l hl => busWord_getLsbD c pix (bufferPos c p r i (g * c.clkPhases + f)) l hl
  simp only [hlane, hphase] at hbit
  refine ⟨fun l hl hpad => ?_, fun l col ch hl hled => ?_, ?_, fun l hl => ?_⟩
  · rw [hbit l (by omega), if_pos hl, laneOf_eq hpad, laneBit]
  · rw [hbit l (by omega), if_pos hl, laneOf_eq hled, laneBit, pixelOffset]
  · simp [word, hbit c.bitsPerWrite hwidth, clockBit]
  · by_cases h8 : l < 8
    · simp [word, hbit l h8, Nat.not_lt.2 hl.le, hl.ne']
    · exact BitVec.getLsbD_of_ge _ _ (by omega)

/-! ### Drive codes and ranks (spec/00_scope.md R10) -/

theorem nonDecreasing_iff (l : List Nat) : nonDecreasing l = true ↔ l.IsChain (· ≤ ·) := by
  induction l with
  | nil => simp [nonDecreasing]
  | cons a rest ih =>
    cases rest with
    | nil => simp [nonDecreasing]
    | cons b rest => simp [nonDecreasing, ih]

/-- A drive code has BIT_DEPTH bits: the codes rise to 2^BIT_DEPTH − 1. -/
theorem driveCode_lt (c : Config) (v : Byte) : driveCode c v < 2 ^ c.bitDepth := by
  obtain ⟨-, -, -, hlen, -, hlast, hmono⟩ := c.dither
  have hv : v.toNat < 256 := v.isLt
  have hle : driveCode c v ≤ c.driveCodes[255] := by
    rw [driveCode, List.getD_eq_getElem _ _ (by omega)]
    exact ((nonDecreasing_iff _).1 hmono).pairwise.rel_get_of_le (a := ⟨v.toNat, by omega⟩) (b := ⟨255, by omega⟩)
      (Nat.le_of_lt_succ hv)
  rw [(List.getElem_of_getElem? hlast).2] at hle
  have := Nat.two_pow_pos c.bitDepth
  omega

theorem pageRank_lt (c : Config) {p : Nat} (hp : p < c.pages) : pageRank c p < c.pages := by
  obtain ⟨hlen, -, hrank, -⟩ := c.dither
  have hp' : p < c.pageRanks.length := hlen ▸ hp
  rw [pageRank, List.getD_eq_getElem _ _ hp']
  exact hrank _ (List.getElem_mem hp')

/-! ### The dithered bit (R114) -/

section Rank
variable {c : Config} {v : Byte} {p i : Nat}

theorem pbit_of_rank_lt (h : pageRank c p < driveHi c v) : pbit c v p i = true := if_pos h

theorem pbit_of_rank_eq (h : pageRank c p = driveHi c v) : pbit c v p i = (driveLo c v).testBit i := by
  simp [pbit, h]

theorem pbit_of_rank_gt (h : driveHi c v < pageRank c p) : pbit c v p i = false := by
  simp [pbit, h.not_gt, h.ne']

theorem pageValue_of_rank_lt (h : pageRank c p < driveHi c v) : pageValue c v p = 2 ^ c.pwmBits - 1 := if_pos h

theorem pageValue_of_rank_eq (h : pageRank c p = driveHi c v) : pageValue c v p = driveLo c v := by
  simp [pageValue, h]

theorem pageValue_of_rank_gt (h : driveHi c v < pageRank c p) : pageValue c v p = 0 := by
  simp [pageValue, h.not_gt, h.ne']

/-- The dithered bit is a bit of the value the page shows. -/
theorem pbit_eq_testBit (c : Config) (v : Byte) (p : Nat) (hi : i < c.pwmBits) :
    pbit c v p i = (pageValue c v p).testBit i := by
  obtain h | h | h := Nat.lt_trichotomy (pageRank c p) (driveHi c v)
  · simp [pbit_of_rank_lt h, pageValue_of_rank_lt h, Nat.testBit_two_pow_sub_one, hi]
  · rw [pbit_of_rank_eq h, pageValue_of_rank_eq h]
  · rw [pbit_of_rank_gt h, pageValue_of_rank_gt h, Nat.zero_testBit]

/-- Without dithered bits there is one page, and it shows the drive code. -/
theorem pbit_undithered (hp : p < c.pages) (hpaged : c.pagedBits = 0) : pbit c v p i = (driveCode c v).testBit i := by
  have hrank := pageRank_lt c hp
  have hdrive := driveCode_lt c v
  simp only [Params.pages, Params.bitDepth, hpaged, Nat.pow_zero, Nat.add_zero] at hrank hdrive
  have hhi : driveHi c v = 0 := by rw [driveHi, Nat.shiftRight_eq_div_pow, Nat.div_eq_of_lt hdrive]
  have heq : pageRank c p = driveHi c v := by omega
  rw [pbit_of_rank_eq heq, driveLo, Nat.mod_eq_of_lt hdrive]

end Rank

/-- Settles O27: the three cases of the rank against hi(D), which is the quotient by 2^PWM_BITS. -/
theorem ditheredBitByRank : Obligations.DitheredBitByRank := by
  intro c v p i hp hi drive rank
  have hhi : driveHi c v = drive / 2 ^ c.pwmBits := Nat.shiftRight_eq_div_pow _ _
  rw [← hhi]
  exact ⟨pbit_of_rank_lt, pbit_of_rank_eq, pbit_of_rank_gt, pageValue_of_rank_lt, pageValue_of_rank_eq,
    pageValue_of_rank_gt, pbit_eq_testBit c v p hi, pbit_undithered hp⟩

end Sys2Proof.Machine

/-! SUPPORT. The packed descriptor images and the register window that shows them (spec/30_encoding.md R117, R118,
spec/20_memory.md R61). -/

namespace Sys2Proof.Machine

/-! ### The four words of an image (R118) -/

theorem getLsbD_of_extract {n i : Nat} {x : BitVec n} {b : Bool} (h : x.extractLsb' i 1 = BitVec.ofBool b) :
    x.getLsbD i = b := by
  rw [BitVec.getLsbD_eq_extractLsb', h]
  cases b <;> rfl

/-- The flags of word 3 stand one below the other, above ESIZE and DST. -/
theorem flags_of_word {x : Word} {zeros : BitVec 25} {done en intmaj link : Bool} {esize : BitVec 1} {dst : BitVec 2}
    (h : x.extractLsb' 0 32 = zeros ++ BitVec.ofBool done ++ BitVec.ofBool en ++ BitVec.ofBool intmaj
      ++ BitVec.ofBool link ++ esize ++ dst) :
    x.extractLsb' 0 2 = dst ∧ x.extractLsb' 2 1 = esize ∧ x.getLsbD 3 = link ∧ x.getLsbD 4 = intmaj
      ∧ x.getLsbD 5 = en ∧ x.getLsbD 6 = done ∧ x.extractLsb' 7 25 = zeros := by
  rw [extract_eq_append_iff (n := 30) (m := 2), extract_eq_append_iff (n := 29) (m := 1),
    extract_eq_append_iff (n := 28) (m := 1), extract_eq_append_iff (n := 27) (m := 1),
    extract_eq_append_iff (n := 26) (m := 1), extract_eq_append_iff (n := 25) (m := 1)] at h
  obtain ⟨⟨⟨⟨⟨⟨hzeros, hdone⟩, hen⟩, hintmaj⟩, hlink⟩, hesize⟩, hdst⟩ := h
  exact ⟨hdst, hesize, getLsbD_of_extract hlink, getLsbD_of_extract hintmaj, getLsbD_of_extract hen,
    getLsbD_of_extract hdone, hzeros⟩

/-- Settles O59: each word is its fields side by side. -/
theorem packedImageHoldsTheFields : Obligations.PackedImageHoldsTheFields := fun _ =>
  ⟨_, _, _, rfl, BitVec.extractLsb'_append_eq_left, BitVec.extractLsb'_append_eq_right,
    BitVec.extractLsb'_append_eq_left, BitVec.extractLsb'_append_eq_right, flags_of_word BitVec.extractLsb'_eq_self⟩

/-- Byte `b` of word `j` is byte `4 * j + b` of the image. -/
theorem imageByte_of_word {d : Desc} {j b : Nat} {w : Word} (hw : d.packed[j]? = some w) (hb : b < 4) :
    d.imageByte (4 * j + b) = w.extractLsb' (8 * b) 8 := by
  have hdiv : (4 * j + b) / 4 = j := by omega
  have hmod : (4 * j + b) % 4 = b := by omega
  rw [Desc.imageByte, hdiv, hmod, List.getD_eq_getElem?_getD, hw, Option.getD_some]

/-- A word is its four bytes, the first one lowest. -/
theorem word_of_bytes (w : Word) :
    w.extractLsb' 24 8 ++ w.extractLsb' 16 8 ++ w.extractLsb' 8 8 ++ w.extractLsb' 0 8 = w := by
  rw [BitVec.extractLsb'_append_extractLsb'_eq_extractLsb' (start₂ := 24) (start₁ := 16) rfl,
    BitVec.extractLsb'_append_extractLsb'_eq_extractLsb' (start₂ := 16) (start₁ := 8) rfl,
    BitVec.extractLsb'_append_extractLsb'_eq_extractLsb' (start₂ := 8) (start₁ := 0) rfl]
  exact BitVec.extractLsb'_eq_self

/-! ### The window (R117, R118) -/

theorem descWindowByte_isSome (s : State) (a : Nat) :
    (s.descWindowByte a).isSome = true ↔ s.cfg.descBase ≤ a ∧ a < s.cfg.descBase + 64 := by
  rw [State.descWindowByte]
  split
  · rw [Option.isSome_map, Chan.isSome_ofNumber]
    omega
  · simp only [Option.isSome_none, Bool.false_eq_true, false_iff]
    omega

/-- Byte `b` of word `j` of a channel's image, where the window shows it. -/
theorem descWindowByte_word {s : State} {ch : Chan} {j b : Nat} {w : Word} (hw : (s.desc ch).packed[j]? = some w)
    (hj : j < 4) (hb : b < 4) :
    s.descWindowByte (s.cfg.descBase + 16 * ch.number + 4 * j + b) = some (w.extractLsb' (8 * b) 8) := by
  rw [Nat.add_assoc, s.descWindowByte_image ch (by omega), imageByte_of_word hw hb]

theorem descWindowWord_of_bytes {s : State} {a : Nat} {w : Word}
    (h : ∀ b, b < 4 → s.descWindowByte (a + b) = some (w.extractLsb' (8 * b) 8)) : s.descWindowWord a = some w := by
  have h0 := h 0 (by decide)
  rw [Nat.add_zero] at h0
  simp only [State.descWindowWord, h0, h 1 (by decide), h 2 (by decide), h 3 (by decide)]
  exact congrArg some (word_of_bytes w)

theorem memRead_descWindow (c : Config) (m : Memory) {a : Nat} (size : ElemSize) (hlo : c.descBase ≤ a)
    (hhi : a < c.descBase + 64) : ∃ f, memRead c m a size = .error f := by
  have hmap := mapped_descWindow c hlo hhi
  cases size with
  | one => exact ⟨_, (memAccess_unmapped_one (v := 0#16) hmap).1⟩
  | two =>
    obtain hal | hal := Nat.mod_two_eq_zero_or_one a
    · exact ⟨_, (memAccess_unmapped_two (v := 0#16) hal (.inl hmap)).1⟩
    · exact ⟨_, (memAccess_misaligned (v := 0#16) hal).1⟩

/-- Settles O60: the window's bytes are the images' bytes, and its addresses are not mapped. -/
theorem packedImageStandsAtDescBase : Obligations.PackedImageStandsAtDescBase := by
  refine ⟨⟨rfl, rfl, rfl, rfl⟩, fun s => ⟨fun ch j hj => ?_, descWindowByte_isSome s,
    fun a size => memRead_descWindow s.cfg s.mem size⟩⟩
  have hw : (s.desc ch).packed[j]? = some (s.desc ch).packed[j] := List.getElem?_eq_getElem hj
  have hbytes := fun b => descWindowByte_word (b := b) hw hj
  exact ⟨_, hw, descWindowWord_of_bytes hbytes, hbytes⟩

end Sys2Proof.Machine

/-! SUPPORT. The statements on the AddressTable (spec/40_address_table.md): its runs, and that it is not rewritten. -/

namespace Sys2Proof.Machine

/-! ### The runs of the built table (R131) -/

/-- A list of m * n entries that depend on k div n only is m runs of n equal entries. -/
theorem map_div_range_mul {α : Type} (f : Nat → α) (m n : Nat) :
    (List.range (m * n)).map (fun k => f (k / n)) = (List.range m).flatMap fun r => List.replicate n (f r) := by
  induction m with
  | zero => simp
  | succ m ih =>
    have hrun : (List.range n).map (fun j => f ((m * n + j) / n)) = List.replicate n (f m) := by
      refine List.eq_replicate_iff.2 ⟨by simp, fun x hx => ?_⟩
      obtain ⟨j, hj, rfl⟩ := List.mem_map.1 hx
      rw [(digits_div_mod (List.mem_range.1 hj)).1]
    rw [Nat.succ_mul, List.range_add, List.map_append, ih, List.map_map, List.range_succ, List.flatMap_append,
      List.flatMap_singleton]
    exact congrArg _ hrun

/-- The entries of the table: a run of PWM_BITS codes for every row, then the sentinel. -/
theorem addrEntries_eq_runs (c : Config) :
    (List.range c.tableLen).map (addrEntry c)
      = ((List.range c.rows).flatMap fun r => List.replicate c.pwmBits (rowCode c r)) ++ [c.idleCode] := by
  have hdata : (List.range c.nSlots).map (addrEntry c)
      = (List.range (c.rows * c.pwmBits)).map fun k => rowCode c (k / c.pwmBits) :=
    List.map_congr_left fun k hk => if_pos (List.mem_range.1 hk)
  have hsentinel : addrEntry c c.nSlots = c.idleCode := if_neg (Nat.lt_irrefl _)
  rw [c.tableLen_eq, List.range_succ, List.map_append, hdata, map_div_range_mul, List.map_singleton, hsentinel]

/-- An entry of a built table as a number: a code of ADDR_WIDTH bits fits the byte. -/
theorem AddrTableBuilt.toNat_readByte {c : Config} {m : Memory} (h : AddrTableBuilt c m) {k : Nat}
    (hk : k < c.tableLen) : (m.readByte (c.addrtabBase + k)).toNat = addrEntry c k := by
  rw [h k hk, BitVec.toNat_ofNat, Nat.mod_eq_of_lt ((addrEntry_lt c k).trans_le c.addrWidth_pow_le)]

/-- Settles O34: BEGIN builds the entries of `addrEntry`, and those are the runs and the sentinel. -/
theorem builtAddressTableIsRunsAndSentinel : Obligations.BuiltAddressTableIsRunsAndSentinel := by
  intro s t hstarted hhalted hres hwf hexec
  have hbegin : exec .begin s = .next (startScan (builtTables s) s) :=
    (execBegin_eq hhalted).trans (by simp [hstarted, hres])
  obtain rfl : startScan (builtTables s) s = t := by simpa [hbegin] using hexec
  refine ⟨?_, by rw [List.length_map, List.length_range]; rfl⟩
  calc _ = (List.range s.cfg.tableLen).map (addrEntry s.cfg) :=
        List.map_congr_left fun k hk => (tablesBuilt_begin hwf).1.toNat_readByte (List.mem_range.1 hk)
    _ = _ := addrEntries_eq_runs s.cfg

/-! ### The table after BEGIN (R136) -/

theorem Inv.addrTableBuilt {s : State} (h : Inv s) (hstarted : s.started = true) : AddrTableBuilt s.cfg s.mem :=
  ((tablesOk_iff s).1 h.tables hstarted).1

/-- Settles O57: the step keeps the invariant, STARTED and the configuration, so both states hold the one table the
configuration determines. -/
theorem addressTableIsNeverRewritten : Obligations.AddressTableIsNeverRewritten := by
  intro s t h hstarted hreset hstep k hk
  obtain ⟨hcfg, -⟩ := configurationNeverChanges s t hstep
  obtain ⟨-, hkeeps, -, -⟩ := onlyResetStopsTheScan s t hreset hstep
  have hbuilt := (invariantKeptByEveryStep s t h hstep).addrTableBuilt (hkeeps hstarted)
  rw [hcfg] at hbuilt
  rw [hbuilt k hk, h.addrTableBuilt hstarted k hk]

end Sys2Proof.Machine

/-! SUPPORT. The statements on the TimerTable (spec/41_timer_table.md): what SETBRIGHT stores and builds, the properties
of the entries, and that the BRIGHT stored already builds the same table. -/

namespace Sys2Proof.Machine

/-! ### What SETBRIGHT stores (R146) -/

/-- The clamp of R13 is the nearest number between 0 and the bound. -/
theorem clampToNat_eq_max_min (x : Int) (hi : Nat) : (clampToNat x hi : Int) = max 0 (min x hi) := by
  unfold clampToNat
  split
  · omega
  · split <;> omega

theorem brightOperand_eq_max_min (c : Config) (raw : BitVec 32) :
    ((brightOperand c raw).toNat : Int) = max 0 (min raw.toInt c.brightOne) := by
  rw [brightOperand_toNat, clampToNat_eq_max_min]

theorem exec_setbright (raw : BitVec 32) {s : State} (h : s.halted = false) :
    exec (.setbright raw) s = .next (effect (.setbright raw) s) := execSetbright_eq raw h

theorem eq_effect_of_exec_setbright {raw : BitVec 32} {s t : State} (h : s.halted = false)
    (hexec : exec (.setbright raw) s = .next t) : t = effect (.setbright raw) s := by
  rw [exec_setbright raw h] at hexec
  cases hexec
  rfl

/-! ### The entries as numbers (R142, R150) -/

/-- The entries of a built table as numbers: none overflows its 16 bits (R149). -/
theorem TmrTableBuilt.toNat_readHalf {c : Config} {bright : Nat} {m : Memory} (h : TmrTableBuilt c bright m)
    (hbright : bright ≤ c.brightOne) {k : Nat} (hk : k < c.tableLen) :
    (m.readHalf (c.tmrtabBase + 4 * k)).toNat = periodEntry c k
      ∧ (m.readHalf (c.tmrtabBase + 4 * k + 2)).toNat = dutyEntry c bright k := by
  obtain ⟨hperiod, hduty⟩ := h k hk
  have hmax := periodEntry_le c k
  have hle := dutyEntry_le_periodEntry c hbright k
  rw [hperiod, hduty, ofNat_toNat hmax, ofNat_toNat (by omega)]
  exact ⟨rfl, rfl⟩

/-- The numbers in the table after a SETBRIGHT. -/
theorem toNat_readHalf_setbright (raw : BitVec 32) {s : State} (hm : s.mem.wf = true) {k : Nat}
    (hk : k < s.cfg.tableLen) :
    ((effect (.setbright raw) s).mem.readHalf (s.cfg.tmrtabBase + 4 * k)).toNat = periodEntry s.cfg k
      ∧ ((effect (.setbright raw) s).mem.readHalf (s.cfg.tmrtabBase + 4 * k + 2)).toNat
          = dutyEntry s.cfg (brightOperand s.cfg raw).toNat k :=
  (tmrTableBuilt_build hm).toNat_readHalf (brightOperand_le s.cfg raw) hk

theorem periodEntry_data {c : Config} {k : Nat} (hk : k < c.nSlots) :
    periodEntry c k = c.unitTime * 2 ^ (k % c.pwmBits) := by
  rw [periodEntry, if_pos hk, Nat.shiftLeft_eq]

theorem dutyEntry_data {c : Config} {bright k : Nat} (hk : k < c.nSlots) :
    dutyEntry c bright k = unitB c bright * 2 ^ (k % c.pwmBits) := by
  rw [dutyEntry, if_pos hk, Nat.shiftLeft_eq]

theorem periodEntry_sentinel (c : Config) : periodEntry c c.nSlots = c.sentinelPeriod := if_neg (Nat.lt_irrefl _)

theorem dutyEntry_sentinel (c : Config) (bright : Nat) : dutyEntry c bright c.nSlots = 0 := if_neg (Nat.lt_irrefl _)

theorem encode_setbright (raw : BitVec 32) : encode (.setbright raw) = 0x02#8 ++ 0#24 ++ raw :=
  (BitVec.append_assoc (x₁ := 0x02#8) (x₂ := 0#24) (x₃ := raw)).symm

/-- BUILD_TMR leaves the bytes outside TMRTAB as they are. -/
theorem readByte_setbright_other (raw : BitVec 32) {s : State} (hm : s.mem.wf = true) {a : Nat}
    (ha : inTmrtab s.cfg a = false) : (effect (.setbright raw) s).mem.readByte a = s.mem.readByte a := by
  rw [inTmrtab, ← Bool.not_eq_true, inRegion_iff] at ha
  exact readByte_buildTmr_other hm (by omega)

/-- Settles O14: SETBRIGHT is its effect, whose table holds the entries of R142 as numbers. -/
theorem setbrightStoresClampAndRebuildsTable : Obligations.SetbrightStoresClampAndRebuildsTable := by
  intro s raw
  refine ⟨encode_setbright raw, exec_halted _, fun hhalted hm =>
    ⟨effect (.setbright raw) s, exec_setbright raw hhalted, rfl, wf_writeCells hm _,
      brightOperand_eq_max_min s.cfg raw, fun k hk => ?_, ?_, ?_, fun a => readByte_setbright_other raw hm⟩⟩
  · obtain ⟨hperiod, hduty⟩ := toNat_readHalf_setbright raw hm (hk.trans (Nat.lt_succ_self _))
    exact ⟨hperiod.trans (periodEntry_data hk), hduty.trans (dutyEntry_data hk)⟩
  · exact (toNat_readHalf_setbright raw hm (Nat.lt_succ_self _)).1.trans (periodEntry_sentinel s.cfg)
  · exact (toNat_readHalf_setbright raw hm (Nat.lt_succ_self _)).2.trans (dutyEntry_sentinel s.cfg _)

/-! ### The properties of the entries (R144) -/

theorem two_pow_plane_double {n k : Nat} (h : 1 ≤ k % n) : 2 ^ (k % n) = 2 * 2 ^ ((k - 1) % n) := by
  rw [← Nat.mod_sub_of_le h, ← Nat.pow_succ']
  congr 1
  omega

/-- R144 (a): both entries double from plane to plane. -/
theorem entries_double {c : Config} {bright k : Nat} (hk : k < c.nSlots) (hplane : 1 ≤ k % c.pwmBits) :
    dutyEntry c bright k = 2 * dutyEntry c bright (k - 1) ∧ periodEntry c k = 2 * periodEntry c (k - 1) := by
  have hpred : k - 1 < c.nSlots := by omega
  rw [dutyEntry_data hk, dutyEntry_data hpred, periodEntry_data hk, periodEntry_data hpred,
    two_pow_plane_double hplane]
  exact ⟨Nat.mul_left_comm .., Nat.mul_left_comm ..⟩

/-- R144 (b): within a row a later slot has a higher plane, so its duty is no shorter. -/
theorem dutyEntry_le_of_sameRow {c : Config} {bright k k' : Nat} (hle : k ≤ k') (hk' : k' < c.nSlots)
    (hrow : k / c.pwmBits = k' / c.pwmBits) : dutyEntry c bright k ≤ dutyEntry c bright k' := by
  have hk := Nat.div_add_mod k c.pwmBits
  have hsum := Nat.div_add_mod k' c.pwmBits
  rw [hrow] at hk
  rw [dutyEntry_data (hle.trans_lt hk'), dutyEntry_data hk']
  exact Nat.mul_le_mul_left _ (Nat.pow_le_pow_right (by decide) (by omega))

/-- The burst of plane 0 is the whole of UNIT_TIME at full brightness only: below it the quotient is rounded down. -/
theorem unitB_eq_unitTime_iff {c : Config} {bright : Nat} (hbright : bright ≤ c.brightOne) :
    unitB c bright = c.unitTime ↔ bright = c.brightOne := by
  have hone : 0 < c.brightOne := by have := c.brightOne_le; omega
  have hunit : 0 < c.unitTime := c.timing.1
  constructor
  · intro h
    by_contra hne
    have hlt : c.unitTime * bright < c.unitTime * c.brightOne := Nat.mul_lt_mul_of_pos_left (by omega) hunit
    exact absurd h ((Nat.div_lt_iff_lt_mul hone).2 hlt).ne
  · rintro rfl
    exact Nat.mul_div_cancel _ hone

/-- R144 (c): the duty is the whole period exactly at full brightness. -/
theorem dutyEntry_eq_periodEntry_iff {c : Config} {bright k : Nat} (hbright : bright ≤ c.brightOne)
    (hk : k < c.nSlots) : dutyEntry c bright k = periodEntry c k ↔ bright = c.brightOne := by
  rw [dutyEntry_data hk, periodEntry_data hk, Nat.mul_left_inj (Nat.two_pow_pos _).ne', unitB_eq_unitTime_iff hbright]

/-- R144 (d): the row below has the same bursts, as the entries depend on the plane only. -/
theorem entries_nextRow {c : Config} {bright k : Nat} (hk : k + c.pwmBits < c.nSlots) :
    dutyEntry c bright k = dutyEntry c bright (k + c.pwmBits) ∧ periodEntry c k = periodEntry c (k + c.pwmBits) := by
  have hk' : k < c.nSlots := by omega
  rw [dutyEntry_data hk, dutyEntry_data hk', periodEntry_data hk, periodEntry_data hk', Nat.add_mod_right]
  exact ⟨rfl, rfl⟩

/-- R144 (e): a UNIT_TIME × BRIGHT below BRIGHT_ONE is rounded down to 0. -/
theorem dutyEntry_eq_zero {c : Config} {bright : Nat} (h : c.unitTime * bright < c.brightOne) (k : Nat) :
    dutyEntry c bright k = 0 := by
  have hunit : unitB c bright = 0 := Nat.div_eq_of_lt h
  rw [dutyEntry, hunit, Nat.zero_shiftLeft, ite_self]

/-- Settles O16: the numbers in the table are the entries, which have the properties (a) to (f). -/
theorem builtTimerTableProperties : Obligations.BuiltTimerTableProperties := by
  intro s t raw hhalted hm hexec
  have htlen := s.cfg.tableLen_eq
  have hperiod := fun raw k (hk : k < s.cfg.tableLen) => (toNat_readHalf_setbright raw hm hk).1
  have hduty := fun k (hk : k < s.cfg.tableLen) => (toNat_readHalf_setbright raw hm hk).2
  obtain rfl := eq_effect_of_exec_setbright hhalted hexec
  refine ⟨fun k hk hplane => ?_, fun k k' hle hk' hrow => ?_, fun k hk => ?_, fun k hk => ?_, fun k hk => ?_,
    fun hlow k hk => ?_, fun raw' t' hexec' k hk => ?_⟩ <;> dsimp only
  · rw [hduty k (by omega), hduty (k - 1) (by omega), hperiod raw k (by omega), hperiod raw (k - 1) (by omega)]
    exact entries_double hk hplane
  · rw [hduty k (by omega), hduty k' (by omega)]
    exact dutyEntry_le_of_sameRow hle hk' hrow
  · rw [hduty k hk, hperiod raw k hk]
    exact dutyEntry_le_periodEntry s.cfg (brightOperand_le s.cfg raw) k
  · rw [hduty k (by omega), hperiod raw k (by omega)]
    exact dutyEntry_eq_periodEntry_iff (brightOperand_le s.cfg raw) hk
  · rw [hduty k (by omega), hduty (k + s.cfg.pwmBits) (by omega), hperiod raw k (by omega),
      hperiod raw (k + s.cfg.pwmBits) (by omega)]
    exact entries_nextRow hk
  · rw [hduty k hk]
    exact dutyEntry_eq_zero hlow k
  · rw [eq_effect_of_exec_setbright hhalted hexec', hperiod raw' k hk, hperiod raw k hk]

/-! ### The BRIGHT stored already (R146) -/

/-- Writing bytes the memory holds already changes nothing. -/
theorem writeCells_of_held {m : Memory} (hm : m.wf = true) {cells : List Host.Cell}
    (h : ∀ cell ∈ cells, m.readByte cell.1 = cell.2) : writeCells m cells = m := by
  induction cells with
  | nil => rfl
  | cons cell cells ih =>
    rw [writeCells_cons, ← h cell (List.mem_cons_self ..), Memory.writeByte_self hm]
    exact ih fun x hx => h x (List.mem_cons_of_mem _ hx)

/-- The bytes of a half the memory holds are held. -/
theorem halfCells_held {m : Memory} {a n : Nat} (h : m.readHalf a = BitVec.ofNat 16 n) :
    ∀ cell ∈ halfCells a n, m.readByte cell.1 = cell.2 := by
  intro cell hc
  rw [halfCells, ← h, Memory.readHalf, BitVec.extractLsb'_append_eq_right, BitVec.extractLsb'_append_eq_left,
    List.mem_cons, List.mem_singleton] at hc
  rcases hc with rfl | rfl <;> rfl

/-- BUILD_TMR over the table it would build changes nothing. -/
theorem TmrTableBuilt.writeCells_eq {c : Config} {bright : Nat} {m : Memory} (h : TmrTableBuilt c bright m)
    (hm : m.wf = true) : writeCells m (tmrCells c bright) = m := by
  refine writeCells_of_held hm fun cell hc => ?_
  obtain ⟨k, hk, hcell⟩ := List.mem_flatMap.1 hc
  obtain ⟨hperiod, hduty⟩ := h k (List.mem_range.1 hk)
  rcases List.mem_append.1 hcell with hcell | hcell
  · exact halfCells_held hperiod cell hcell
  · exact halfCells_held hduty cell hcell

theorem Inv.tmrTableBuilt {s : State} (h : Inv s) (hstarted : s.started = true) :
    TmrTableBuilt s.cfg s.bright.toNat s.mem := ((tablesOk_iff s).1 h.tables hstarted).2

/-- A started block is not halted (spec/10_state.md R30). -/
theorem Inv.not_halted {s : State} (h : Inv s) (hstarted : s.started = true) : s.halted = false := by
  obtain ⟨hnot, -⟩ := h.flags
  simpa [hstarted] using hnot

/-- Settles O17: once the scan is started TMRTAB holds the table of the stored BRIGHT, and SETBRIGHT writes its bytes
again. -/
theorem settingStoredBrightnessChangesNothing : Obligations.SettingStoredBrightnessChangesNothing := by
  intro s raw h hstarted hsame
  rw [exec_setbright raw (h.not_halted hstarted), effect, hsame, (h.tmrTableBuilt hstarted).writeCells_eq h.memory.1]

/-! ### GETBRIGHT (R147) -/

theorem exec_getbright {s : State} (h : s.halted = false) :
    exec .getbright s = .next { s with resp := s.bright.setWidth 32 } := execGetbright_eq h

/-- Settles O15: GETBRIGHT answers what SETBRIGHT stored, and 17 bits fit RESP. -/
theorem getbrightAnswersStoredBrightness : Obligations.GetbrightAnswersStoredBrightness := by
  refine ⟨by decide, fun s => exec_getbright, fun s t raw hhalted hexec => ?_⟩
  obtain rfl := eq_effect_of_exec_setbright hhalted hexec
  have hresp : ((brightOperand s.cfg raw).setWidth 32).toNat = (brightOperand s.cfg raw).toNat :=
    BitVec.toNat_setWidth_of_le (by decide)
  exact ⟨_, exec_getbright hhalted, (congrArg Nat.cast hresp).trans (brightOperand_eq_max_min s.cfg raw)⟩

end Sys2Proof.Machine

/-! SUPPORT. The commands of the pixel encoder (spec/42_pixel_encoder.md R163 to R168): what SETPIX, MEMWR, MEMRD,
GETPIXELS and SHOW answer, and when they are dropped. -/

namespace Sys2Proof.Machine

/-! ### Effective and dropped commands -/

theorem exec_of_effective {i : Instr} {s : State} (h : effective i s = true) : exec i s = .next (effect i s) := by
  rw [exec_eq_effect, if_pos h]

theorem exec_of_not_effective {i : Instr} {s : State} (h : effective i s = false) : exec i s = .next s := by
  simp [exec_eq_effect, h]

/-! ### SETPIX (R163) -/

theorem effective_setpix_iff {s : State} {col row r g b : BitVec 8} : effective (.setpix col row r g b) s = true ↔
    s.halted = false ∧ col.toNat < s.cfg.columns ∧ row.toNat < s.cfg.rows := by
  simp [effective, pixelInRange]

/-- The bytes of a SETPIX, one by one. -/
theorem forall_mem_pixelCells {c : Config} {col row r g b : BitVec 8} {p : Host.Cell → Prop} :
    (∀ cell ∈ pixelCells c col row r g b, p cell)
      ↔ p (pixelAddr c col row, r) ∧ p (pixelAddr c col row + 1, g) ∧ p (pixelAddr c col row + 2, b) := by
  simp [pixelCells]

/-- The three bytes of a SETPIX go to three addresses, so each is read back. -/
theorem pixelCells_held {m : Memory} (hm : m.wf = true) (c : Config) (col row r g b : BitVec 8) :
    ∀ cell ∈ pixelCells c col row r g b, (writeCells m (pixelCells c col row r g b)).readByte cell.1 = cell.2 :=
  fun _ hc => readByte_writeCells_mem hm (by simp [pixelCells]) hc

theorem encode_setpix (col row r g b : BitVec 8) :
    encode (.setpix col row r g b) = 0x04#8 ++ 0#16 ++ col ++ row ++ r ++ g ++ b := by
  simp only [encode, Instr.opcode, Instr.operandBits, BitVec.append_assoc, BitVec.cast_eq]

/-- Settles O18: in range SETPIX is its effect, three bytes of PIXBUF, and elsewhere it is not effective. -/
theorem setpixWritesThePixelOrIsDropped : Obligations.SetpixWritesThePixelOrIsDropped := by
  refine ⟨fun s col row r g b hhalted hm hcol hrow => ?_, fun s col row r g b hout => exec_of_not_effective ?_,
    fun s col row r g b => exec_halted _, encode_setpix⟩
  · obtain ⟨hred, hgreen, hblue⟩ := forall_mem_pixelCells.1 (pixelCells_held hm s.cfg col row r g b)
    obtain ⟨hfirst, -, hlast⟩ := forall_mem_pixelCells.1
      (pixelCells_in (c := s.cfg) (col := col) (row := row) (by simp [pixelInRange, hcol, hrow]) r g b)
    refine ⟨effect (.setpix col row r g b) s, exec_of_effective (effective_setpix_iff.2 ⟨hhalted, hcol, hrow⟩), rfl,
      wf_writeCells hm _, hred, hgreen, hblue, hfirst, hlast, fun x hx => ?_⟩
    change x < pixelAddr s.cfg col row ∨ pixelAddr s.cfg col row + 3 ≤ x at hx
    exact readByte_writeCells_other hm
      (forall_mem_pixelCells.2 ⟨by dsimp only; omega, by dsimp only; omega, by dsimp only; omega⟩)
  · rw [← Bool.not_eq_true, effective_setpix_iff]
    omega

/-! ### MEMWR and MEMRD (R165, R166) -/

theorem effective_memwr_iff {s : State} {off : BitVec 24} {val : BitVec 8} :
    effective (.memwr off val) s = true ↔ s.halted = false ∧ off.toNat < s.cfg.pixbufSize := by
  simp [effective, offsetInRange]

theorem effective_memrd_iff {s : State} {off : BitVec 24} :
    effective (.memrd off 0#8) s = true ↔ s.halted = false ∧ off.toNat < s.cfg.pixbufSize := by
  simp [effective, offsetInRange]

/-- Every offset of PIXBUF fits OFF. -/
theorem pixbufSize_lt (c : Config) : c.pixbufSize < 2 ^ 24 := by
  obtain ⟨-, hrows, -, hcolumns, -⟩ := c.geometry
  have hle : c.rows * c.columns ≤ 255 * 255 := Nat.mul_le_mul hrows hcolumns
  rw [Params.pixbufSize, Nat.mul_assoc]
  omega

/-- A MEMWR at byte `ch` of a pixel in range stores that byte of it. -/
theorem exec_memwr_pixel {s : State} {col row : BitVec 8} (hhalted : s.halted = false)
    (hcol : col.toNat < s.cfg.columns) (hrow : row.toNat < s.cfg.rows) (m : Memory) (ch : Colour) (val : BitVec 8) :
    exec (.memwr (BitVec.ofNat 24 (pixelOffset s.cfg col.toNat row.toNat + ch.index)) val) { s with mem := m }
      = .next { s with mem := m.writeByte (pixelAddr s.cfg col row + ch.index) val } := by
  have hlt := pixelOffset_lt s.cfg ch hcol hrow
  have hoff : (BitVec.ofNat 24 (pixelOffset s.cfg col.toNat row.toNat + ch.index)).toNat
      = pixelOffset s.cfg col.toNat row.toNat + ch.index :=
    (BitVec.toNat_ofNat ..).trans (Nat.mod_eq_of_lt (hlt.trans (pixbufSize_lt s.cfg)))
  rw [exec_of_effective (s := { s with mem := m }) (effective_memwr_iff.2 ⟨hhalted, by rwa [hoff]⟩), effect, windowAddr,
    hoff, pixelAddr, Nat.add_assoc]

theorem encode_memwr (off : BitVec 24) (val : BitVec 8) : encode (.memwr off val) = 0x08#8 ++ 0#24 ++ off ++ val := by
  simp only [encode, Instr.opcode, Instr.operandBits, BitVec.append_assoc, BitVec.cast_eq]

theorem encode_memrd (off : BitVec 24) (val : BitVec 8) : encode (.memrd off val) = 0x09#8 ++ 0#24 ++ off ++ val := by
  simp only [encode, Instr.opcode, Instr.operandBits, BitVec.append_assoc, BitVec.cast_eq]

/-- Settles O20: in range MEMWR is its effect, one byte of PIXBUF; three of them write the bytes of a SETPIX. -/
theorem memwrWritesOneByteOrIsDropped : Obligations.MemwrWritesOneByteOrIsDropped := by
  refine ⟨encode_memwr, fun s off val hhalted hm hoff => ?_, fun s off val hoff => exec_of_not_effective ?_,
    fun s col row r g b hcol hrow => ?_⟩
  · exact ⟨effect (.memwr off val) s, exec_of_effective (effective_memwr_iff.2 ⟨hhalted, hoff⟩), rfl,
      Memory.wf_writeByte hm _ _, Memory.readByte_writeByte_same hm _ _,
      fun x hx => Memory.readByte_writeByte_other hm hx _⟩
  · rw [← Bool.not_eq_true, effective_memwr_iff, Params.pixbufSize]
    omega
  · cases hhalted : s.halted with
    | true =>
      exact ⟨s, s, exec_halted _ hhalted, exec_halted _ hhalted,
        (exec_halted _ hhalted).trans (exec_halted _ hhalted).symm⟩
    | false =>
      have hstore := exec_memwr_pixel hhalted hcol hrow
      have hsetpix := exec_of_effective (effective_setpix_iff (r := r) (g := g) (b := b).2 ⟨hhalted, hcol, hrow⟩)
      exact ⟨_, _, hstore s.mem .red r, hstore _ .green g, (hstore _ .blue b).trans hsetpix.symm⟩

/-- Settles O21: in range MEMRD is its effect, and elsewhere it is not effective. -/
theorem memrdAnswersPixelByteOrIsDropped : Obligations.MemrdAnswersPixelByteOrIsDropped := by
  refine ⟨fun off => encode_memrd off 0#8,
    fun s off hhalted hoff => exec_of_effective (effective_memrd_iff.2 ⟨hhalted, hoff⟩),
    fun s off hoff => exec_of_not_effective ?_⟩
  rw [← Bool.not_eq_true, effective_memrd_iff, Params.pixbufSize]
  omega

/-- Settles O22: MEMRD reads the byte MEMWR stored at its address, and a byte fits RESP. -/
theorem memrdReadsWhatMemwrWrote : Obligations.MemrdReadsWhatMemwrWrote := by
  intro s off val hhalted hm hoff
  refine ⟨_, _, exec_of_effective (effective_memwr_iff.2 ⟨hhalted, hoff⟩),
    exec_of_effective (effective_memrd_iff.2 ⟨hhalted, hoff⟩), ?_⟩
  change ((Memory.readByte (s.mem.writeByte (windowAddr s.cfg off) val) (windowAddr s.cfg off)).setWidth 32).toNat = _
  rw [Memory.readByte_writeByte_same hm]
  exact BitVec.toNat_setWidth_of_le (by decide)

/-! ### GETPIXELS and SHOW (R164, R168, R172) -/

/-- PIXBUF is not empty and lies below 2^32 (spec/00_scope.md R11). -/
theorem pixbufBase_lt (c : Config) : c.pixbufBase < 2 ^ 32 := by
  obtain ⟨hrows, -, hcolumns, -⟩ := c.geometry
  have hsize : 0 < c.pixbufSize := Nat.mul_pos (Nat.mul_pos (by decide) hrows) hcolumns
  have hend := c.below.1
  omega

/-- Settles O19: PIXBUF_BASE fits RESP. -/
theorem getpixelsAnswersPixbufBase : Obligations.GetpixelsAnswersPixbufBase :=
  ⟨by decide, fun s hhalted => ⟨_, execGetpixels_eq hhalted, rfl,
    (BitVec.toNat_ofNat ..).trans (Nat.mod_eq_of_lt (pixbufBase_lt s.cfg))⟩⟩

/-- Settles O24: SHOW is effective exactly when the block is not halted and no publish is encoding. -/
theorem showStartsAPublishOrIsDropped : Obligations.ShowStartsAPublishOrIsDropped :=
  ⟨by decide, fun s => ⟨fun hhalted hidle => exec_of_effective (by simp [effective, hhalted, hidle]),
    fun hbusy => exec_of_not_effective (by simp [effective, hbusy]), exec_halted _⟩⟩

end Sys2Proof.Machine

/-! SUPPORT. The publish (spec/42_pixel_encoder.md R169 to R174): what one ENCSTEP writes, what a SHOW and BUF_SIZE
ENCSTEPs leave, and that the words of a running publish survive the events between them. -/

namespace Sys2Proof.Machine

/-! ### One ENCSTEP (R169, R170) -/

@[simp] theorem advanceEncoder_cfg (s : State) : (advanceEncoder s).cfg = s.cfg := by
  rw [advanceEncoder_frame]

@[simp] theorem advanceEncoder_encBack (s : State) : (advanceEncoder s).encBack = s.encBack := by
  rw [advanceEncoder_frame]

@[simp] theorem advanceEncoder_inputs (s : State) : (advanceEncoder s).inputs = s.inputs := by
  rw [advanceEncoder_frame]

@[simp] theorem advanceEncoder_encPos (s : State) : (advanceEncoder s).encPos = s.encPos + 1#32 := by
  simp only [advanceEncoder]
  split <;> rfl

/-- The last word completes the publish. -/
theorem advanceEncoder_last {s : State} (h : s.encPos.toNat + 1 = s.cfg.bufSize) :
    advanceEncoder s
      = { s with encPos := BitVec.ofNat 32 s.cfg.bufSize, pending := true, encBusy := false } := by
  have hend : s.encPos + 1#32 = BitVec.ofNat 32 s.cfg.bufSize := by
    rw [← h, BitVec.ofNat_add, BitVec.ofNat_toNat, BitVec.setWidth_eq]
  rw [advanceEncoder_eq (by omega), if_pos h, hend]

/-- Every other word leaves the publish running. -/
theorem advanceEncoder_running {s : State} (h : s.encPos.toNat + 1 < s.cfg.bufSize) :
    advanceEncoder s = { s with encPos := s.encPos + 1#32 } := by
  rw [advanceEncoder_eq (by omega), if_neg h.ne]

section EncStep
variable {s : State}

theorem perform_encstep_busy (hbusy : s.encBusy = true) (hpos : s.encPos.toNat < s.cfg.bufSize) :
    perform .encstep s = .next (advanceEncoder (encoderStored s)) := by
  rw [perform_encstep, if_pos hbusy]
  exact encStep_eq hpos

/-- The encoder's store leaves the bytes outside the back buffer as they are. -/
theorem encoderStored_readByte_outside (hm : s.mem.wf = true) (hpos : s.encPos.toNat < s.cfg.bufSize) {a : Nat}
    (ha : inOutbuf s.cfg s.encBack a = false) : (encoderStored s).mem.readByte a = s.mem.readByte a := by
  refine Memory.readByte_writeByte_other hm (fun haddr => ?_) _
  rw [haddr, encoderAddr_in hpos] at ha
  cases ha

/-- PIXBUF is outside the output buffers. -/
theorem inOutbuf_pixbuf (c : Config) (b : BufferId) {o : Nat} (ho : o < c.pixbufSize) :
    inOutbuf c b (c.pixbufBase + o) = false := by
  rw [← Bool.not_eq_true]
  intro hout
  have hpix : Region.pixbuf.has c (c.pixbufBase + o) = true := inRegion_iff.2 (by omega)
  cases Region.eq_of_has (r' := .outbuf b) hpix hout

/-- The encoder reads the same pixels after its store as before. -/
theorem encoderStored_pixels (hm : s.mem.wf = true) (hpos : s.encPos.toNat < s.cfg.bufSize) {o : Nat}
    (ho : o < s.cfg.pixbufSize) : pixels s.cfg (encoderStored s).mem o = pixels s.cfg s.mem o :=
  encoderStored_readByte_outside hm hpos (inOutbuf_pixbuf s.cfg s.encBack ho)

/-- The store adds one word of the present pixels to those encoded so far. -/
theorem encoderStored_words (hm : s.mem.wf = true) (hpos : s.encPos.toNat < s.cfg.bufSize) (h : EncodedSoFar s)
    {pos : Nat} (hle : pos ≤ s.encPos.toNat) :
    (encoderStored s).mem.readByte (outbufBase s.cfg s.encBack + pos)
      = busWord s.cfg (pixels s.cfg (encoderStored s).mem) pos := by
  rw [busWord_congr s.cfg fun o ho => encoderStored_pixels hm hpos ho]
  obtain rfl | hlt := hle.eq_or_lt
  · exact Memory.readByte_writeByte_same hm _ _
  · rw [← h pos hlt]
    exact Memory.readByte_writeByte_other hm (by rw [encoderAddr]; omega) _

/-- An ENCSTEP keeps the property that the words below ENC_POS are those of the present pixels. -/
theorem encodedSoFar_advanceEncoder (hm : s.mem.wf = true) (hpos : s.encPos.toNat < s.cfg.bufSize)
    (h : EncodedSoFar s) : EncodedSoFar (advanceEncoder (encoderStored s)) := by
  intro pos hlt
  simp only [advanceEncoder_encPos, advanceEncoder_mem, advanceEncoder_cfg, advanceEncoder_encBack] at hlt ⊢
  rw [encPos_succ (s := encoderStored s) hpos] at hlt
  exact encoderStored_words hm hpos h (Nat.le_of_lt_succ hlt)

end EncStep

/-- Settles O25: an enabled ENCSTEP stores the encoder's word and moves the encoder on. -/
theorem encstepWritesOneWord : Obligations.EncstepWritesOneWord := by
  refine fun s => ⟨fun hidle => by simp [perform_encstep, hidle], fun hbusy hpos hm =>
    ⟨advanceEncoder (encoderStored s), perform_encstep_busy hbusy hpos, ?_, ?_, ?_, ?_, fun a ha => ?_, fun hback => ?_,
      fun hlast => ?_, fun hmore => ?_⟩⟩
  · rw [advanceEncoder_mem]
    exact advanceEncoder_frame (encoderStored s)
  · rw [advanceEncoder_mem]
    exact Memory.wf_writeByte hm _ _
  · rw [advanceEncoder_encPos]
    exact encPos_succ hpos
  · rw [advanceEncoder_mem]
    exact Memory.readByte_writeByte_same hm _ _
  · rw [advanceEncoder_mem]
    exact Memory.readByte_writeByte_other hm ha _
  · rw [← Bool.not_eq_true]
    exact fun hfront => hback (Region.outbuf.inj
      (Region.eq_of_has (r := .outbuf s.encBack) (r' := .outbuf s.front) (encoderAddr_in hpos) hfront))
  · rw [advanceEncoder_last (s := encoderStored s) hlast]
    exact ⟨rfl, rfl⟩
  · rw [advanceEncoder_running (s := encoderStored s) hmore]
    exact ⟨rfl, hbusy⟩

/-! ### A whole publish (R174) -/

/-- A publish with `left` words to go, whose words so far are those of the present pixels. -/
structure Publishing (s : State) (left : Nat) : Prop where
  wf : s.mem.wf = true
  busy : s.encBusy = true
  words : EncodedSoFar s
  left : s.encPos.toNat + left = s.cfg.bufSize

/-- `t` is `s` with its publish complete: the back buffer holds the words of the pixels and nothing else is touched. -/
structure Published (s t : State) : Prop where
  frame : t = { s with
    mem := t.mem, pending := true, encBusy := false, encPos := BitVec.ofNat 32 s.cfg.bufSize, inputs := [] }
  words : ∀ pos, pos < s.cfg.bufSize →
    t.mem.readByte (outbufBase s.cfg s.encBack + pos) = busWord s.cfg (pixels s.cfg t.mem) pos
  outside : ∀ a, inOutbuf s.cfg s.encBack a = false → t.mem.readByte a = s.mem.readByte a

/-- The events still to come are no matter to the publish. -/
theorem Publishing.withInputs {s : State} {left : Nat} (h : Publishing s left) (inputs : List Event) :
    Publishing { s with inputs := inputs } left := ⟨h.wf, h.busy, h.words, h.left⟩

theorem Published.of_withInputs {s t : State} {inputs : List Event} (h : Published { s with inputs := inputs } t) :
    Published s t := ⟨h.frame, h.words, h.outside⟩

/-- An offered ENCSTEP of a running publish is taken from the list and happens. -/
theorem Publishing.step_eq {s : State} {left : Nat} {rest : List Event} (h : Publishing s (left + 1))
    (hinputs : s.inputs = .encstep :: rest) :
    step s = .next (advanceEncoder (encoderStored { s with inputs := rest })) := by
  have hleft := h.left
  rw [step_cons hinputs]
  exact perform_encstep_busy (s := { s with inputs := rest }) h.busy (by dsimp only; omega)

/-- An ENCSTEP that is not the last leaves one word less to go. -/
theorem Publishing.next {s : State} {left : Nat} (h : Publishing s (left + 2)) :
    Publishing (advanceEncoder (encoderStored s)) (left + 1) := by
  have hleft := h.left
  have hpos : s.encPos.toNat < s.cfg.bufSize := by omega
  have hmore : s.encPos.toNat + 1 < s.cfg.bufSize := by omega
  have hsucc := encPos_succ hpos
  have hwords := encodedSoFar_advanceEncoder h.wf hpos h.words
  rw [advanceEncoder_running (s := encoderStored s) hmore] at hwords ⊢
  refine ⟨Memory.wf_writeByte h.wf _ _, h.busy, hwords, ?_⟩
  change (s.encPos + 1#32).toNat + (left + 1) = s.cfg.bufSize
  omega

/-- The last ENCSTEP completes the publish. -/
theorem Publishing.last {s : State} (h : Publishing s 1) (hinputs : s.inputs = []) :
    Published s (advanceEncoder (encoderStored s)) := by
  have hleft := h.left
  have hpos : s.encPos.toNat < s.cfg.bufSize := by omega
  rw [advanceEncoder_last (s := encoderStored s) hleft]
  refine ⟨?_, fun pos hlt => encoderStored_words h.wf hpos h.words (by omega),
    fun a => encoderStored_readByte_outside h.wf hpos⟩
  rw [← hinputs]
  rfl

/-- A publish is complete when what an ENCSTEP leaves of it is. -/
theorem Publishing.published_of_encstep {s t : State} {left : Nat} (h : Publishing s (left + 1))
    (ht : Published (advanceEncoder (encoderStored s)) t) : Published s t := by
  have hleft := h.left
  rw [advanceEncoder_frame] at ht
  exact ⟨ht.frame, ht.words, fun a ha =>
    (ht.outside a ha).trans (encoderStored_readByte_outside h.wf (by omega) ha)⟩

/-- As many ENCSTEPs as words are to go complete the publish. -/
theorem Publishing.run {s : State} {left : Nat} (h : Publishing s (left + 1))
    (hinputs : s.inputs = List.replicate (left + 1) .encstep) :
    ∃ t, Sys2Proof.core.run (left + 1) s = .next t ∧ Published s t := by
  have hstep := h.step_eq (hinputs.trans List.replicate_succ)
  induction left generalizing s with
  | zero => exact ⟨_, run_succ hstep 0, ((h.withInputs []).last rfl).of_withInputs⟩
  | succ left ih =>
    have hu := h.withInputs (List.replicate (left + 1) .encstep)
    have hinputs' := advanceEncoder_inputs (encoderStored { s with inputs := List.replicate (left + 1) .encstep })
    obtain ⟨t, hrun, ht⟩ := ih hu.next hinputs' (hu.next.step_eq (hinputs'.trans List.replicate_succ))
    exact ⟨t, (run_succ hstep _).trans hrun, (hu.published_of_encstep ht).of_withInputs⟩

/-- Settles O30: after SHOW all BUF_SIZE words are to go, and the pixels stay as SHOW found them. -/
theorem wholePublishIsEncodeOfThePixels : Obligations.WholePublishIsEncodeOfThePixels := by
  intro s hhalted hidle hm hinputs
  obtain ⟨left, hsize⟩ := Nat.exists_eq_add_one.2 (bufSize_pos s.cfg)
  have hshow := stepRunsDecodedCommand s _ _ .showStart hinputs (decodeOfEncodeIsTheCommand .showStart rfl)
  rw [exec_of_effective (by simp [effective, hhalted, hidle])] at hshow
  have hstart : Publishing (effect .showStart { s with inputs := List.replicate s.cfg.bufSize .encstep }) (left + 1) :=
    ⟨hm, rfl, fun pos hpos => absurd hpos (Nat.not_lt_zero pos), (Nat.zero_add _).trans hsize.symm⟩
  obtain ⟨t, hrun, ht⟩ := hstart.run (congrArg (List.replicate · _) hsize)
  rw [← hsize] at hrun
  refine ⟨t, (run_succ hshow _).trans hrun, ht.frame, fun pos hpos => (ht.words pos hpos).trans ?_, ht.outside⟩
  exact busWord_congr s.cfg (fun o ho => ht.outside _ (inOutbuf_pixbuf s.cfg s.front.other ho)) pos

/-! ### Events between the ENCSTEPs (R171, R174) -/

/-- The encoder's own registers are the same. -/
def SameEncoder (s t : State) : Prop := t.encBusy = s.encBusy ∧ t.encPos = s.encPos ∧ t.encBack = s.encBack

theorem effect_sameEncoder {i : Instr} (hshow : i ≠ .showStart) (s : State) : SameEncoder s (effect i s) := by
  cases i with
  | showStart => exact absurd rfl hshow
  | begin => cases hres : s.cfg.resOk <;> simp [effect, hres, SameEncoder, startScan]
  | refresh => simp [effect, SameEncoder]
  | _ => exact ⟨rfl, rfl, rfl⟩

/-- Only the commands that write pixels may write PIXBUF. -/
theorem pixbuf_notMem_writtenRegions {w : CommandWord} {i : Instr} (hdec : decode w = .ok i)
    (h : carriesPixelWrite w = false) : .pixbuf ∉ writtenRegions i := by
  cases i <;> simp [carriesPixelWrite, hdec, writtenRegions] at h ⊢

/-- The publish running in `s` goes on in `t`, or is complete there. -/
def PublishKept (s t : State) : Prop :=
  t.encBack = s.encBack
    ∧ (∀ o, o < s.cfg.pixbufSize → pixels t.cfg t.mem o = pixels s.cfg s.mem o)
    ∧ EncodedSoFar t
    ∧ (t.encBusy = false → t.pending = true ∧ t.encPos.toNat = t.cfg.bufSize)

section Kept
variable {s t : State}

/-- A publish goes on where nothing it rests on is touched: the encoder's registers, PIXBUF and the back buffer. -/
theorem PublishKept.of_same (h : Inv s) (hbusy : s.encBusy = true) (hwords : EncodedSoFar s) (hcfg : t.cfg = s.cfg)
    (henc : SameEncoder s t)
    (hread : ∀ (r : Region) (a : Nat), r = .pixbuf ∨ r = .outbuf s.encBack → r.has s.cfg a = true →
      t.mem.readByte a = s.mem.readByte a) :
    PublishKept s t := by
  obtain ⟨hbusy', hpos', hback⟩ := henc
  have hpix : ∀ o, o < s.cfg.pixbufSize → pixels s.cfg t.mem o = pixels s.cfg s.mem o := fun o ho =>
    hread .pixbuf _ (.inl rfl) (inRegion_iff.2 (by omega))
  refine ⟨hback, by rwa [hcfg], fun pos hpos => ?_, fun hidle => by simp [hbusy', hbusy] at hidle⟩
  rw [hpos'] at hpos
  obtain ⟨-, hlt⟩ := h.encoder.2 hbusy
  rw [hcfg, hback, hread (.outbuf s.encBack) _ (.inr rfl) (inRegion_iff.2 (by omega)), hwords pos hpos,
    busWord_congr s.cfg hpix]

theorem PublishKept.encstep (hm : s.mem.wf = true) (hpos : s.encPos.toNat < s.cfg.bufSize) (hbusy : s.encBusy = true)
    (hwords : EncodedSoFar s) : PublishKept s (advanceEncoder (encoderStored s)) := by
  refine ⟨advanceEncoder_encBack _, fun o ho => ?_, encodedSoFar_advanceEncoder hm hpos hwords, fun hidle => ?_⟩
  · rw [advanceEncoder_cfg, advanceEncoder_mem]
    exact encoderStored_pixels hm hpos ho
  · obtain hlast | hmore := (Nat.succ_le_of_lt hpos).eq_or_lt
    · have hsucc := encPos_succ (s := encoderStored s) hpos
      rw [advanceEncoder_encPos, advanceEncoder_cfg, advanceEncoder_last (s := encoderStored s) hlast]
      exact ⟨rfl, hsucc.trans hlast⟩
    · rw [advanceEncoder_running (s := encoderStored s) hmore] at hidle
      exact absurd hidle (by simp [encoderStored, hbusy])

end Kept

/-- No event but RESET and the pixel writes disturbs a running publish: a SHOW is dropped while it runs, the other
commands and a TICK reach neither PIXBUF nor the output buffers, and an ENCSTEP adds a word. -/
theorem Happens.publishKept {e : Option Event} {s t : State} (hap : Happens s e t) (h : Inv s)
    (hbusy : s.encBusy = true) (hwords : EncodedSoFar s) (hreset : e ≠ some .reset)
    (hpixels : ∀ w, e = some (.command w) → carriesPixelWrite w = false) : PublishKept s t := by
  cases hap with
  | nothing => exact .of_same h hbusy hwords rfl ⟨rfl, rfl, rfl⟩ fun _ _ _ _ => rfl
  | @command w i hdec heff =>
    have hshow : i ≠ .showStart := by
      rintro rfl
      simp [effective, hbusy] at heff
    refine .of_same h hbusy hwords (effect_sameOffers i s).1 (effect_sameEncoder hshow s) fun r a hr ha => ?_
    refine effect_readByte_other h.memory.1 heff ?_ ha
    obtain rfl | rfl := hr
    · exact pixbuf_notMem_writtenRegions hdec (hpixels w rfl)
    · exact outbuf_notMem_writtenRegions i s.encBack
  | tick hrun hu =>
    obtain ⟨-, -, hframe⟩ := afterSlot_frame hu
    rw [hframe]
    exact .of_same h hbusy hwords rfl ⟨rfl, rfl, rfl⟩ fun _ _ _ _ => rfl
  | encstep _ hpos => exact .encstep h.memory.1 hpos hbusy hwords
  | reset => exact absurd rfl hreset

/-- Settles O31: the event of the step keeps the publish. -/
theorem encodedPrefixSurvivesInterleaving : Obligations.EncodedPrefixSurvivesInterleaving := by
  intro s t e rest h hbusy hwords hinputs hreset hpixels hstep
  have hap := happens_of_step hstep
  rw [hinputs] at hap
  exact hap.publishKept (h.withInputs _) hbusy hwords (by simpa using hreset)
    fun w hw => by rwa [Option.some.inj hw] at hpixels

end Sys2Proof.Machine

/-! SUPPORT. What ENCODE shows (spec/42_pixel_encoder.md R175, R176): the light of a page cycle, the words of black and
of white pixels, and what a word depends on. -/

namespace Sys2Proof.Machine

/-! ### The drive codes at both ends (spec/00_scope.md R10) -/

theorem driveCode_zero (c : Config) : driveCode c 0#8 = 0 := by
  obtain ⟨-, -, -, -, hfirst, -⟩ := c.dither
  rw [driveCode, List.getD_eq_getElem?_getD]
  exact congrArg (Option.getD · 0) hfirst

theorem driveCode_last (c : Config) : driveCode c 255#8 = 2 ^ c.bitDepth - 1 := by
  obtain ⟨-, -, -, -, -, hlast, -⟩ := c.dither
  rw [driveCode, List.getD_eq_getElem?_getD]
  exact congrArg (Option.getD · 0) hlast

/-- hi(D) and lo(D) are the digits of the drive code. -/
theorem driveHi_mul_add_driveLo (c : Config) (v : Byte) :
    driveHi c v * 2 ^ c.pwmBits + driveLo c v = driveCode c v := by
  rw [driveHi, driveLo, Nat.shiftRight_eq_div_pow]
  exact Nat.div_add_mod' _ _

theorem driveHi_lt_pages (c : Config) (v : Byte) : driveHi c v < c.pages := by
  have hlt := driveCode_lt c v
  rw [Params.bitDepth, Nat.add_comm, Nat.pow_add] at hlt
  rw [driveHi, Nat.shiftRight_eq_div_pow]
  exact (Nat.div_lt_iff_lt_mul (Nat.two_pow_pos _)).2 hlt

/-- At intensity 0 both digits are 0. -/
theorem drive_zero (c : Config) : driveHi c 0#8 = 0 ∧ driveLo c 0#8 = 0 := by
  simp [driveHi, driveLo, driveCode_zero]

/-- At intensity 255 both digits are the largest. -/
theorem drive_last (c : Config) : driveHi c 255#8 = c.pages - 1 ∧ driveLo c 255#8 = 2 ^ c.pwmBits - 1 := by
  have hcode : driveCode c 255#8 = (c.pages - 1) * 2 ^ c.pwmBits + (2 ^ c.pwmBits - 1) := by
    have hpages := c.pages_pos
    have hpow := Nat.two_pow_pos c.pwmBits
    rw [driveCode_last, Params.bitDepth, Nat.add_comm, Nat.pow_add, ← Params.pages, Nat.sub_one_mul]
    have hle : 2 ^ c.pwmBits ≤ c.pages * 2 ^ c.pwmBits := Nat.le_mul_of_pos_left _ hpages
    omega
  rw [driveHi, driveLo, Nat.shiftRight_eq_div_pow, hcode]
  exact digits_div_mod (Nat.sub_one_lt (Nat.two_pow_pos _).ne')

/-! ### The light of a page cycle (R176) -/

/-- The value a page of rank `rank` shows for the drive code with the digits `hi` and `lo`. -/
def rankValue (top hi lo rank : Nat) : Nat := if rank < hi then top else if rank = hi then lo else 0

theorem pageValue_eq_rankValue (c : Config) (v : Byte) (p : Nat) :
    pageValue c v p = rankValue (2 ^ c.pwmBits - 1) (driveHi c v) (driveLo c v) (pageRank c p) := rfl

/-- Over the ranks 0 to n − 1 those below `hi` show `top` and the one at `hi` shows `lo`. -/
theorem sum_rankValue (top hi lo n : Nat) :
    ((List.range n).map (rankValue top hi lo)).sum = min n hi * top + if hi < n then lo else 0 := by
  induction n with
  | zero => simp
  | succ n ih =>
    rw [List.range_succ, List.map_append, List.sum_append, ih, List.map_singleton, List.sum_singleton, rankValue]
    obtain hlt | rfl | hgt := Nat.lt_trichotomy n hi
    · rw [if_neg hlt.not_gt, if_pos hlt, if_neg (by omega), Nat.min_eq_left hlt.le, Nat.min_eq_left hlt, Nat.succ_mul]
      omega
    · simp
    · rw [if_pos hgt, if_neg (by omega), if_neg (by omega), if_pos (by omega), Nat.min_eq_right hgt.le,
        Nat.min_eq_right (by omega)]
      rfl

/-- The ranks of the pages are the numbers below PAGES, in some order. -/
theorem map_pageRank_perm (c : Config) : ((List.range c.pages).map (pageRank c)).Perm (List.range c.pages) := by
  obtain ⟨hlen, hnodup, hlt, -⟩ := c.dither
  have hmap : (List.range c.pages).map (pageRank c) = c.pageRanks := by
    refine List.ext_getElem (by simp [hlen]) fun p hp hp' => ?_
    simp [pageRank, hp']
  rw [hmap]
  exact (hnodup.subperm fun rank h => List.mem_range.2 (hlt rank h)).perm_of_length_le (by simp [hlen])

/-- The values a page cycle shows for an intensity, in sum. -/
def cycleLight (c : Config) (v : Byte) : Nat := ((List.range c.pages).map (pageValue c v)).sum

theorem cycleLight_eq (c : Config) (v : Byte) :
    cycleLight c v = driveHi c v * (2 ^ c.pwmBits - 1) + driveLo c v := by
  have hhi := driveHi_lt_pages c v
  have hranks : pageValue c v = rankValue (2 ^ c.pwmBits - 1) (driveHi c v) (driveLo c v) ∘ pageRank c :=
    funext (pageValue_eq_rankValue c v)
  rw [cycleLight, hranks, ← List.map_map, ((map_pageRank_perm c).map _).sum_eq, sum_rankValue,
    Nat.min_eq_right hhi.le, if_pos hhi]

/-- The light falls short of the drive code by hi(D). -/
theorem cycleLight_add_driveHi (c : Config) (v : Byte) : cycleLight c v + driveHi c v = driveCode c v := by
  have hle : driveHi c v ≤ driveHi c v * 2 ^ c.pwmBits := Nat.le_mul_of_pos_right _ (Nat.two_pow_pos _)
  rw [cycleLight_eq, ← driveHi_mul_add_driveLo, Nat.mul_sub_one]
  omega

theorem cycleLight_mono (c : Config) {v v' : Byte} (h : driveCode c v ≤ driveCode c v') :
    cycleLight c v ≤ cycleLight c v' := by
  have hpow := Nat.two_pow_pos c.pwmBits
  have hhi : driveHi c v' ≤ driveHi c v + (driveCode c v' - driveCode c v) := by
    simp only [driveHi, Nat.shiftRight_eq_div_pow]
    rw [← Nat.add_mul_div_left _ _ hpow]
    have hle := Nat.le_mul_of_pos_left (driveCode c v' - driveCode c v) hpow
    exact Nat.div_le_div_right (by omega)
  have hlight := cycleLight_add_driveHi c v
  have hlight' := cycleLight_add_driveHi c v'
  omega

/-- Settles O28: the sum over the pages is the sum over the ranks. -/
theorem pageCycleShowsTheDriveCode : Obligations.PageCycleShowsTheDriveCode := by
  refine fun c => ⟨fun v => ⟨cycleLight_eq c v, cycleLight_add_driveHi c v⟩, fun v v' => cycleLight_mono c, ?_, ?_⟩
  · refine (cycleLight_eq c 0#8).trans ?_
    simp [drive_zero c]
  · refine (cycleLight_eq c 255#8).trans ?_
    have hpages := c.pages_pos
    rw [(drive_last c).1, (drive_last c).2, ← Nat.succ_mul]
    congr 1
    omega

/-! ### What a lane shows (R175) -/

theorem pbit_zero (c : Config) (p i : Nat) : pbit c 0#8 p i = false := by
  obtain ⟨hhi, hlo⟩ := drive_zero c
  obtain hrank | hrank := Nat.eq_zero_or_pos (pageRank c p)
  · rw [pbit_of_rank_eq (hrank.trans hhi.symm), hlo, Nat.zero_testBit]
  · exact pbit_of_rank_gt (by rwa [hhi])

theorem pbit_last (c : Config) {p i : Nat} (hp : p < c.pages) (hi : i < c.pwmBits) : pbit c 255#8 p i = true := by
  obtain ⟨hhi, hlo⟩ := drive_last c
  obtain hrank | hrank := (Nat.le_sub_one_of_lt (pageRank_lt c hp)).lt_or_eq
  · exact pbit_of_rank_lt (by rwa [hhi])
  · rw [pbit_of_rank_eq (hrank.trans hhi.symm), hlo, Nat.testBit_two_pow_sub_one]
    exact decide_eq_true hi

section Lane
variable {c : Config} {pix pix' : Nat → Byte} {pos pos' l : Nat}

theorem wordLane_pad (h : laneOf c (posWord c pos / c.clkPhases) l = .pad) : wordLane c pix pos l = false := by
  rw [wordLane, h, laneBit]

theorem wordLane_led {col : Nat} {ch : Colour} (h : laneOf c (posWord c pos / c.clkPhases) l = .led col ch) :
    wordLane c pix pos l
      = pbit c (pix (pixelOffset c col (posRow c pos) + ch.index)) (posPage c pos) (posPlane c pos) := by
  rw [wordLane, h, laneBit]

/-- A lane shows a byte of PIXBUF that belongs to the row of the word. -/
theorem lane_offset {col : Nat} {ch : Colour} (h : laneOf c (posWord c pos / c.clkPhases) l = .led col ch) :
    pixelOffset c col (posRow c pos) + ch.index < c.pixbufSize
      ∧ (pixelOffset c col (posRow c pos) + ch.index) / (3 * c.columns) = posRow c pos := by
  have hcol := c.lane_col_lt h
  have hindex : ch.index < 3 := by cases ch <;> decide
  have hsplit : pixelOffset c col (posRow c pos) + ch.index
      = posRow c pos * (3 * c.columns) + (3 * col + ch.index) := by
    simp only [pixelOffset]
    ring
  refine ⟨pixelOffset_lt c ch hcol (posRow_lt c pos), ?_⟩
  rw [hsplit]
  exact (digits_div_mod (by omega)).1

/-- A lane depends on the pixels of its row only. -/
theorem wordLane_congr_row (h : ∀ o, o < c.pixbufSize → o / (3 * c.columns) = posRow c pos → pix o = pix' o) :
    wordLane c pix pos l = wordLane c pix' pos l := by
  cases hl : laneOf c (posWord c pos / c.clkPhases) l with
  | pad => rw [wordLane_pad hl, wordLane_pad hl]
  | led col ch =>
    obtain ⟨hin, hrow⟩ := lane_offset hl
    rw [wordLane_led hl, wordLane_led hl, h _ hin hrow]

/-- The lanes of a word are those of its shift step. -/
theorem wordLane_congr_step (hpage : posPage c pos = posPage c pos') (hslot : posSlot c pos = posSlot c pos')
    (hstep : posWord c pos / c.clkPhases = posWord c pos' / c.clkPhases) :
    wordLane c pix pos l = wordLane c pix pos' l := by
  simp only [wordLane, posRow, posPlane, hpage, hslot, hstep]

theorem wordLane_black (h : ∀ o, o < c.pixbufSize → pix o = 0#8) : wordLane c pix pos l = false := by
  cases hl : laneOf c (posWord c pos / c.clkPhases) l with
  | pad => exact wordLane_pad hl
  | led col ch => rw [wordLane_led hl, h _ (lane_offset hl).1, pbit_zero]

theorem wordLane_white (h : ∀ o, o < c.pixbufSize → pix o = 255#8) (hpos : pos < c.bufSize)
    (hpad : laneOf c (posWord c pos / c.clkPhases) l ≠ .pad) : wordLane c pix pos l = true := by
  cases hl : laneOf c (posWord c pos / c.clkPhases) l with
  | pad => exact absurd hl hpad
  | led col ch =>
    rw [wordLane_led hl, h _ (lane_offset hl).1]
    exact pbit_last c (posPage_lt c hpos) (posPlane_lt c pos)

end Lane

/-! ### What a word depends on (R175) -/

theorem bitsPerWrite_lt (c : Config) : c.bitsPerWrite < 8 := by
  have := c.geometry
  omega

theorem lanesValue_false (n : Nat) : lanesValue (fun _ => false) n = 0 := by
  refine Nat.eq_of_testBit_eq fun j => ?_
  simp [lanesValue_testBit]

/-- A word of black pixels holds the clock bit only. -/
theorem busWord_black {c : Config} {pix : Nat → Byte} (h : ∀ o, o < c.pixbufSize → pix o = 0#8) (pos : Nat) :
    (busWord c pix pos).toNat = if posWord c pos % c.clkPhases = c.clkPhases - 1 then 2 ^ c.bitsPerWrite else 0 := by
  have hlanes : wordLane c pix pos = fun _ => false := funext fun l => wordLane_black h
  have hpow : 2 ^ c.bitsPerWrite < 2 ^ 8 := Nat.pow_lt_pow_right (by decide) (bitsPerWrite_lt c)
  rw [busWord_eq, hlanes, lanesValue_false, Nat.zero_or, BitVec.toNat_ofNat, Nat.shiftLeft_eq, clockBit]
  split
  · rename_i hclock
    simpa [hclock] using hpow
  · rename_i hclock
    simp [hclock]

/-- Settles O29: each property is that of the lanes of the word. -/
theorem encodeProperties : Obligations.EncodeProperties := by
  intro c
  refine ⟨fun pix h pos _ => busWord_black h pos, fun pix h pos l hpos hl hpad => ?_, ?_, ?_, ?_⟩
  · have hwidth := bitsPerWrite_lt c
    rw [busWord_getLsbD c pix pos l (by omega), if_pos hl, wordLane_white h hpos hpad]
  · rintro s s' rfl hcfg hpos h
    rw [encoderWord, encoderWord, hcfg, hpos]
    exact busWord_congr s.cfg h _
  · intro pix pix' row h pos _ hrow
    have hlanes : wordLane c pix pos = wordLane c pix' pos := funext fun l =>
      wordLane_congr_row fun o ho ho' => h o ho (ho'.trans_ne hrow)
    rw [busWord_eq, busWord_eq, hlanes]
  · intro pix pos pos' l hpage hslot hstep hl
    by_cases h8 : l < 8
    · rw [busWord_getLsbD c pix pos l h8, busWord_getLsbD c pix pos' l h8, wordLane_congr_step hpage hslot hstep]
      simp [hl]
    · rw [BitVec.getLsbD_of_ge _ _ (by omega), BitVec.getLsbD_of_ge _ _ (by omega)]

end Sys2Proof.Machine

/-! SUPPORT. BEGIN, ARM and REFRESH (spec/43_scan_controller.md R191 to R195, R204, R205): the tables BEGIN builds, the
numbers ARM loads, and when the two commands are dropped. -/

namespace Sys2Proof.Machine

/-! ### BEGIN (R191 to R193) -/

theorem effective_begin_iff {s : State} : effective .begin s = true ↔ s.halted = false ∧ s.started = false := by
  simp [effective]

theorem exec_begin_starts {s : State} (hstarted : s.started = false) (hhalted : s.halted = false)
    (hres : s.cfg.resOk = true) : exec .begin s = .next (startScan (builtTables s) s) := by
  rw [exec_of_effective (effective_begin_iff.2 ⟨hhalted, hstarted⟩), effect, if_pos hres]

theorem wf_builtTables {s : State} (hm : s.mem.wf = true) : (builtTables s).wf = true :=
  wf_writeCells (wf_writeCells hm _) _

/-- BEGIN writes ADDRTAB and TMRTAB and nothing else. -/
theorem readByte_builtTables_other {s : State} (hm : s.mem.wf = true) {a : Nat} (haddr : inAddrtab s.cfg a = false)
    (htmr : inTmrtab s.cfg a = false) : (builtTables s).readByte a = s.mem.readByte a := by
  rw [inAddrtab, ← Bool.not_eq_true, inRegion_iff] at haddr
  rw [inTmrtab, ← Bool.not_eq_true, inRegion_iff] at htmr
  rw [builtTables, readByte_buildTmr_other (wf_writeCells hm _) (by omega), readByte_buildAddr_other hm (by omega)]

theorem slot_startScan (m : Memory) (s : State) : (startScan m s).slot = 0 :=
  slot_of_scanDesc (s := startScan m s) (scanDesc_zero s.cfg .buf0 0 .addr).symm (Nat.zero_le _)

/-- Settles O33: the state BEGIN leaves is `startScan` over the memory with both tables built. -/
theorem beginBuildsArmsAndStarts : Obligations.BeginBuildsArmsAndStarts := by
  refine ⟨by decide, fun s hstarted hhalted hres hm => ⟨_, exec_begin_starts hstarted hhalted hres, rfl,
    slot_startScan _ s, wf_builtTables hm, fun k hk => ?_, fun a => readByte_builtTables_other hm⟩⟩
  obtain ⟨haddr, htmr⟩ := tablesBuilt_begin hm
  obtain ⟨hperiod, hduty⟩ := htmr k hk
  exact ⟨haddr.toNat_readByte hk, (congrArg BitVec.toNat hperiod).trans (ofNat_toNat (periodEntry_le s.cfg k)), hduty⟩

/-- Settles O35: BEGIN is effective, and its effect without resources is to raise HALT. -/
theorem beginWithoutResourcesHalts : Obligations.BeginWithoutResourcesHalts := by
  intro s hstarted hhalted hres
  rw [exec_of_effective (effective_begin_iff.2 ⟨hhalted, hstarted⟩), effect, if_neg (by simp [hres])]
  rfl

/-- Settles O36: BEGIN is not effective once the scan is started. -/
theorem beginIsOneTime : Obligations.BeginIsOneTime := fun _ hstarted =>
  exec_of_not_effective (by simp [effective, hstarted])

/-! ### ARM (R195) -/

theorem toNat_ofNat_word {n : Nat} (h : n < 2 ^ 32) : (BitVec.ofNat 32 n).toNat = n :=
  (BitVec.toNat_ofNat ..).trans (Nat.mod_eq_of_lt h)

/-- The words of a page's first chunk have 32-bit addresses, so the pixel channels' SRC does not wrap. -/
theorem pageBase_add_lt (c : Config) (b : BufferId) {p w : Nat} (hp : p < c.pages) (hw : w < c.writesPerColumn) :
    pageBase c b p + w < 2 ^ 32 := by
  simpa [chunkAddr] using chunkAddr_lt c b hp c.nSlots_pos hw

/-- The addresses of the table's SRC row. -/
theorem armedDesc_src (c : Config) (b : BufferId) {p : Nat} (hp : p < c.pages) :
    (armedDesc c b p .addr).src.toNat = c.addrtabBase ∧ (armedDesc c b p .pix0).src.toNat = pageBase c b p
      ∧ (armedDesc c b p .pix1).src.toNat = pageBase c b p + c.half
      ∧ (armedDesc c b p .tmr).src.toNat = c.tmrtabBase := by
  obtain ⟨-, haddr, htmr, -, -⟩ := c.below
  have hlen := c.tableLen_eq
  have hw := c.writesPerColumn_eq
  exact ⟨toNat_ofNat_word (by omega), toNat_ofNat_word (pageBase_add_lt c b (w := 0) hp (by omega)),
    toNat_ofNat_word (pageBase_add_lt c b hp (by omega)), toNat_ofNat_word (by omega)⟩

/-- Settles O32: every number of the table fits its field. -/
theorem armLoadsTheDescriptorTable : Obligations.ArmLoadsTheDescriptorTable := by
  intro s b p hp
  obtain ⟨-, -, -, -, -, -, -, -, -, -, -, hlen, hhalf⟩ := s.cfg.geometry
  have hslots : s.cfg.nSlots ≤ 65535 := by have := s.cfg.tableLen_eq; omega
  have hnelem := ofNat_toNat hhalf
  have hpass := ofNat_toNat hslots
  have htable := ofNat_toNat hlen
  exact ⟨rfl, armedDesc_src s.cfg b hp, ⟨rfl, rfl, rfl, rfl⟩, ⟨rfl, rfl, rfl, rfl⟩, ⟨rfl, hnelem, hnelem, rfl⟩,
    ⟨rfl, hnelem, hnelem, rfl⟩, ⟨htable, hpass, hpass, htable⟩, ⟨htable, hpass, hpass, htable⟩, ⟨rfl, rfl, rfl, rfl⟩,
    ⟨rfl, rfl, rfl, rfl⟩, fun ch => by cases ch <;> exact ⟨rfl, rfl⟩⟩

/-! ### REFRESH (R204, R205) -/

theorem effective_refresh_iff {s : State} :
    effective .refresh s = true ↔ s.halted = false ∧ s.scanState = .waitRefresh := by
  simp [effective]

/-- Settles O37: REFRESH is effective, and the swap check is one update of FRONT and PENDING. -/
theorem refreshSwapsRearmsAndResumes : Obligations.RefreshSwapsRearmsAndResumes := by
  refine ⟨by decide, fun s hhalted hwait => ?_⟩
  rw [exec_of_effective (effective_refresh_iff.2 ⟨hhalted, hwait⟩), effect, swapIfPending_eq]
  rfl

/-- Settles O38: REFRESH is effective in WAIT_REFRESH only. -/
theorem refreshAtAnyOtherTimeIsDropped : Obligations.RefreshAtAnyOtherTimeIsDropped := fun _ hscan =>
  exec_of_not_effective (by simp [effective, hscan])

end Sys2Proof.Machine

/-! SUPPORT. The TICK (spec/43_scan_controller.md R200 to R202): what it leaves in a data slot, in the sentinel slot and
while the scan waits. -/

namespace Sys2Proof.Machine

/-! ### When a TICK scans a slot -/

/-- The timer of a started scan runs (spec/43_scan_controller.md R191). -/
theorem Inv.running {s : State} (h : Inv s) (hscan : s.scanState ≠ .stopped) :
    s.started = true ∧ s.timerRun = true := by
  obtain ⟨-, -, hstart, htimer, -⟩ := h.flags
  have hstarted := hstart.2 hscan
  exact ⟨hstarted, htimer.trans hstarted⟩

theorem perform_tick_run {s u : State} (h : Inv s) (hrun : s.scanState = .run) (hu : scanSlot s.slot s = .ok u) :
    perform .tick s = .next (afterSlot u) := by
  obtain ⟨-, htimer⟩ := h.running (by simp [hrun])
  simp [perform_tick, tick, htimer, hrun, hu, afterSlot]

/-- Settles O41: a TICK scans a slot in RUN only. -/
theorem tickWhileWaitingChangesNothing : Obligations.TickWhileWaitingChangesNothing := by
  intro s hwait
  have htick : tick s = .next s := by simp [tick, hwait]
  rw [perform_tick, htick, ite_self]

/-! ### A data slot (R200) -/

/-- The entries of a built AddressTable have ADDR_WIDTH bits, so ROWSEL takes them whole. -/
theorem rowsel_eq_readByte {c : Config} {m : Memory} (h : AddrTableBuilt c m) {k : Nat} (hk : k < c.tableLen) :
    BitVec.ofNat 8 ((m.readByte (c.addrtabBase + k)).toNat % 2 ^ c.addrWidth) = m.readByte (c.addrtabBase + k) :=
  BitVec.eq_of_toNat_eq ((rowsel_of_table h hk).trans (h.toNat_readByte hk).symm)

/-- The state after the TICK of data slot `k`; `perform_tick_data` ties it to the event. -/
def dataSlotState (k : Nat) (s : State) : State :=
  { s with
    rowsel := s.mem.readByte (s.cfg.addrtabBase + k)
    period := s.mem.readHalf (s.cfg.tmrtabBase + 4 * k)
    duty := s.mem.readHalf (s.cfg.tmrtabBase + 4 * k + 2)
    pixbus := s.mem.readByte (chunkAddr s.cfg s.front s.page k (s.cfg.writesPerColumn - 1))
    portLog := s.portLog ++ slotLog s.cfg s.mem s.front s.page k
    descAddr := scanDesc s.cfg s.front s.page (k + 1) .addr
    descPix0 := scanDesc s.cfg s.front s.page (k + 1) .pix0
    descPix1 := scanDesc s.cfg s.front s.page (k + 1) .pix1
    descTmr := scanDesc s.cfg s.front s.page (k + 1) .tmr }

theorem perform_tick_data {s : State} (h : Inv s) (hrun : s.scanState = .run) (hk : s.slot < s.cfg.nSlots) :
    perform .tick s = .next (dataSlotState s.slot s) := by
  have hscan : s.scanState ≠ .stopped := by simp [hrun]
  have hlen := s.cfg.tableLen_eq
  obtain ⟨-, -, -, -, hpage⟩ := h.registers
  have hrow := rowsel_eq_readByte (h.addrTableBuilt (h.running hscan).1) (k := s.slot) (by omega)
  have hu := scanSlot_data (h.atSlot hscan) hpage hk
  rw [hrow] at hu
  have hmore : ¬ s.cfg.tableLen ≤ s.slot + 1 := by omega
  rw [perform_tick_run h hrun hu, afterSlot, if_neg (by simpa [scanDesc] using hmore)]
  rfl

theorem slot_dataSlotState {k : Nat} {s : State} (hk : k < s.cfg.nSlots) : (dataSlotState k s).slot = k + 1 :=
  slot_of_scanDesc (s := dataSlotState k s) (k := k + 1) rfl (Nat.succ_le_succ hk.le)

/-- Settles O39: `dataSlotState` is the state R200 describes. -/
theorem tickMovesOneDataSlot : Obligations.TickMovesOneDataSlot := by
  rintro s _ h hrun rfl hk
  exact ⟨_, perform_tick_data h hrun hk, rfl, slot_dataSlotState hk⟩

/-! ### The sentinel slot (R201) -/

theorem addrEntry_sentinel (c : Config) : addrEntry c c.nSlots = c.idleCode := if_neg (Nat.lt_irrefl _)

/-- What the tables hold for the sentinel slot: IDLE_CODE and the pair (SENTINEL_PERIOD, 0). -/
theorem Inv.sentinelEntries {s : State} (h : Inv s) (hstarted : s.started = true) :
    s.mem.readByte (s.cfg.addrtabBase + s.cfg.nSlots) = BitVec.ofNat 8 s.cfg.idleCode
      ∧ s.mem.readHalf (s.cfg.tmrtabBase + 4 * s.cfg.nSlots) = BitVec.ofNat 16 s.cfg.sentinelPeriod
      ∧ s.mem.readHalf (s.cfg.tmrtabBase + 4 * s.cfg.nSlots + 2) = 0#16 := by
  have hk : s.cfg.nSlots < s.cfg.tableLen := Nat.lt_succ_self _
  have haddr := h.addrTableBuilt hstarted _ hk
  obtain ⟨hperiod, hduty⟩ := h.tmrTableBuilt hstarted _ hk
  rw [addrEntry_sentinel] at haddr
  rw [periodEntry_sentinel] at hperiod
  rw [dutyEntry_sentinel] at hduty
  exact ⟨haddr, hperiod, hduty⟩

/-- The state after the TICK of the sentinel slot; `perform_tick_sentinel` ties it to the event. -/
def sentinelSlotState (s : State) : State :=
  { s with
    rowsel := s.mem.readByte (s.cfg.addrtabBase + s.cfg.nSlots)
    period := s.mem.readHalf (s.cfg.tmrtabBase + 4 * s.cfg.nSlots)
    duty := s.mem.readHalf (s.cfg.tmrtabBase + 4 * s.cfg.nSlots + 2)
    portLog := s.portLog ++ slotLog s.cfg s.mem s.front s.page s.cfg.nSlots
    irq := true
    scanState := .waitRefresh
    descAddr := scanDesc s.cfg s.front s.page s.cfg.tableLen .addr
    descTmr := scanDesc s.cfg s.front s.page s.cfg.tableLen .tmr }

theorem perform_tick_sentinel {s : State} (h : Inv s) (hrun : s.scanState = .run) (hk : s.slot = s.cfg.nSlots) :
    perform .tick s = .next (sentinelSlotState s) := by
  have hscan : s.scanState ≠ .stopped := by simp [hrun]
  have hat := h.atSlot hscan
  rw [hk] at hat
  have hrow := rowsel_eq_readByte (h.addrTableBuilt (h.running hscan).1) (Nat.lt_succ_self s.cfg.nSlots)
  have hu := scanSlot_sentinel hat
  rw [hrow] at hu
  rw [perform_tick_run h hrun ((congrArg (scanSlot · s) hk).trans hu), afterSlot, if_pos (by simp [scanDesc])]
  rfl

theorem slot_sentinelSlotState (s : State) : (sentinelSlotState s).slot = s.cfg.tableLen :=
  slot_of_scanDesc (s := sentinelSlotState s) rfl (Nat.le_refl _)

/-- Past its table or its page a channel is disabled and done, with no minor loop to go. -/
theorem scanDesc_tableLen (c : Config) (b : BufferId) (p : Nat) (ch : Chan) :
    (scanDesc c b p c.tableLen ch).count = 0#16 ∧ (scanDesc c b p c.tableLen ch).en = false
      ∧ (scanDesc c b p c.tableLen ch).done = true := by
  have hlen := c.tableLen_eq
  cases ch <;> simp [scanDesc, hlen]

theorem desc_sentinelSlotState {s : State} (hat : AtSlot s s.front s.page s.cfg.nSlots) (ch : Chan) :
    (sentinelSlotState s).desc ch = scanDesc s.cfg s.front s.page s.cfg.tableLen ch := by
  cases ch with
  | addr => rfl
  | tmr => rfl
  | pix0 => exact hat.pix0.trans (scanDesc_pix_past _ _ _ (.inl rfl)).symm
  | pix1 => exact hat.pix1.trans (scanDesc_pix_past _ _ _ (.inr rfl)).symm

/-- Through a byte a row-select code goes to the log whole. -/
theorem setWidth_ofNat_byte {n : Nat} (h : n < 256) : (BitVec.ofNat 8 n).setWidth 16 = BitVec.ofNat 16 n := by
  refine BitVec.eq_of_toNat_eq ?_
  simp only [BitVec.toNat_setWidth, BitVec.toNat_ofNat]
  omega

theorem idleCode_lt (c : Config) : c.idleCode < 256 := by
  obtain ⟨-, -, -, -, hidle, -⟩ := c.codes
  exact hidle.trans_le c.addrWidth_pow_le

/-- The sentinel slot logs IDLE_CODE and the pair (SENTINEL_PERIOD, 0), and no PIXBUS word. -/
theorem Inv.slotLog_sentinel {s : State} (h : Inv s) (hstarted : s.started = true) (b : BufferId) (p : Nat) :
    slotLog s.cfg s.mem b p s.cfg.nSlots = [⟨s.cfg.nSlots, .addr, 0, BitVec.ofNat 16 s.cfg.idleCode⟩,
      ⟨s.cfg.nSlots, .timer, 0, BitVec.ofNat 16 s.cfg.sentinelPeriod⟩, ⟨s.cfg.nSlots, .timer, 1, 0#16⟩] := by
  obtain ⟨hrow, hperiod, hduty⟩ := h.sentinelEntries hstarted
  rw [slotLog, if_neg (Nat.lt_irrefl _), List.append_nil, hrow, hperiod, hduty, setWidth_ofNat_byte (idleCode_lt s.cfg)]

/-- Settles O40: `sentinelSlotState` is the state R201 describes, with the entries the tables hold for that slot. -/
theorem completingTickRaisesIrqAndWaits : Obligations.CompletingTickRaisesIrqAndWaits := by
  intro s h hrun hk
  have hscan : s.scanState ≠ .stopped := by simp [hrun]
  obtain ⟨hstarted, -⟩ := h.running hscan
  obtain ⟨hrow, hperiod, hduty⟩ := h.sentinelEntries hstarted
  obtain ⟨-, -, -, hmax, -⟩ := s.cfg.timing
  refine ⟨_, perform_tick_sentinel h hrun hk, ?_, ?_, ?_, hduty, fun ch => ?_, slot_sentinelSlotState s⟩
  · rw [← h.slotLog_sentinel hstarted s.front s.page]
    rfl
  · exact (congrArg BitVec.toNat hrow).trans ((BitVec.toNat_ofNat ..).trans (Nat.mod_eq_of_lt (idleCode_lt s.cfg)))
  · exact (congrArg BitVec.toNat hperiod).trans (ofNat_toNat hmax)
  · rw [desc_sentinelSlotState (hk ▸ h.atSlot hscan) ch]
    exact scanDesc_tableLen s.cfg s.front s.page ch

end Sys2Proof.Machine

/-! SUPPORT. A pass of the scan (spec/43_scan_controller.md R203): the TICKs left of it, and what its log holds for each
port. -/

namespace Sys2Proof.Machine

/-! ### The TICKs of a pass -/

/-- The entries the rest of the pass logs, from the present slot on. -/
def restLog (s : State) : List PortWrite :=
  (List.range' s.slot (s.cfg.tableLen - s.slot)).flatMap (slotLog s.cfg s.mem s.front s.page)

theorem restLog_data {s : State} (hk : s.slot < s.cfg.nSlots) :
    restLog s = slotLog s.cfg s.mem s.front s.page s.slot ++ restLog (dataSlotState s.slot s) := by
  have hlen := s.cfg.tableLen_eq
  have hleft : s.cfg.tableLen - s.slot = s.cfg.tableLen - (s.slot + 1) + 1 := by omega
  simp only [restLog, slot_dataSlotState hk]
  rw [hleft, List.range'_succ, List.flatMap_cons]
  rfl

theorem restLog_sentinel {s : State} (hk : s.slot = s.cfg.nSlots) :
    restLog s = slotLog s.cfg s.mem s.front s.page s.cfg.nSlots := by
  have hleft : s.cfg.tableLen - s.cfg.nSlots = 1 := Nat.add_sub_cancel_left ..
  simp [restLog, hk, hleft]

theorem restLog_start {s : State} (hk : s.slot = 0) : restLog s = passLog s.cfg s.mem s.front s.page := by
  rw [restLog, hk, Nat.sub_zero, ← List.range_eq_range', passLog]

/-- A state of the invariant in a pass with `left` data slots to go. -/
structure InPass (s : State) (left : Nat) : Prop where
  inv : Inv s
  run : s.scanState = .run
  left : s.slot + left = s.cfg.nSlots

/-- `t` is `s` with its pass complete. -/
structure PassEnded (s t : State) : Prop where
  log : t.portLog = s.portLog ++ restLog s
  waits : t.scanState = .waitRefresh
  irq : t.irq = true
  mem : t.mem = s.mem
  front : t.front = s.front
  page : t.page = s.page

/-- The events still to come are no matter to the pass. -/
theorem InPass.withInputs {s : State} {left : Nat} (h : InPass s left) (inputs : List Event) :
    InPass { s with inputs := inputs } left := ⟨h.inv.withInputs inputs, h.run, h.left⟩

theorem PassEnded.of_withInputs {s t : State} {inputs : List Event} (h : PassEnded { s with inputs := inputs } t) :
    PassEnded s t := ⟨h.log, h.waits, h.irq, h.mem, h.front, h.page⟩

section Ticks
variable {s : State} {left : Nat}

/-- A TICK with data slots to go takes the pass one slot on. -/
theorem InPass.tick (h : InPass s (left + 1)) :
    perform .tick s = .next (dataSlotState s.slot s) ∧ InPass (dataSlotState s.slot s) left := by
  have hleft := h.left
  have hk : s.slot < s.cfg.nSlots := by omega
  have htick := perform_tick_data h.inv h.run hk
  refine ⟨htick, (happens_of_perform htick).inv h.inv, h.run, ?_⟩
  rw [slot_dataSlotState hk]
  change s.slot + 1 + left = s.cfg.nSlots
  omega

/-- The pass of `s` is complete when what the TICK of a data slot leaves of it is. -/
theorem InPass.passEnded_of_tick {t : State} (h : InPass s (left + 1)) (ht : PassEnded (dataSlotState s.slot s) t) :
    PassEnded s t := by
  have hleft := h.left
  have hk : s.slot < s.cfg.nSlots := by omega
  refine ⟨?_, ht.waits, ht.irq, ht.mem, ht.front, ht.page⟩
  rw [ht.log, restLog_data hk, ← List.append_assoc]
  rfl

/-- With no data slot to go the TICK completes the pass. -/
theorem InPass.lastTick (h : InPass s 0) :
    perform .tick s = .next (sentinelSlotState s) ∧ PassEnded s (sentinelSlotState s) :=
  ⟨perform_tick_sentinel h.inv h.run h.left, by rw [restLog_sentinel h.left]; rfl, rfl, rfl, rfl, rfl, rfl⟩

/-- One TICK more than data slots to go completes the pass. -/
theorem InPass.runs (h : InPass s left) (hinputs : s.inputs = List.replicate (left + 1) .tick) :
    ∃ t, Sys2Proof.core.run (left + 1) s = .next t ∧ PassEnded s t := by
  have hstep := step_cons (hinputs.trans List.replicate_succ)
  have hu := h.withInputs (List.replicate left .tick)
  induction left generalizing s with
  | zero =>
    obtain ⟨htick, hend⟩ := hu.lastTick
    exact ⟨_, run_succ (hstep.trans htick) 0, hend.of_withInputs⟩
  | succ left ih =>
    obtain ⟨htick, hnext⟩ := hu.tick
    obtain ⟨t, hrun, ht⟩ := ih hnext rfl (step_cons List.replicate_succ) (hnext.withInputs _)
    exact ⟨t, (run_succ (hstep.trans htick) _).trans hrun, (hu.passEnded_of_tick ht).of_withInputs⟩

end Ticks

/-! ### The entries of a pass, port by port -/

/-- The entries of a log for one port. -/
def entriesTo (port : Port) (log : List PortWrite) : List PortWrite := log.filter fun x => decide (x.port = port)

@[simp] theorem entriesTo_append (port : Port) (log log' : List PortWrite) :
    entriesTo port (log ++ log') = entriesTo port log ++ entriesTo port log' := List.filter_append ..

section Ports
variable {c : Config} {m : Memory} {b : BufferId} {p k : Nat}

theorem entriesTo_passLog (port : Port) : entriesTo port (passLog c m b p)
    = (List.range c.tableLen).flatMap fun k => entriesTo port (slotLog c m b p k) := List.filter_flatMap

theorem entriesTo_pixbus_halfLog (first : Nat) :
    entriesTo .pixbus (halfLog c m b p k first) = halfLog c m b p k first := by
  simp [entriesTo, halfLog]

theorem entriesTo_other_halfLog {port : Port} (h : port ≠ .pixbus) (first : Nat) :
    entriesTo port (halfLog c m b p k first) = [] := by
  simp [entriesTo, halfLog, h.symm]

/-- The entries of a slot from the two tables: ROWSEL, PERIOD, DUTY. -/
def tableLog (c : Config) (m : Memory) (k : Nat) : List PortWrite :=
  [⟨k, .addr, 0, (m.readByte (c.addrtabBase + k)).setWidth 16⟩, ⟨k, .timer, 0, m.readHalf (c.tmrtabBase + 4 * k)⟩,
    ⟨k, .timer, 1, m.readHalf (c.tmrtabBase + 4 * k + 2)⟩]

theorem slotLog_eq : slotLog c m b p k
    = tableLog c m k ++ if k < c.nSlots then halfLog c m b p k 0 ++ halfLog c m b p k c.half else [] := rfl

/-- Only the chunk of a slot goes to PORT_PIXBUS, so the other ports get table entries. -/
theorem entriesTo_other_slotLog {port : Port} (h : port ≠ .pixbus) :
    entriesTo port (slotLog c m b p k) = entriesTo port (tableLog c m k) := by
  rw [slotLog_eq]
  split <;> simp [entriesTo_other_halfLog h]

/-- No table entry goes to PORT_PIXBUS. -/
theorem entriesTo_pixbus_slotLog : entriesTo .pixbus (slotLog c m b p k)
    = if k < c.nSlots then halfLog c m b p k 0 ++ halfLog c m b p k c.half else [] := by
  have htable : entriesTo .pixbus (tableLog c m k) = [] := rfl
  rw [slotLog_eq]
  split <;> simp [htable, entriesTo_pixbus_halfLog]

theorem length_entriesTo_addr_slotLog : (entriesTo .addr (slotLog c m b p k)).length = 1 := by
  rw [entriesTo_other_slotLog (by decide)]
  rfl

theorem length_entriesTo_timer_slotLog : (entriesTo .timer (slotLog c m b p k)).length = 2 := by
  rw [entriesTo_other_slotLog (by decide)]
  rfl

/-- A pass logs as many entries for a port as slots when each slot logs as many as any other. -/
theorem length_entriesTo_passLog {port : Port} {n : Nat} (h : ∀ k, (entriesTo port (slotLog c m b p k)).length = n) :
    (entriesTo port (passLog c m b p)).length = c.tableLen * n := by
  simp [entriesTo_passLog, List.length_flatMap, h]

/-! ### The PIXBUS words of a pass -/

/-- The values of the entries, as numbers. -/
def loggedValues (log : List PortWrite) : List Nat := log.map fun x => x.value.toNat

theorem loggedValues_halfLog (first : Nat) : loggedValues (halfLog c m b p k first)
    = (List.range c.half).map fun e => (m.readByte (chunkAddr c b p k (first + e))).toNat := by
  simp only [loggedValues, halfLog, List.map_map]
  exact List.map_congr_left fun e _ => BitVec.toNat_setWidth_of_le (by decide)

/-- The two halves of a slot's log are the words of its chunk in ascending order. -/
theorem loggedValues_pixbus_slotLog : loggedValues (entriesTo .pixbus (slotLog c m b p k))
    = if k < c.nSlots then (List.range c.writesPerColumn).map fun w => (m.readByte (chunkAddr c b p k w)).toNat
      else [] := by
  obtain ⟨hwords, -⟩ := c.writesPerColumn_eq
  rw [entriesTo_pixbus_slotLog]
  split
  · have hhalves : loggedValues (halfLog c m b p k 0 ++ halfLog c m b p k c.half)
        = loggedValues (halfLog c m b p k 0) ++ loggedValues (halfLog c m b p k c.half) := List.map_append
    rw [hwords, Nat.two_mul, List.range_add, List.map_append, List.map_map, hhalves,
      loggedValues_halfLog, loggedValues_halfLog]
    simp only [Nat.zero_add]
    rfl
  · rfl

end Ports

/-- The numbers below m * n, by their digits to the base n, in ascending order. -/
theorem flatMap_range_digits {α : Type} (f : Nat → α) (m n : Nat) :
    ((List.range m).flatMap fun k => (List.range n).map fun w => f (k * n + w)) = (List.range (m * n)).map f := by
  induction m with
  | zero => simp
  | succ m ih =>
    rw [List.range_succ, List.flatMap_append, ih, List.flatMap_singleton, Nat.succ_mul, List.range_add, List.map_append,
      List.map_map]
    rfl

/-- The chunks of a pass, one after the other, are the page (spec/30_encoding.md R108). -/
theorem loggedValues_pixbus_passLog (c : Config) (m : Memory) (b : BufferId) (p : Nat) :
    loggedValues (entriesTo .pixbus (passLog c m b p))
      = (List.range c.panelDepthSize).map fun w => (m.readByte (pageBase c b p + w)).toNat := by
  have hchunks : ∀ k ∈ List.range c.nSlots, loggedValues (entriesTo .pixbus (slotLog c m b p k))
      = (List.range c.writesPerColumn).map fun w =>
          (m.readByte (pageBase c b p + (k * c.writesPerColumn + w))).toNat := by
    intro k hk
    rw [loggedValues_pixbus_slotLog, if_pos (List.mem_range.1 hk)]
    simp only [chunkAddr, Nat.add_assoc]
  have hsentinel : loggedValues (entriesTo .pixbus (slotLog c m b p c.nSlots)) = [] := by
    rw [loggedValues_pixbus_slotLog, if_neg (Nat.lt_irrefl _)]
  calc _ = (List.range c.tableLen).flatMap fun k => loggedValues (entriesTo .pixbus (slotLog c m b p k)) := by
        rw [entriesTo_passLog]
        exact List.map_flatMap
    _ = (List.range c.nSlots).flatMap fun k => loggedValues (entriesTo .pixbus (slotLog c m b p k)) := by
        rw [c.tableLen_eq, List.range_succ, List.flatMap_append, List.flatMap_singleton, hsentinel, List.append_nil]
    _ = _ := by
        rw [List.flatMap_congr hchunks, c.panelDepthSize_eq]
        exact flatMap_range_digits (fun w => (m.readByte (pageBase c b p + w)).toNat) _ _

/-- Settles O42: at slot 0 the whole pass is to go. -/
theorem passLogsOnePageInOrder : Obligations.PassLogsOnePageInOrder := by
  intro s h hrun hslot hinputs
  obtain ⟨t, hrun, ht⟩ := InPass.runs ⟨h, hrun, by rw [hslot, Nat.zero_add]⟩ hinputs
  refine ⟨t, hrun, by rw [ht.log, restLog_start hslot], ?_, ?_, loggedValues_pixbus_passLog _ _ _ _, ht.waits, ht.irq,
    ht.mem, ht.front, ht.page⟩
  · exact (length_entriesTo_passLog fun _ => length_entriesTo_addr_slotLog).trans (Nat.mul_one _)
  · exact (length_entriesTo_passLog fun _ => length_entriesTo_timer_slotLog).trans (Nat.mul_comm _ _)

end Sys2Proof.Machine

/-! SUPPORT. The statements on exceptions (spec/60_exceptions.md): which events a step performs, that none of them stops
from a state of the invariant (R233), what a halted block does (R231), and when IRQ rises and falls (R232, R234). -/

namespace Sys2Proof.Machine

/-! ### The event a step performs (R246) -/

/-- Settles O8: a step performs the first event of the list, and each event is performed when it is enabled. -/
theorem stepPerformsOfferedEvent : Obligations.StepPerformsOfferedEvent := fun _ _ =>
  ⟨step_nil, fun h => (step_cons h).trans (perform_tick _), fun h => (step_cons h).trans (perform_encstep _),
    fun h => (step_cons h).trans (perform_reset _)⟩

/-- A TICK scans a slot in RUN only. -/
theorem perform_tick_of_ne_run {s : State} (h : s.scanState ≠ .run) : perform .tick s = .next s := by
  have htick : tick s = .next s := by simp [tick, h]
  rw [perform_tick, htick, ite_self]

/-- Settles O10: a command that is not effective is dropped, and outside RUN a TICK moves no channel. -/
theorem ineffectiveStepChangesNothing : Obligations.IneffectiveStepChangesNothing :=
  ⟨fun _ _ => exec_of_not_effective, fun _ => perform_tick_of_ne_run⟩

/-! ### No event stops the block (R233) -/

/-- Settles O9: a command answers its effect or the state it found. -/
theorem everyCommandCompletes : Obligations.EveryCommandCompletes := fun i s => ⟨_, exec_eq_effect i s⟩

theorem acceptWord_next (w : CommandWord) (s : State) : ∃ t, acceptWord w s = .next t := by
  cases hdec : decode w with
  | ok i => exact ⟨_, (acceptWord_of_decode hdec s).trans (exec_eq_effect i s)⟩
  | error e => exact ⟨s, acceptWord_of_error hdec s⟩

/-- In RUN the next slot is a data slot or the sentinel slot. -/
theorem Inv.slot_lt_or_eq {s : State} (h : Inv s) (hrun : s.scanState = .run) :
    s.slot < s.cfg.nSlots ∨ s.slot = s.cfg.nSlots := by
  obtain ⟨-, hslot, -⟩ := h.lockStep
  exact Nat.lt_or_eq_of_le (hslot hrun)

theorem Inv.perform_tick_next {s : State} (h : Inv s) : ∃ t, perform .tick s = .next t := by
  by_cases hrun : s.scanState = .run
  · obtain hdata | hsentinel := h.slot_lt_or_eq hrun
    · exact ⟨_, perform_tick_data h hrun hdata⟩
    · exact ⟨_, perform_tick_sentinel h hrun hsentinel⟩
  · exact ⟨s, perform_tick_of_ne_run hrun⟩

theorem Inv.perform_encstep_next {s : State} (h : Inv s) : ∃ t, perform .encstep s = .next t := by
  cases hbusy : s.encBusy with
  | true =>
    obtain ⟨-, hposition⟩ := h.encoder
    exact ⟨_, perform_encstep_busy hbusy (hposition hbusy).2⟩
  | false => exact ⟨s, by simp [perform_encstep, hbusy]⟩

/-- No event has a fault to raise: a TICK's four minor loops and an ENCSTEP's store stay inside their regions. -/
theorem Inv.perform_next {s : State} (h : Inv s) (e : Event) : ∃ t, perform e s = .next t := by
  cases e with
  | command w => exact acceptWord_next w s
  | tick => exact h.perform_tick_next
  | encstep => exact h.perform_encstep_next
  | reset => exact ⟨_, perform_reset s⟩

/-- Settles O45: whatever event is offered first, it has a next state. -/
theorem noStepStopsFromTheInvariant : Obligations.NoStepStopsFromTheInvariant := by
  intro s h
  cases hinputs : s.inputs with
  | nil => exact ⟨s, step_nil hinputs⟩
  | cons e rest =>
    rw [step_cons hinputs]
    exact (h.withInputs rest).perform_next e

/-! ### The halted block (R231) -/

theorem Inv.stopped_of_not_started {s : State} (h : Inv s) (hstarted : s.started = false) : s.scanState = .stopped := by
  obtain ⟨-, -, hstart, -, -⟩ := h.flags
  simpa [hstarted] using hstart

/-- A halted block never started its scan: BEGIN raised HALT instead (R192). -/
theorem Inv.stopped_of_halted {s : State} (h : Inv s) (hhalted : s.halted = true) : s.scanState = .stopped := by
  obtain ⟨hexclusive, -⟩ := h.flags
  exact h.stopped_of_not_started (by simpa [hhalted] using hexclusive)

/-- PENDING is consumed by an effective REFRESH or SHOW only, and a halted block has no effective command. -/
theorem Happens.pending_of_halted {e : Option Event} {s t : State} (hap : Happens s e t) (h : Inv s)
    (hhalted : s.halted = true) (hreset : e ≠ some .reset) (hpending : s.pending = true) : t.pending = true := by
  cases hap with
  | nothing => exact hpending
  | command hdec heff => simp [effective_halted _ hhalted] at heff
  | tick hrun hu => simp [h.stopped_of_halted hhalted] at hrun
  | encstep hbusy hpos =>
    obtain ⟨-, -, -, -, hidle⟩ := h.flags
    simp [hidle hbusy] at hpending
  | reset => exact absurd rfl hreset

/-- Settles O51: no command is effective in a halted block, and no TICK finds it in RUN. -/
theorem haltedBlockDropsEveryCommand : Obligations.HaltedBlockDropsEveryCommand := by
  refine ⟨fun i _ => exec_halted i, fun s h hhalted =>
    ⟨perform_tick_of_ne_run (by simp [h.stopped_of_halted hhalted]), fun e t hreset hperform => ?_⟩⟩
  have hap := happens_of_perform hperform
  have hne : some e ≠ some .reset := by simpa using hreset
  obtain ⟨-, -, hhalts, -⟩ := hap.keepsRunning hne
  exact ⟨hhalts hhalted, hap.pending_of_halted h hhalted hne⟩

/-! ### IRQ (R232, R234) -/

theorem Inv.irq_of_run {s : State} (h : Inv s) (hrun : s.scanState = .run) : s.irq = false := by
  obtain ⟨-, hirq, -⟩ := h.flags
  simpa [hrun] using hirq

/-- An effective BEGIN finds the block in STOPPED with IRQ = 0 and leaves IRQ = 0. -/
theorem effect_begin_irq {s : State} (h : Inv s) (heff : effective .begin s = true) :
    (effect .begin s).irq = s.irq := by
  obtain ⟨-, hstarted⟩ := effective_begin_iff.1 heff
  obtain ⟨-, hirq, -⟩ := h.flags
  have hidle : s.irq = false := by simpa [h.stopped_of_not_started hstarted] using hirq
  cases hres : s.cfg.resOk <;> simp [effect, hres, startScan, hidle]

/-- Of the effective commands only REFRESH writes IRQ. -/
theorem effect_irq {i : Instr} {s : State} (h : Inv s) (heff : effective i s = true) (hrefresh : i ≠ .refresh) :
    (effect i s).irq = s.irq := by
  cases i with
  | begin => exact effect_begin_irq h heff
  | refresh => exact absurd rfl hrefresh
  | _ => rfl

@[simp] theorem advanceEncoder_irq (s : State) : (advanceEncoder s).irq = s.irq := by
  rw [advanceEncoder_frame]

/-- The four minor loops leave the state of a data slot or, at slot N_SLOTS only, that of the completed pass. -/
theorem Inv.afterSlot_cases {s u : State} (h : Inv s) (hrun : s.scanState = .run) (hu : scanSlot s.slot s = .ok u) :
    afterSlot u = dataSlotState s.slot s ∨ (s.slot = s.cfg.nSlots ∧ afterSlot u = sentinelSlotState s) := by
  have hperform := perform_tick_run h hrun hu
  obtain hdata | hsentinel := h.slot_lt_or_eq hrun
  · rw [perform_tick_data h hrun hdata] at hperform
    exact .inl (Host.Outcome.next.inj hperform).symm
  · rw [perform_tick_sentinel h hrun hsentinel] at hperform
    exact .inr ⟨hsentinel, (Host.Outcome.next.inj hperform).symm⟩

theorem Happens.irq_raised {e : Option Event} {s t : State} (hap : Happens s e t) (h : Inv s)
    (hlow : s.irq = false) (hhigh : t.irq = true) :
    e = some .tick ∧ s.scanState = .run ∧ s.slot = s.cfg.nSlots ∧ t.scanState = .waitRefresh := by
  cases hap with
  | nothing => simp [hlow] at hhigh
  | @command w i hdec heff =>
    by_cases hrefresh : i = .refresh
    · simp [hrefresh, effect] at hhigh
    · simp [effect_irq h heff hrefresh, hlow] at hhigh
  | tick hrun hu =>
    obtain hdata | ⟨hslot, hsentinel⟩ := h.afterSlot_cases hrun hu
    · simp [hdata, dataSlotState, hlow] at hhigh
    · exact ⟨rfl, hrun, hslot, by rw [hsentinel]; rfl⟩
  | encstep hbusy hpos => simp [encoderStored, hlow] at hhigh
  | reset => simp [resetStep_eq, State.resetOf] at hhigh

theorem Happens.irq_cleared {e : Option Event} {s t : State} (hap : Happens s e t) (h : Inv s)
    (hhigh : s.irq = true) (hlow : t.irq = false) :
    e = some .reset ∨ ∃ w, e = some (.command w) ∧ decode w = .ok .refresh := by
  cases hap with
  | nothing => simp [hhigh] at hlow
  | @command w i hdec heff =>
    by_cases hrefresh : i = .refresh
    · exact .inr ⟨w, rfl, hrefresh ▸ hdec⟩
    · simp [effect_irq h heff hrefresh, hhigh] at hlow
  | tick hrun hu => simp [h.irq_of_run hrun] at hhigh
  | encstep hbusy hpos => simp [encoderStored, hhigh] at hlow
  | reset => exact .inl rfl

/-- Settles O50: of the events only the TICK of the sentinel slot raises IRQ, and only REFRESH and RESET clear it. -/
theorem irqRisesAtPassEndAndFallsByRefresh : Obligations.IrqRisesAtPassEndAndFallsByRefresh := fun s _ h hstep =>
  have hinv := h.withInputs s.inputs.tail
  ⟨(happens_of_step hstep).irq_raised hinv, (happens_of_step hstep).irq_cleared hinv⟩

end Sys2Proof.Machine
